-- ==== Sys2Proof/Word.lean ====
section
/-! DEFINITION. The word types of the block (spec/00_scope.md R9, spec/30_encoding.md R60): a byte, a 32-bit command
word, a 16-bit unsigned field. -/

namespace Sys2Proof

/-- One byte of the packet buffer, of a payload or of a response's data (R9). -/
abbrev Byte := BitVec 8

/-- The 32-bit command word `W`, presented on a 32-bit port as one value (R60). -/
abbrev Word := BitVec 32

/-- A `u16` field or operand (R62). -/
abbrev Half := BitVec 16

end Sys2Proof
end

