-- ==== Sys2Proof/Syntax.lean ====
section
/-! DEFINITION. The 26 commands of the E131-PVT command set (spec/30_encoding.md R68), one constructor per row of
spec/opcode_table.json, with the operands of R62 and the payload of R64 already taken apart. -/

namespace Sys2Proof

/-- The 17 scalar field registers GETFLD can name, in the order of their field ids 0 to 16 (spec/10_state.md R26,
spec/43_field_read.md R120). Ids 17 to 31 are illegal encodings (R69) and have no constructor. -/
inductive FieldId where
  | pre | post | rflen | rvec | fflen | fvec | prio | rsvd | seq | opts | univ
  | dflen | dvec | dtype | faddr | ainc | pvc
  deriving DecidableEq, Repr

/-- A command. A payload command carries its payload; its operand `len16` is the payload's length (R60, R64). -/
inductive Instr where
  /-- INIT n (R81). -/
  | init (n : Half)
  /-- LOAD <bytes> (R83). -/
  | load (payload : List Byte)
  /-- PARSE (R85). -/
  | parse
  /-- GETSTATE (R86). -/
  | getstate
  /-- BUFRD addr (R88). -/
  | bufrd (addr : Half)
  /-- BUFWR addr, byte (R90). -/
  | bufwr (addr : Half) (data : Byte)
  /-- VALIDATE (R104). -/
  | validate
  /-- DISCARD last (R111). -/
  | discard (last : Byte)
  /-- CLASSIFY (R113). -/
  | classify
  /-- INCSEQ (R116). -/
  | incseq
  /-- GETFLD fid (R120). -/
  | getfld (fid : FieldId)
  /-- GETCID (R122). -/
  | getcid
  /-- GETNAME (R123). -/
  | getname
  /-- GETPRIO (R124). -/
  | getprio
  /-- GETSEQ (R125). -/
  | getseq
  /-- GETOPT bit (R126). -/
  | getopt (bit : BitVec 3)
  /-- GETUNIV (R127). -/
  | getuniv
  /-- GETSLOTS (R128). -/
  | getslots
  /-- GETPID (R121). -/
  | getpid
  /-- SETCID <bytes> (R131). -/
  | setcid (payload : List Byte)
  /-- SETNAME <bytes> (R132). -/
  | setname (payload : List Byte)
  /-- SETPRIO p (R133). -/
  | setprio (p : Byte)
  /-- SETSEQ n (R134). -/
  | setseq (n : Byte)
  /-- SETOPT bit, on (R135). -/
  | setopt (bit : BitVec 3) (on : Bool)
  /-- SETUNIV u (R136). -/
  | setuniv (u : Half)
  /-- SETSLOTS <bytes> (R137). -/
  | setslots (payload : List Byte)
  deriving DecidableEq, Repr

/-- A command as the host presents it: the pair (W, P) of R60. -/
structure Command where
  word : Word
  payload : List Byte
  deriving DecidableEq, Repr

end Sys2Proof
end

