-- ==== Sys2Proof/WellFormed.lean ====
section
/-! DEFINITION. Which terms of `Instr` are commands of the block: `len16` is a `u16` (spec/30_encoding.md R62), so a
payload has at most 65535 bytes (R64). Every other operand has its width in its type. -/

namespace Sys2Proof

/-- The payload of a command: empty but for LOAD, SETCID, SETNAME and SETSLOTS (R60). -/
def Instr.payload : Instr → List Byte
  | .init _ => []
  | .load p => p
  | .parse => []
  | .getstate => []
  | .bufrd _ => []
  | .bufwr _ _ => []
  | .validate => []
  | .discard _ => []
  | .classify => []
  | .incseq => []
  | .getfld _ => []
  | .getcid => []
  | .getname => []
  | .getprio => []
  | .getseq => []
  | .getopt _ => []
  | .getuniv => []
  | .getslots => []
  | .getpid => []
  | .setcid p => p
  | .setname p => p
  | .setprio _ => []
  | .setseq _ => []
  | .setopt _ _ => []
  | .setuniv _ => []
  | .setslots p => p

/-- The payload's length fits `len16` (R62, R64). -/
def Instr.wellFormed (i : Instr) : Bool := decide (i.payload.length < 65536)

end Sys2Proof
end

