-- ==== Sys2Proof/Decode.lean ====
section
/-! DEFINITION. Decoding a command (W, P) (spec/30_encoding.md R61, R62, R68, R69, R74), total and rejecting by name,
and after it the encoder and the opcode table of R68 as data. -/

namespace Sys2Proof

/-- Why a pair (W, P) is not one of the 26 commands. -/
inductive DecodeError where
  /-- `W[31:24]` is no opcode of R68: illegal (R69). -/
  | noSuchOpcode
  /-- A reserved bit of the opcode's format is 1: illegal (R61, R69). -/
  | reservedBits
  /-- GETFLD with a field id of 17 to 31: illegal (R69). -/
  | reservedFieldId
  /-- `len(P)` is not the length `W` announces: "not a command" (R64). -/
  | payloadMismatch
  deriving DecidableEq, Repr

/-! ### Operand fields (R62) -/

/-- `W[31:24]`, the opcode. -/
def opcodeOf (w : Word) : Byte := w.extractLsb' 24 8
/-- `imm16 = W[15:0]`, and `len16 = W[15:0]`. -/
def imm16Of (w : Word) : Half := w.extractLsb' 0 16
/-- `imm8 = W[7:0]`, and `data8 = W[7:0]`. -/
def imm8Of (w : Word) : Byte := w.extractLsb' 0 8
/-- `addr16 = W[23:8]`. -/
def addr16Of (w : Word) : Half := w.extractLsb' 8 16
/-- `bit = W[10:8]`. -/
def bitOf (w : Word) : BitVec 3 := w.extractLsb' 8 3
/-- `on = W[0]`. -/
def onOf (w : Word) : Bool := w.getLsbD 0
/-- `fid = W[4:0]`. -/
def fidOf (w : Word) : BitVec 5 := w.extractLsb' 0 5

/-! ### Reserved bits of the seven formats (R61) -/

/-- Format Z: `W[23:0] = 0`. -/
def zReservedClear (w : Word) : Bool := w.extractLsb' 0 24 == 0#24
/-- Formats I16 and P: `W[23:16] = 0`. -/
def i16ReservedClear (w : Word) : Bool := w.extractLsb' 16 8 == 0#8
/-- Format I8: `W[23:8] = 0`. -/
def i8ReservedClear (w : Word) : Bool := w.extractLsb' 8 16 == 0#16
/-- Format B: `W[23:11] = 0` and `W[7:1] = 0`. -/
def bReservedClear (w : Word) : Bool := w.extractLsb' 11 13 == 0#13 && w.extractLsb' 1 7 == 0#7
/-- Format F: `W[23:5] = 0`. -/
def fReservedClear (w : Word) : Bool := w.extractLsb' 5 19 == 0#19

/-- The register a field id names (R120), none for 17 to 31. -/
def fieldOfId (fid : BitVec 5) : Option FieldId :=
  match fid.toNat with
  | 0 => some .pre
  | 1 => some .post
  | 2 => some .rflen
  | 3 => some .rvec
  | 4 => some .fflen
  | 5 => some .fvec
  | 6 => some .prio
  | 7 => some .rsvd
  | 8 => some .seq
  | 9 => some .opts
  | 10 => some .univ
  | 11 => some .dflen
  | 12 => some .dvec
  | 13 => some .dtype
  | 14 => some .faddr
  | 15 => some .ainc
  | 16 => some .pvc
  | _ => none

/-- The field id of a register (R26). -/
def idOfField : FieldId → BitVec 5
  | .pre => 0
  | .post => 1
  | .rflen => 2
  | .rvec => 3
  | .fflen => 4
  | .fvec => 5
  | .prio => 6
  | .rsvd => 7
  | .seq => 8
  | .opts => 9
  | .univ => 10
  | .dflen => 11
  | .dvec => 12
  | .dtype => 13
  | .faddr => 14
  | .ainc => 15
  | .pvc => 16

/-! ### The decoder -/

/-- The opcodes of the four payload commands (R74). -/
def isPayloadOpcode (op : Byte) : Bool :=
  op == 0x02#8 || op == 0x31#8 || op == 0x32#8 || op == 0x37#8

/-- The payload length, told from the word alone: `W[15:0]` for the opcodes 0x02, 0x31, 0x32 and 0x37, else 0 (R74). -/
def payloadLenOf (w : Word) : Nat :=
  if isPayloadOpcode (opcodeOf w) then (imm16Of w).toNat else 0

/-- A word of a known opcode: the command when the format's reserved bits are clear, else illegal (R61, R69). -/
def legalIf (clear : Bool) (i : Instr) : Except DecodeError Instr :=
  if clear then .ok i else .error .reservedBits

/-- GETFLD's last test: the field id names a register (R69). -/
def decodeFieldId (w : Word) : Except DecodeError Instr :=
  match fieldOfId (fidOf w) with
  | some f => legalIf (fReservedClear w) (.getfld f)
  | none => if fReservedClear w then .error .reservedFieldId else .error .reservedBits

/-- The command a word stands for, `p` being the payload presented with it (R61, R68, R69). -/
def decodeWord (w : Word) (p : List Byte) : Except DecodeError Instr :=
  match (opcodeOf w).toNat with
  | 0x01 => legalIf (i16ReservedClear w) (.init (imm16Of w))
  | 0x02 => legalIf (i16ReservedClear w) (.load p)
  | 0x03 => legalIf (zReservedClear w) .parse
  | 0x04 => legalIf (zReservedClear w) .getstate
  | 0x08 => legalIf (imm8Of w == 0#8) (.bufrd (addr16Of w))
  | 0x09 => .ok (.bufwr (addr16Of w) (imm8Of w))
  | 0x10 => legalIf (zReservedClear w) .validate
  | 0x18 => legalIf (i8ReservedClear w) (.discard (imm8Of w))
  | 0x19 => legalIf (zReservedClear w) .classify
  | 0x1A => legalIf (zReservedClear w) .incseq
  | 0x20 => decodeFieldId w
  | 0x21 => legalIf (zReservedClear w) .getcid
  | 0x22 => legalIf (zReservedClear w) .getname
  | 0x23 => legalIf (zReservedClear w) .getprio
  | 0x24 => legalIf (zReservedClear w) .getseq
  | 0x25 => legalIf (bReservedClear w && !onOf w) (.getopt (bitOf w))
  | 0x26 => legalIf (zReservedClear w) .getuniv
  | 0x27 => legalIf (zReservedClear w) .getslots
  | 0x28 => legalIf (zReservedClear w) .getpid
  | 0x31 => legalIf (i16ReservedClear w) (.setcid p)
  | 0x32 => legalIf (i16ReservedClear w) (.setname p)
  | 0x33 => legalIf (i8ReservedClear w) (.setprio (imm8Of w))
  | 0x34 => legalIf (i8ReservedClear w) (.setseq (imm8Of w))
  | 0x35 => legalIf (bReservedClear w) (.setopt (bitOf w) (onOf w))
  | 0x36 => legalIf (i16ReservedClear w) (.setuniv (imm16Of w))
  | 0x37 => legalIf (i16ReservedClear w) (.setslots p)
  | _ => .error .noSuchOpcode

/-- Decoding a pair (W, P): first its framing (R60, R64, R74), then the word (R69). -/
def decode (c : Command) : Except DecodeError Instr :=
  if c.payload.length = payloadLenOf c.word then decodeWord c.word c.payload else .error .payloadMismatch

/-! ### The encoder, from the same tables -/

/-- A word from its four byte columns, as R61 draws them. -/
def wordOf (op b2 b1 b0 : Byte) : Word := op ++ b2 ++ b1 ++ b0

/-- The high byte of a 16-bit operand. -/
def hiByte (h : Half) : Byte := h.extractLsb' 8 8
/-- The low byte of a 16-bit operand. -/
def loByte (h : Half) : Byte := h.extractLsb' 0 8

/-- Format Z (R61). -/
def wordZ (op : Byte) : Word := wordOf op 0 0 0
/-- Formats I16 and P (R61). -/
def word16 (op : Byte) (h : Half) : Word := wordOf op 0 (hiByte h) (loByte h)
/-- Format I8 (R61). -/
def word8 (op : Byte) (b : Byte) : Word := wordOf op 0 0 b
/-- Format B (R61). -/
def wordB (op : Byte) (bit : BitVec 3) (on : Bool) : Word :=
  wordOf op 0 (0#5 ++ bit) (0#7 ++ BitVec.ofBool on)
/-- Format A (R61). -/
def wordA (op : Byte) (a : Half) (b : Byte) : Word := wordOf op (hiByte a) (loByte a) b
/-- Format F (R61). -/
def wordF (op : Byte) (fid : BitVec 5) : Word := wordOf op 0 0 (0#3 ++ fid)

/-- The command word of a command (R61, R68). -/
def encodeWord : Instr → Word
  | .init n => word16 0x01 n
  | .load p => word16 0x02 (BitVec.ofNat 16 p.length)
  | .parse => wordZ 0x03
  | .getstate => wordZ 0x04
  | .bufrd a => wordA 0x08 a 0
  | .bufwr a b => wordA 0x09 a b
  | .validate => wordZ 0x10
  | .discard l => word8 0x18 l
  | .classify => wordZ 0x19
  | .incseq => wordZ 0x1A
  | .getfld f => wordF 0x20 (idOfField f)
  | .getcid => wordZ 0x21
  | .getname => wordZ 0x22
  | .getprio => wordZ 0x23
  | .getseq => wordZ 0x24
  | .getopt bit => wordB 0x25 bit false
  | .getuniv => wordZ 0x26
  | .getslots => wordZ 0x27
  | .getpid => wordZ 0x28
  | .setcid p => word16 0x31 (BitVec.ofNat 16 p.length)
  | .setname p => word16 0x32 (BitVec.ofNat 16 p.length)
  | .setprio p => word8 0x33 p
  | .setseq n => word8 0x34 n
  | .setopt bit on => wordB 0x35 bit on
  | .setuniv u => word16 0x36 u
  | .setslots p => word16 0x37 (BitVec.ofNat 16 p.length)

/-- The pair (W, P) of a command (R60). -/
def encode (i : Instr) : Command := ⟨encodeWord i, i.payload⟩

/-! ### The opcode table of R68 as data -/

/-- One row of R68: a word `W` selects it when `W & mask = pattern`. -/
structure OpcodeRow where
  mnemonic : String
  pattern : Word
  mask : Word
  deriving DecidableEq, Repr

/-- A word selects a row (R68). -/
def OpcodeRow.selects (r : OpcodeRow) (w : Word) : Bool := w &&& r.mask == r.pattern

/-- The rows of R68 for packet and buffer, validation and sequence. -/
def opcodeTableLow : List OpcodeRow :=
  [⟨"INIT", 0x01000000, 0xFFFF0000⟩, ⟨"LOAD", 0x02000000, 0xFFFF0000⟩,
   ⟨"PARSE", 0x03000000, 0xFFFFFFFF⟩, ⟨"GETSTATE", 0x04000000, 0xFFFFFFFF⟩,
   ⟨"BUFRD", 0x08000000, 0xFF0000FF⟩, ⟨"BUFWR", 0x09000000, 0xFF000000⟩,
   ⟨"VALIDATE", 0x10000000, 0xFFFFFFFF⟩, ⟨"DISCARD", 0x18000000, 0xFFFFFF00⟩,
   ⟨"CLASSIFY", 0x19000000, 0xFFFFFFFF⟩, ⟨"INCSEQ", 0x1A000000, 0xFFFFFFFF⟩]

/-- The rows of R68 for the field readers. -/
def opcodeTableRead : List OpcodeRow :=
  [⟨"GETFLD", 0x20000000, 0xFFFFFFE0⟩, ⟨"GETCID", 0x21000000, 0xFFFFFFFF⟩,
   ⟨"GETNAME", 0x22000000, 0xFFFFFFFF⟩, ⟨"GETPRIO", 0x23000000, 0xFFFFFFFF⟩,
   ⟨"GETSEQ", 0x24000000, 0xFFFFFFFF⟩, ⟨"GETOPT", 0x25000000, 0xFFFFF8FF⟩,
   ⟨"GETUNIV", 0x26000000, 0xFFFFFFFF⟩, ⟨"GETSLOTS", 0x27000000, 0xFFFFFFFF⟩,
   ⟨"GETPID", 0x28000000, 0xFFFFFFFF⟩]

/-- The rows of R68 for the field writers. -/
def opcodeTableWrite : List OpcodeRow :=
  [⟨"SETCID", 0x31000000, 0xFFFF0000⟩, ⟨"SETNAME", 0x32000000, 0xFFFF0000⟩,
   ⟨"SETPRIO", 0x33000000, 0xFFFFFF00⟩, ⟨"SETSEQ", 0x34000000, 0xFFFFFF00⟩,
   ⟨"SETOPT", 0x35000000, 0xFFFFF8FE⟩, ⟨"SETUNIV", 0x36000000, 0xFFFF0000⟩,
   ⟨"SETSLOTS", 0x37000000, 0xFFFF0000⟩]

/-- The 26 rows of R68. -/
def opcodeTable : List OpcodeRow := opcodeTableLow ++ opcodeTableRead ++ opcodeTableWrite

/-- The mnemonic of a command (R68, R75). -/
def Instr.mnemonic : Instr → String
  | .init _ => "INIT"
  | .load _ => "LOAD"
  | .parse => "PARSE"
  | .getstate => "GETSTATE"
  | .bufrd _ => "BUFRD"
  | .bufwr _ _ => "BUFWR"
  | .validate => "VALIDATE"
  | .discard _ => "DISCARD"
  | .classify => "CLASSIFY"
  | .incseq => "INCSEQ"
  | .getfld _ => "GETFLD"
  | .getcid => "GETCID"
  | .getname => "GETNAME"
  | .getprio => "GETPRIO"
  | .getseq => "GETSEQ"
  | .getopt _ => "GETOPT"
  | .getuniv => "GETUNIV"
  | .getslots => "GETSLOTS"
  | .getpid => "GETPID"
  | .setcid _ => "SETCID"
  | .setname _ => "SETNAME"
  | .setprio _ => "SETPRIO"
  | .setseq _ => "SETSEQ"
  | .setopt _ _ => "SETOPT"
  | .setuniv _ => "SETUNIV"
  | .setslots _ => "SETSLOTS"

/-! ### The opcode table's own numbering of an instruction's bits -/

/-- The `n` payload bytes whose bits follow the command word in `w`, byte 0 first. -/
def tablePayload : Nat → Nat → List Byte
  | 0, _ => []
  | n + 1, w => BitVec.ofNat 8 w :: tablePayload n (w / 256)

/-- The command whose low `nbits` bits are those of `w`, every bit above them 0: the command word in bits 31..0, then
the payload bytes the word announces. -/
def tableCommand (nbits w : Nat) : Command :=
  let v := w % 2 ^ nbits
  let word : Word := BitVec.ofNat 32 v
  ⟨word, tablePayload (payloadLenOf word) (v / 2 ^ 32)⟩

/-- The instruction the decoder reads from an instruction whose bits are `w`, numbered as spec/opcode_table.json
numbers them; none where it refuses. -/
def decodeTableWord (nbits w : Nat) : Option Instr :=
  match decode (tableCommand nbits w) with
  | .ok i => some i
  | .error _ => none

end Sys2Proof
end

