-- ==== Sys2Proof/Config.lean ====
section
/-! DEFINITION. The three implementation parameters of spec/00_scope.md R8 and the range each may take. They are fixed
before reset (R34); the state carries them unchanged, so that every theorem holds for every choice of them (log entry 2).
No instruction of this block leaves a value open, so there is no free value here. -/

namespace Sys2Proof.Config

/-- The named parameters of R8: "BUF_CAP", "DEFAULT_UNIVERSE" and "TRK_PRESET". -/
structure Params where
  /-- `BUF_CAP`: capacity of the packet buffer in bytes. -/
  bufCap : Nat
  /-- `DEFAULT_UNIVERSE`: the universe written by INIT. -/
  defaultUniverse : Half
  /-- `TRK_PRESET`: the partial map from universe to sequence number loaded into the tracker at reset, as
  (universe, value) pairs in rising order of the universe. -/
  trkPreset : List Host.Cell
  deriving DecidableEq, Repr

/-- The ranges R8 gives: 638 ≤ BUF_CAP ≤ 65535, 1 ≤ DEFAULT_UNIVERSE ≤ 63999, and TRK_PRESET a map whose keys are
16-bit universe numbers, each listed once. -/
def Params.valid (p : Params) : Bool :=
  decide (638 ≤ p.bufCap ∧ p.bufCap ≤ 65535) &&
  decide (1 ≤ p.defaultUniverse.toNat ∧ p.defaultUniverse.toNat ≤ 63999) &&
  decide (p.trkPreset.Pairwise fun x y => x.1 < y.1) &&
  p.trkPreset.all fun c => decide (c.1 < 65536)

/-- The defaults of R8: 638, 1 and the empty map. -/
def Params.default : Params where
  bufCap := 638
  defaultUniverse := 1
  trkPreset := []

end Sys2Proof.Config
end

