-- ==== Sys2Proof/Machine/Memory.lean ====
section
/-! DEFINITION. Sparse byte storage in one canonical form, and the big-endian accesses over it (spec/00_scope.md R10,
spec/20_memory.md R40). The packet buffer BUF is one (keys are buffer addresses); the tracker TRK is another (keys are
universe numbers, spec/10_state.md R30). An unlisted key has no value: for TRK that is the spec's `none`, for BUF it is
log entry 3. -/

namespace Sys2Proof.Machine

/-- (key, byte) pairs. -/
abbrev Memory := List Host.Cell

/-- The canonical form: keys strictly rising. (An unlisted key has no value, so no entry can equal it.) -/
def Memory.wf (m : Memory) : Bool := decide (m.Pairwise fun x y => x.1 < y.1)

/-- The byte at a key, none where nothing was written. -/
def Memory.read : Memory → Nat → Option Byte
  | [], _ => none
  | c :: m, a => if c.1 = a then some c.2 else Memory.read m a

/-- Store one byte, keeping the keys in rising order. -/
def Memory.write : Memory → Nat → Byte → Memory
  | [], a, b => [(a, b)]
  | c :: m, a, b =>
    if a < c.1 then (a, b) :: c :: m
    else if a = c.1 then (a, b) :: m
    else c :: Memory.write m a b

/-- The memory that holds exactly the bytes of `s`, byte 0 at address `a`: a freshly allocated buffer (R81, R83). -/
def Memory.ofBytes : Nat → List Byte → Memory
  | _, [] => []
  | a, b :: s => (a, b) :: Memory.ofBytes (a + 1) s

/-- `MemWriteBytes(a, s)` (R10). -/
def Memory.writeBytes : Memory → Nat → List Byte → Memory
  | m, _, [] => m
  | m, a, b :: s => Memory.writeBytes (m.write a b) (a + 1) s

/-- `MemReadBytes(a, n)` (R10), none where one of the bytes has no value. -/
def Memory.readBytes (m : Memory) (a : Nat) : Nat → Option (List Byte)
  | 0 => some []
  | n + 1 =>
    match m.read a, Memory.readBytes m (a + 1) n with
    | some b, some s => some (b :: s)
    | _, _ => none

/-- `MemReadBytes(a, n)` into a byte-string register of `n` bytes (R27). -/
def Memory.readVec (m : Memory) (a : Nat) : (n : Nat) → Option (Vector Byte n)
  | 0 => some #v[]
  | n + 1 =>
    match Memory.readVec m a n, m.read (a + n) with
    | some v, some b => some (v.push b)
    | _, _ => none

/-- `MemRead(a, 2)`: big-endian, the byte at the lowest offset is the most significant (R40). -/
def Memory.read16 (m : Memory) (a : Nat) : Option (BitVec 16) :=
  match m.read a, m.read (a + 1) with
  | some b1, some b0 => some (b1 ++ b0)
  | _, _ => none

/-- `MemRead(a, 4)`, big-endian (R40). -/
def Memory.read32 (m : Memory) (a : Nat) : Option (BitVec 32) :=
  match m.read16 a, m.read16 (a + 2) with
  | some h1, some h0 => some (h1 ++ h0)
  | _, _ => none

/-- `MemWrite(a, 2, v)`, the inverse of `MemRead(a, 2)` (R10, R40). -/
def Memory.write16 (m : Memory) (a : Nat) (v : BitVec 16) : Memory :=
  (m.write a (v.extractLsb' 8 8)).write (a + 1) (v.extractLsb' 0 8)

/-- `MemWrite(a, 4, v)`, the inverse of `MemRead(a, 4)` (R10, R40). -/
def Memory.write32 (m : Memory) (a : Nat) (v : BitVec 32) : Memory :=
  (m.write16 a (v.extractLsb' 16 16)).write16 (a + 2) (v.extractLsb' 0 16)

end Sys2Proof.Machine
end

