-- ==== Sys2Proof/Machine/State.lean ====
section
/-! DEFINITION. The architectural state of the block (spec/10_state.md R21) as plain data, the response a command leaves
(spec/30_encoding.md R70), the ways a step can stop, and the state after reset (R36, spec/70_reset_and_hazards.md
R160). -/

namespace Sys2Proof.Machine

/-! ### Codes -/

/-- The status of a response (spec/60_exceptions.md R141). Codes 0x09 to 0xFF are never produced. -/
inductive Status where
  | ok | errIllegal | errState | errSlotCount | errSize | errRange | errCap | errAddr | errLen
  deriving DecidableEq, Repr

/-- The result of validation (R145). -/
inductive Validation where
  | none | rootLayerInvalid | frameLayerInvalid | dmpLayerInvalid
  deriving DecidableEq, Repr

/-- The class CLASSIFY gives a packet (R146). -/
inductive PacketClass where
  | accepted | outOfOrder | invalid
  deriving DecidableEq, Repr

/-- The values of PSTATE (spec/10_state.md R24). Value 3 never occurs. -/
inductive PState where
  | uninit | initialized | parsed
  deriving DecidableEq, Repr

/-! ### The 20 field registers (R26) -/

/-- Registers of the Root Layer, bytes 0 to 37 (R26, spec/20_memory.md R43). -/
structure RootRegs where
  pre : BitVec 16
  post : BitVec 16
  pid : Vector Byte 12
  rflen : BitVec 16
  rvec : BitVec 32
  cid : Vector Byte 16
  deriving DecidableEq, Repr

/-- Registers of the Framing Layer, bytes 38 to 114 (R26, R44). -/
structure FrameRegs where
  fflen : BitVec 16
  fvec : BitVec 32
  name : Vector Byte 64
  prio : BitVec 8
  rsvd : BitVec 16
  seq : BitVec 8
  opts : BitVec 8
  univ : BitVec 16
  deriving DecidableEq, Repr

/-- Registers of the DMP Layer, bytes 115 to 124 (R26, R45). -/
structure DmpRegs where
  dflen : BitVec 16
  dvec : BitVec 8
  dtype : BitVec 8
  faddr : BitVec 16
  ainc : BitVec 16
  pvc : BitVec 16
  deriving DecidableEq, Repr

/-- The register file. -/
structure FieldRegs where
  root : RootRegs
  frame : FrameRegs
  dmp : DmpRegs
  deriving DecidableEq, Repr

/-- PSTATE together with the field registers. In UNINIT there is no packet and the registers "hold no value" (R29), so
that state carries none; in INITIALIZED and PARSED all 20 hold a value. Nothing else is optional about them. -/
inductive Lifecycle where
  | uninit
  | initialized (f : FieldRegs)
  | parsed (f : FieldRegs)
  deriving DecidableEq, Repr

/-! ### The response (R70) -/

/-- "a triple (status, value, data)" (R70). -/
structure Response where
  status : Status
  value : BitVec 32
  data : List Byte
  deriving DecidableEq, Repr

/-! ### The state -/

/-- The block and its command port. `life`, `len`, `buf` and `trk` are the whole architectural state of R21. `cfg` holds
the parameters of R8, which no step changes (log entry 2). `cmds` and `resp` are the host's side of the port: the commands
the host will present, in order (R20, R33), and the last response (R70); no command reads either (log entry 1). -/
structure State where
  /-- The parameters BUF_CAP, DEFAULT_UNIVERSE and TRK_PRESET (R8). -/
  cfg : Config.Params
  /-- PSTATE and the 20 field registers (R24, R26, R29). -/
  life : Lifecycle
  /-- LEN, the length of the current packet (R23). -/
  len : BitVec 16
  /-- BUF, by address (R22). -/
  buf : Memory
  /-- TRK, by universe number; unlisted is `none`, listed with `v` is `some v` (R30). -/
  trk : Memory
  /-- Commands the host has yet to be answered, the next one first. -/
  cmds : List Command
  /-- The response to the last command, none before the first. -/
  resp : Option Response
  deriving DecidableEq, Repr

/-- PSTATE (R24). -/
def State.pstate (s : State) : PState :=
  match s.life with
  | .uninit => .uninit
  | .initialized _ => .initialized
  | .parsed _ => .parsed

/-- The field registers, where they hold a value (R29). -/
def State.fieldRegs (s : State) : Option FieldRegs :=
  match s.life with
  | .uninit => none
  | .initialized f => some f
  | .parsed f => some f

/-- `NSLOTS = LEN - 126` (R37), 0 where no packet exists. -/
def State.nslots (s : State) : Nat := s.len.toNat - 126

/-! ### How a step can stop -/

/-- The machine stops with a fault. -/
inductive Fault where
  /-- Raised by `orUnwritten`: a command would use a buffer byte that nothing has written. Safe: it stops where the
  hardware holds some unspecified byte (spec/10_state.md R22, R36). In a state that meets `State.Inv`, every state a run
  reaches among them, no step raises it. -/
  | bufferByteUnwritten
  deriving DecidableEq, Repr

/-- The model gives the situation no meaning. -/
inductive Refusal where
  /-- Raised by `exec` for an instruction it has no meaning for yet; no arm does. Safe. -/
  | notModelled (mnemonic : String)
  /-- Raised by `reject`: the pair (W, P) has a payload of another length than W announces, which "is not a command and
  the block has no behaviour for it (a model refuses it)" (spec/30_encoding.md R64). Safe. -/
  | payloadMismatch
  deriving DecidableEq, Repr

/-! ### Reset -/

/-- The state after reset with the parameters `p` (R36, R160): UNINIT, LEN 0, no buffer byte with a value, no register
with a value, the tracker loaded from TRK_PRESET. -/
def State.resetWith (p : Config.Params) : State where
  cfg := p
  life := .uninit
  len := 0
  buf := []
  trk := p.trkPreset
  cmds := []
  resp := none

/-- The state after reset with the default parameters of R8. -/
def State.reset : State := State.resetWith Config.Params.default

end Sys2Proof.Machine
end

