-- ==== Sys2Proof/Machine/Ops.lean ====
section
/-! DEFINITION. The named operations every meaning is written from: codes, single updates of the state, the response and
the error response (spec/00_scope.md R10, spec/60_exceptions.md R141 to R150), the state test (R143), the header parser
(spec/40_packet.md R84), and taking the next command from the port. -/

namespace Sys2Proof.Machine

/-- What a meaning answers. -/
abbrev Result := Host.Outcome State Fault Refusal

/-! ### Codes -/

/-- The status code of R141. -/
def Status.code : Status → BitVec 8
  | .ok => 0x00
  | .errIllegal => 0x01
  | .errState => 0x02
  | .errSlotCount => 0x03
  | .errSize => 0x04
  | .errRange => 0x05
  | .errCap => 0x06
  | .errAddr => 0x07
  | .errLen => 0x08

/-- The validation code of R145. -/
def Validation.code : Validation → Nat
  | .none => 0
  | .rootLayerInvalid => 1
  | .frameLayerInvalid => 2
  | .dmpLayerInvalid => 3

/-- The class code of R146. -/
def PacketClass.code : PacketClass → Nat
  | .accepted => 0
  | .outOfOrder => 1
  | .invalid => 2

/-- The 2-bit code of PSTATE (spec/10_state.md R24). -/
def PState.code : PState → BitVec 2
  | .uninit => 0
  | .initialized => 1
  | .parsed => 2

/-! ### Single updates of the state -/

/-- Leave a response on the port. -/
def State.setResp (r : Response) (s : State) : State := { s with resp := some r }

/-- Replace the buffer's contents. -/
def State.setBuf (m : Memory) (s : State) : State := { s with buf := m }

/-- `TRK[u] <- some v` (R30). -/
def State.setTrk (u : BitVec 16) (v : Byte) (s : State) : State := { s with trk := s.trk.write u.toNat v }

/-- `TRK[u]` (R30). -/
def State.trkAt (s : State) (u : BitVec 16) : Option Byte := s.trk.read u.toNat

/-- The lifecycle state with its registers loaded anew; PSTATE keeps its value, and UNINIT has no registers (R25, R29). -/
def Lifecycle.withRegs (f : FieldRegs) : Lifecycle → Lifecycle
  | .uninit => .uninit
  | .initialized _ => .initialized f
  | .parsed _ => .parsed f

/-- Load the field registers (spec/10_state.md R28). -/
def State.setRegs (f : FieldRegs) (s : State) : State := { s with life := s.life.withRegs f }

/-- A new packet replaces the current one: its lifecycle state with its registers, its length and its buffer (R25). -/
def State.newPacket (l : Lifecycle) (len : BitVec 16) (m : Memory) (s : State) : State :=
  { s with life := l, len := len, buf := m }

/-- Take the pending commands to be `cs`. -/
def State.setCmds (cs : List Command) (s : State) : State := { s with cmds := cs }

/-! ### Ending a command -/

/-- `respond(st, val, dat)` (R10, R70). -/
def respond (st : Status) (val : BitVec 32) (dat : List Byte) (s : State) : Result :=
  .next (s.setResp ⟨st, val, dat⟩)

/-- `raise E`: the block's exception. It is `respond(E, 0, empty)` "with every piece of state left as it was" (R10,
R141, R150): nothing is saved, control goes nowhere, and there is no return (R151). -/
def raise (e : Status) (s : State) : Result := respond e 0 [] s

/-- Use a value made of buffer bytes, stopping where one of them was never written (log entry 3). -/
def orUnwritten {α : Type} (o : Option α) (k : α → Result) : Result :=
  match o with
  | some x => k x
  | none => .fault .bufferByteUnwritten

/-- `if PSTATE = UNINIT: raise ERR_STATE` (R143, R148), and then the rest of the command with the field registers. -/
def withRegs (s : State) (k : FieldRegs → Result) : Result :=
  match s.life with
  | .uninit => raise .errState s
  | .initialized f => k f
  | .parsed f => k f

/-- One command after another: the second starts from the state the first leaves, whatever the first answered ("The
command after a failed one is performed as if the failed one had not been issued", R151). -/
def andThen (r : Result) (k : State → Result) : Result :=
  match r with
  | .next t => k t
  | .fault e => .fault e
  | .refused e => .refused e

/-- The response a command left, none where it stopped the machine. -/
def answer (r : Result) : Option Response :=
  match r with
  | .next t => t.resp
  | .fault _ => none
  | .refused _ => none

/-! ### The header parser (R84) -/

/-- What `ParseRoot()` loads (R84). -/
def parseRoot (m : Memory) : Option RootRegs := do
  let pre ← m.read16 0
  let post ← m.read16 2
  let pid ← m.readVec 4 12
  let rflen ← m.read16 16
  let rvec ← m.read32 18
  let cid ← m.readVec 22 16
  return { pre, post, pid, rflen, rvec, cid }

/-- What `ParseFrame()` loads (R84). -/
def parseFrame (m : Memory) : Option FrameRegs := do
  let fflen ← m.read16 38
  let fvec ← m.read32 40
  let name ← m.readVec 44 64
  let prio ← m.read 108
  let rsvd ← m.read16 109
  let seq ← m.read 111
  let opts ← m.read 112
  let univ ← m.read16 113
  return { fflen, fvec, name, prio, rsvd, seq, opts, univ }

/-- What `ParseDMP()` loads (R84). -/
def parseDmp (m : Memory) : Option DmpRegs := do
  let dflen ← m.read16 115
  let dvec ← m.read 117
  let dtype ← m.read 118
  let faddr ← m.read16 119
  let ainc ← m.read16 121
  let pvc ← m.read16 123
  return { dflen, dvec, dtype, faddr, ainc, pvc }

/-- `ParseRoot(); ParseFrame(); ParseDMP()` (R84). -/
def parseAll (m : Memory) : Option FieldRegs := do
  let root ← parseRoot m
  let frame ← parseFrame m
  let dmp ← parseDmp m
  return { root, frame, dmp }

/-- `ParseRoot()` and the response (OK, 0, empty) of a mutator (R130). `f` holds the registers before. -/
def rederiveRoot (f : FieldRegs) (s : State) : Result :=
  orUnwritten (parseRoot s.buf) fun r => respond .ok 0 [] (s.setRegs { f with root := r })

/-- `ParseFrame()` and the response (OK, `val`, empty) of a mutator or of INCSEQ (R116, R130). -/
def rederiveFrame (f : FieldRegs) (val : BitVec 32) (s : State) : Result :=
  orUnwritten (parseFrame s.buf) fun r => respond .ok val [] (s.setRegs { f with frame := r })

/-- `ParseDMP()` and the response (OK, 0, empty) of a mutator (R130). -/
def rederiveDmp (f : FieldRegs) (s : State) : Result :=
  orUnwritten (parseDmp s.buf) fun r => respond .ok 0 [] (s.setRegs { f with dmp := r })

/-! ### The command port -/

/-- The next command of the host and the state without it: "it takes one command, performs it completely, returns one
response, and only then takes the next" (R20). -/
def fetch (s : State) : Option (Command × State) :=
  match s.cmds with
  | [] => none
  | c :: rest => some (c, s.setCmds rest)

/-- "with no command pending, no state changes" (R20, R155). -/
def idle (s : State) : Result := .next s

/-- A pair (W, P) that is no command of the table. A payload of another length is refused (R64); an illegal word is
consumed with its payload and answered ERR_ILLEGAL (R69, R142). -/
def reject (e : DecodeError) (s : State) : Result :=
  match e with
  | .payloadMismatch => .refused .payloadMismatch
  | .noSuchOpcode => raise .errIllegal s
  | .reservedBits => raise .errIllegal s
  | .reservedFieldId => raise .errIllegal s

end Sys2Proof.Machine
end

