-- ==== Sys2Proof/Machine/Operands.lean ====
section
/-! DEFINITION. What the commands ask of their operands and make of their payloads: the ranges of spec/60_exceptions.md
R144, the padded name of spec/44_field_write.md R132, the clamped copy of R137, the freshly built buffer of
spec/40_packet.md R81, and the register a field id names (spec/43_field_read.md R120). -/

namespace Sys2Proof.Machine

/-- INIT's test "n < 1 or n > 512", negated (R81, R144). -/
def slotCountLegal (n : BitVec 16) : Bool := decide (1 ≤ n.toNat ∧ n.toNat ≤ 512)

/-- SETUNIV's test "imm16 < 1 or imm16 > 63999", negated (R136, R144). -/
def universeLegal (u : BitVec 16) : Bool := decide (1 ≤ u.toNat ∧ u.toNat ≤ 63999)

/-- The ACN packet identifier: the ASCII text ASC-E1.17 and three NULs (spec/20_memory.md R48). -/
def magic : Vector Byte 12 :=
  #v[0x41, 0x53, 0x43, 0x2D, 0x45, 0x31, 0x2E, 0x31, 0x37, 0x00, 0x00, 0x00]

/-- The tag of a flength field with a byte count (R46). -/
def flength (count : Nat) : BitVec 16 := BitVec.ofNat 16 (0x7000 + count)

/-- INIT's writes to the DMP Layer, bytes 115 to L-1 (R81). -/
def buildDmp (n : Nat) (m : Memory) : Memory :=
  let m := m.write16 115 (flength (11 + n))
  let m := m.write 117 0x02
  let m := m.write 118 0xA1
  let m := m.write16 119 0x0000
  let m := m.write16 121 0x0001
  m.write16 123 (BitVec.ofNat 16 (n + 1))

/-- INIT's writes to the Framing Layer, bytes 38 to 114 (R81). -/
def buildFrame (n : Nat) (defaultUniverse : BitVec 16) (m : Memory) : Memory :=
  let m := m.write16 38 (flength (88 + n))
  let m := m.write32 40 0x00000002
  let m := m.write 108 100
  let m := m.write 111 0
  m.write16 113 defaultUniverse

/-- INIT's writes to the Root Layer, bytes 0 to 37 (R81). -/
def buildRoot (n : Nat) (m : Memory) : Memory :=
  let m := m.write16 0 0x0010
  let m := m.write16 2 0x0000
  let m := m.writeBytes 4 magic.toList
  let m := m.write16 16 (flength (110 + n))
  m.write32 18 0x00000004

/-- The buffer INIT n leaves: fresh and zeroed, then the DMP, Framing and Root Layers (R81). -/
def builtBuffer (n : Nat) (defaultUniverse : BitVec 16) : Memory :=
  buildRoot n (buildFrame n defaultUniverse (buildDmp n (Memory.ofBytes 0 (List.replicate (126 + n) 0x00))))

/-- SETNAME's 64 bytes: the first min(len16, 64) of the payload, then zeros (R132). -/
def paddedName (p : List Byte) : List Byte := p.take 64 ++ List.replicate (64 - p.length) 0x00

/-- SETSLOTS's `k = max(0, min(len16, F[PVC] - 1, LEN - 126))`, over the integers (R137). -/
def slotCopyCount (len16 : Nat) (pvc : BitVec 16) (len : BitVec 16) : Nat :=
  (max 0 (min (len16 : Int) (min ((pvc.toNat : Int) - 1) ((len.toNat : Int) - 126)))).toNat

/-- The field register a GETFLD field id names, zero-extended (R120). -/
def fieldValue (f : FieldRegs) : FieldId → BitVec 32
  | .pre => f.root.pre.setWidth 32
  | .post => f.root.post.setWidth 32
  | .rflen => f.root.rflen.setWidth 32
  | .rvec => f.root.rvec
  | .fflen => f.frame.fflen.setWidth 32
  | .fvec => f.frame.fvec
  | .prio => f.frame.prio.setWidth 32
  | .rsvd => f.frame.rsvd.setWidth 32
  | .seq => f.frame.seq.setWidth 32
  | .opts => f.frame.opts.setWidth 32
  | .univ => f.frame.univ.setWidth 32
  | .dflen => f.dmp.dflen.setWidth 32
  | .dvec => f.dmp.dvec.setWidth 32
  | .dtype => f.dmp.dtype.setWidth 32
  | .faddr => f.dmp.faddr.setWidth 32
  | .ainc => f.dmp.ainc.setWidth 32
  | .pvc => f.dmp.pvc.setWidth 32

end Sys2Proof.Machine
end

