-- ==== Sys2Proof/Machine/Flags.lean ====
section
/-! DEFINITION. The block has no flags and no condition codes (spec/10_state.md R32). What it has in their place are the
yes-or-no judgements its commands answer with: the three layer predicates and their order (spec/41_validate.md R101 to
R104), the discard window (spec/42_sequence.md R112), and the bits of the options byte (spec/20_memory.md R47); with them
the 8-bit increment (R116, R117). -/

namespace Sys2Proof.Machine

/-- `RootValid` (R101). -/
def rootValid (f : FieldRegs) : Bool := decide (f.root.pid = magic) && decide (f.root.rvec = 0x00000004)

/-- `FrameValid` (R102). -/
def frameValid (f : FieldRegs) : Bool := decide (f.frame.fvec = 0x00000002)

/-- `DMPValid` (R103). -/
def dmpValid (f : FieldRegs) : Bool :=
  decide (f.dmp.dvec = 0x02) && decide (f.dmp.dtype = 0xA1) && decide (f.dmp.faddr = 0x0000) &&
    decide (f.dmp.ainc = 0x0001)

/-- `Validate()`: the first invalid layer, root first, then frame, then DMP (R104). -/
def validation (f : FieldRegs) : Validation :=
  if !rootValid f then .rootLayerInvalid
  else if !frameValid f then .frameLayerInvalid
  else if !dmpValid f then .dmpLayerInvalid
  else .none

/-- `ShouldDiscard(s, l)`: the exact integer difference lies in -19 to 0, with no wrap (R112, R117). -/
def shouldDiscard (s l : Byte) : Bool :=
  let diff : Int := (s.toNat : Int) - (l.toNat : Int)
  decide (-20 < diff ∧ diff ≤ 0)

/-- The class of a valid packet whose sequence number is `s`, given the universe's tracker entry (R113). -/
def sequenceClass (entry : Option Byte) (s : Byte) : PacketClass :=
  match entry with
  | none => .accepted
  | some l => if shouldDiscard s l then .outOfOrder else .accepted

/-- `(F[SEQ] + 1) mod 256` (R116, R117). -/
def nextSequence (s : Byte) : Byte := BitVec.ofNat 8 ((s.toNat + 1) % 256)

/-- `OPTS[bit]`, bit 0 the least significant (R47, R126). -/
def optionBit (opts : Byte) (bit : BitVec 3) : Bool := opts.getLsbD bit.toNat

/-- SETOPT's new options byte: `m = 2^bit`, or-ed in, or and-ed out with `0xFF - m` (R135). -/
def optionSet (opts : Byte) (bit : BitVec 3) (on : Bool) : Byte :=
  let m := BitVec.ofNat 8 (2 ^ bit.toNat)
  if on then opts ||| m else opts &&& (0xFF - m)

end Sys2Proof.Machine
end

