-- ==== Sys2Proof/Machine/FieldRead.lean ====
section
/-! DEFINITION. Field read commands (spec/43_field_read.md): GETFLD, GETCID, GETNAME, GETPRIO, GETSEQ, GETOPT, GETUNIV,
GETSLOTS, GETPID. None writes any state (R129); all but GETSLOTS read field registers. -/

namespace Sys2Proof.Machine

/-- GETFLD fid (R120). -/
def execGetfld (fid : FieldId) (s : State) : Result :=
  withRegs s fun f => respond .ok (fieldValue f fid) [] s

/-- GETCID (R122): the 16 bytes of CID. -/
def execGetcid (s : State) : Result :=
  withRegs s fun f => respond .ok 0 f.root.cid.toList s

/-- GETNAME (R123): all 64 bytes of NAME, padding included. -/
def execGetname (s : State) : Result :=
  withRegs s fun f => respond .ok 0 f.frame.name.toList s

/-- GETPRIO (R124). -/
def execGetprio (s : State) : Result :=
  withRegs s fun f => respond .ok (f.frame.prio.setWidth 32) [] s

/-- GETSEQ (R125). -/
def execGetseq (s : State) : Result :=
  withRegs s fun f => respond .ok (f.frame.seq.setWidth 32) [] s

/-- GETOPT bit (R126). -/
def execGetopt (bit : BitVec 3) (s : State) : Result :=
  withRegs s fun f => respond .ok (if optionBit f.frame.opts bit then 1 else 0) [] s

/-- GETUNIV (R127). -/
def execGetuniv (s : State) : Result :=
  withRegs s fun f => respond .ok (f.frame.univ.setWidth 32) [] s

/-- GETSLOTS (R128): NSLOTS, and the slots from the buffer. -/
def execGetslots (s : State) : Result :=
  withRegs s fun _ =>
    orUnwritten (s.buf.readBytes 126 s.nslots) fun d => respond .ok (BitVec.ofNat 32 s.nslots) d s

/-- GETPID (R121): the 12 bytes of PID. -/
def execGetpid (s : State) : Result :=
  withRegs s fun f => respond .ok 0 f.root.pid.toList s

end Sys2Proof.Machine
end

