-- ==== Sys2Proof/Machine/FieldWrite.lean ====
section
/-! DEFINITION. Field write commands (spec/44_field_write.md): SETCID, SETNAME, SETPRIO, SETSEQ, SETOPT, SETUNIV,
SETSLOTS. Each writes the buffer at its field's offsets and re-derives the registers of the one layer that owns the field
(R130). -/

namespace Sys2Proof.Machine

/-- SETCID <16 bytes> (R131). -/
def execSetcid (p : List Byte) (s : State) : Result :=
  withRegs s fun f =>
    if p.length ≠ 16 then raise .errLen s
    else rederiveRoot f (s.setBuf (s.buf.writeBytes 22 p))

/-- SETNAME <bytes> (R132). -/
def execSetname (p : List Byte) (s : State) : Result :=
  withRegs s fun f => rederiveFrame f 0 (s.setBuf (s.buf.writeBytes 44 (paddedName p)))

/-- SETPRIO p (R133). -/
def execSetprio (p : BitVec 8) (s : State) : Result :=
  withRegs s fun f => rederiveFrame f 0 (s.setBuf (s.buf.write 108 p))

/-- SETSEQ n (R134). -/
def execSetseq (n : BitVec 8) (s : State) : Result :=
  withRegs s fun f => rederiveFrame f 0 (s.setBuf (s.buf.write 111 n))

/-- SETOPT bit, on (R135): the old value is the OPTS register. -/
def execSetopt (bit : BitVec 3) (on : Bool) (s : State) : Result :=
  withRegs s fun f => rederiveFrame f 0 (s.setBuf (s.buf.write 112 (optionSet f.frame.opts bit on)))

/-- SETUNIV u (R136). -/
def execSetuniv (u : BitVec 16) (s : State) : Result :=
  withRegs s fun f =>
    if universeLegal u then rederiveFrame f 0 (s.setBuf (s.buf.write16 113 u)) else raise .errRange s

/-- SETSLOTS <bytes> (R137): copies up to the clamped count, and the start code is untouched. -/
def execSetslots (p : List Byte) (s : State) : Result :=
  withRegs s fun f =>
    rederiveDmp f (s.setBuf (s.buf.writeBytes 126 (p.take (slotCopyCount p.length f.dmp.pvc s.len))))

end Sys2Proof.Machine
end

