-- ==== Sys2Proof/Machine/Packet.lean ====
section
/-! DEFINITION. Packet construction, parsing and buffer access (spec/40_packet.md): INIT, LOAD, PARSE, GETSTATE, BUFRD,
BUFWR. None touches the tracker (R80). -/

namespace Sys2Proof.Machine

/-- INIT n (R81). It has no state test. -/
def execInit (n : BitVec 16) (s : State) : Result :=
  if slotCountLegal n then
    let m := builtBuffer n.toNat s.cfg.defaultUniverse
    let len := BitVec.ofNat 16 (126 + n.toNat)
    orUnwritten (parseAll m) fun f =>
      respond .ok (BitVec.ofNat 32 (126 + n.toNat)) [] (s.newPacket (.initialized f) len m)
  else raise .errSlotCount s

/-- LOAD <bytes> (R83). It has no state test and checks nothing but the length. -/
def execLoad (p : List Byte) (s : State) : Result :=
  if p.length < 126 then raise .errSize s
  else if s.cfg.bufCap < p.length then raise .errCap s
  else
    let m := Memory.ofBytes 0 p
    let len := BitVec.ofNat 16 p.length
    orUnwritten (parseAll m) fun f =>
      respond .ok (BitVec.ofNat 32 p.length) [] (s.newPacket (.parsed f) len m)

/-- PARSE (R85): all three layers, from the buffer as it stands. PSTATE keeps its value. -/
def execParse (s : State) : Result :=
  withRegs s fun _ => orUnwritten (parseAll s.buf) fun f => respond .ok 0 [] (s.setRegs f)

/-- GETSTATE (R86): `PSTATE * 65536 + LEN`, accepted in every state. -/
def execGetstate (s : State) : Result :=
  respond .ok (BitVec.ofNat 32 (s.pstate.code.toNat * 65536 + s.len.toNat)) [] s

/-- BUFRD addr (R88): the buffer, never a register. -/
def execBufrd (addr : BitVec 16) (s : State) : Result :=
  withRegs s fun _ =>
    if s.len.toNat ≤ addr.toNat then raise .errAddr s
    else orUnwritten (s.buf.read addr.toNat) fun b => respond .ok (b.setWidth 32) [] s

/-- BUFWR addr, byte (R90): stores the byte, and no register changes (spec/10_state.md R28). -/
def execBufwr (addr : BitVec 16) (data : BitVec 8) (s : State) : Result :=
  withRegs s fun _ =>
    if s.len.toNat ≤ addr.toNat then raise .errAddr s
    else respond .ok 0 [] (s.setBuf (s.buf.write addr.toNat data))

end Sys2Proof.Machine
end

