-- ==== Sys2Proof/Machine/Sequence.lean ====
section
/-! DEFINITION. Sequence-number commands and the tracker (spec/42_sequence.md): DISCARD, CLASSIFY, INCSEQ. All read the
SEQ register, not the buffer (R110). -/

namespace Sys2Proof.Machine

/-- DISCARD last (R111): 1 when the packet is to be discarded. The tracker is not touched. -/
def execDiscard (last : BitVec 8) (s : State) : Result :=
  withRegs s fun f => respond .ok (if shouldDiscard f.frame.seq last then 1 else 0) [] s

/-- The value of CLASSIFY: class + 256 * validation code (spec/30_encoding.md R70, spec/60_exceptions.md R146). -/
def classifyValue (c : PacketClass) (v : Validation) : BitVec 32 := BitVec.ofNat 32 (c.code + 256 * v.code)

/-- CLASSIFY (R113): validation first; then the entry of the packet's universe, written exactly when the class is
ACCEPTED. -/
def execClassify (s : State) : Result :=
  withRegs s fun f =>
    if validation f ≠ .none then respond .ok (classifyValue .invalid (validation f)) [] s
    else
      match sequenceClass (s.trkAt f.frame.univ) f.frame.seq with
      | .accepted => respond .ok (classifyValue .accepted .none) [] (s.setTrk f.frame.univ f.frame.seq)
      | c => respond .ok (classifyValue c .none) [] s

/-- INCSEQ (R116): the next number comes from the SEQ register, goes to BUF[111], and the Framing Layer is re-derived. -/
def execIncseq (s : State) : Result :=
  withRegs s fun f =>
    let next := nextSequence f.frame.seq
    rederiveFrame f (next.setWidth 32) (s.setBuf (s.buf.write 111 next))

end Sys2Proof.Machine
end

