-- ==== Sys2Proof/Machine/Validate.lean ====
section
/-! DEFINITION. The frame validator's command (spec/41_validate.md): VALIDATE. -/

namespace Sys2Proof.Machine

/-- VALIDATE (R104): a malformed packet is not an error, its code is the value. -/
def execValidate (s : State) : Result :=
  withRegs s fun f => respond .ok (BitVec.ofNat 32 (validation f).code) [] s

end Sys2Proof.Machine
end

