-- ==== Sys2Proof/Machine/Dispatch.lean ====
section
/-! DEFINITION. One arm per command: its meaning. -/

namespace Sys2Proof.Machine

def exec (i : Instr) (s : State) : Host.Outcome State Fault Refusal :=
  match i with
  | .init n => Sys2Proof.Machine.execInit n s
  | .load p => Sys2Proof.Machine.execLoad p s
  | .parse => Sys2Proof.Machine.execParse s
  | .getstate => Sys2Proof.Machine.execGetstate s
  | .bufrd a => Sys2Proof.Machine.execBufrd a s
  | .bufwr a b => Sys2Proof.Machine.execBufwr a b s
  | .validate => Sys2Proof.Machine.execValidate s
  | .discard l => Sys2Proof.Machine.execDiscard l s
  | .classify => Sys2Proof.Machine.execClassify s
  | .incseq => Sys2Proof.Machine.execIncseq s
  | .getfld f => Sys2Proof.Machine.execGetfld f s
  | .getcid => Sys2Proof.Machine.execGetcid s
  | .getname => Sys2Proof.Machine.execGetname s
  | .getprio => Sys2Proof.Machine.execGetprio s
  | .getseq => Sys2Proof.Machine.execGetseq s
  | .getopt b => Sys2Proof.Machine.execGetopt b s
  | .getuniv => Sys2Proof.Machine.execGetuniv s
  | .getslots => Sys2Proof.Machine.execGetslots s
  | .getpid => Sys2Proof.Machine.execGetpid s
  | .setcid p => Sys2Proof.Machine.execSetcid p s
  | .setname p => Sys2Proof.Machine.execSetname p s
  | .setprio p => Sys2Proof.Machine.execSetprio p s
  | .setseq n => Sys2Proof.Machine.execSetseq n s
  | .setopt b on => Sys2Proof.Machine.execSetopt b on s
  | .setuniv u => Sys2Proof.Machine.execSetuniv u s
  | .setslots p => Sys2Proof.Machine.execSetslots p s

end Sys2Proof.Machine
end

