-- ==== Sys2Proof/Machine/Step.lean ====
section
/-! DEFINITION. One step of the block: it performs the next command of the host, or is idle (spec/10_state.md R20). -/

namespace Sys2Proof.Machine

/-- One step. With no command pending the block is idle; else it takes the next pair (W, P), decodes it, and performs the
command or answers the illegal word (R20, spec/30_encoding.md R69). -/
def step (s : State) : Host.Outcome State Fault Refusal :=
  match fetch s with
  | none => idle s
  | some (c, t) =>
    match decode c with
    | .ok i => exec i t
    | .error e => reject e t

/-- `s` with the instruction whose bits are `w` (numbered as spec/opcode_table.json numbers them) presented by the host
as its next command, before any other (log entry 1). -/
def State.withFetchWord (s : State) (nbits w : Nat) : State := s.setCmds (tableCommand nbits w :: s.cmds)

end Sys2Proof.Machine
end

