-- ==== Sys2Proof/Machine/Platform.lean ====
section
/-! DEFINITION. The two platform functions of spec/20_memory.md R57. They are not commands, the block has no state for
them, and no step uses them: a host computes them itself. -/

namespace Sys2Proof.Machine

/-- `mcast(u)`: the IPv4 multicast group of a universe, none for the range error (R57). -/
def multicastGroup (u : BitVec 16) : Option (Byte × Byte × Byte × Byte) :=
  if 1 ≤ u.toNat ∧ u.toNat ≤ 63999 then some (239, 255, u.extractLsb' 8 8, u.extractLsb' 0 8) else none

/-- "Default UDP port: 5568 (standard E1.31 port), used when the caller supplies none." (R57) -/
def udpPort (supplied : Option Nat) : Nat := supplied.getD 5568

end Sys2Proof.Machine
end

