-- ==== Sys2Proof/Machine/Pseudo.lean ====
section
/-! DEFINITION. The pseudo-commands of spec/30_encoding.md R76, each an abbreviation with a fixed expansion, and lists of
commands performed top to bottom (R75). They have no words of their own. -/

namespace Sys2Proof.Machine

/-- The pseudo-commands of R76. -/
inductive Pseudo where
  | setpreview (on : Bool)
  | setterm (on : Bool)
  | getpreview
  | getterm
  | getstart
  | setstart (b : Byte)
  | poke (addr : BitVec 16) (b : Byte)
  | recv (payload : List Byte)
  | sent
  deriving DecidableEq, Repr

/-- The commands a pseudo-command stands for (R76). RECV's second command is issued only when LOAD answered OK. -/
def expand : Pseudo → List Instr
  | .setpreview on => [.setopt 7 on]
  | .setterm on => [.setopt 6 on]
  | .getpreview => [.getopt 7]
  | .getterm => [.getopt 6]
  | .getstart => [.bufrd 125]
  | .setstart b => [.bufwr 125 b]
  | .poke a b => [.bufwr a b, .parse]
  | .recv p => [.load p, .classify]
  | .sent => [.incseq]

/-- A list of commands, top to bottom (R75). -/
def execAll : List Instr → State → Result
  | [], s => .next s
  | i :: is, s => andThen (exec i s) (execAll is)

/-- The command `i` when the one before it answered OK, else nothing more. -/
def ifOk (i : Instr) (s : State) : Result :=
  if s.resp.map Response.status = some .ok then exec i s else .next s

/-- What a host that issues a pseudo-command makes the block do (R76). -/
def execPseudo (q : Pseudo) (s : State) : Result :=
  match q with
  | .recv p => andThen (exec (.load p) s) (ifOk .classify)
  | q => execAll (expand q) s

end Sys2Proof.Machine
end

