-- ==== Sys2Proof/Safety.lean ====
section
/-! DEFINITION. The terms claims about the block are stated in: the invariant of the state, which registers are current,
the invariants of a built packet (spec/10_state.md R38), which bits of a word an operand is, what a frame keeps, and which
command reads which layer's registers (R26, R28, spec/70_reset_and_hazards.md R166). -/

namespace Sys2Proof.Machine

/-! ### The invariant of the state -/

/-- What holds of the state at reset and is kept by every step: parameters in their ranges (R8); the tracker a map of
16-bit universe numbers in its canonical form (R30); no packet in UNINIT, with LEN 0 (R23, R29); and in every other state
126 ≤ LEN ≤ BUF_CAP, with exactly the bytes 0 to LEN - 1 of the buffer written (R22, R23). -/
structure State.Inv (s : State) : Prop where
  cfgValid : s.cfg.valid = true
  trkCanonical : s.trk.wf = true
  trkKeys : ∀ c ∈ s.trk, c.1 < 65536
  noPacket : s.pstate = .uninit → s.len = 0 ∧ s.buf = []
  packetLen : s.pstate ≠ .uninit → 126 ≤ s.len.toNat ∧ s.len.toNat ≤ s.cfg.bufCap
  packetBytes : s.pstate ≠ .uninit → s.buf.map Prod.fst = List.range s.len.toNat

/-- The pending pair (W, P), if any, has the payload its word announces: the host's duty of R64 and R147. -/
def State.Framed (s : State) : Prop :=
  ∀ c rest, s.cmds = c :: rest → c.payload.length = payloadLenOf c.word

/-! ### Current registers (R28) -/

/-- Every Root Layer register equals the buffer bytes it copies. -/
def State.RootCurrent (s : State) : Prop := ∀ f, s.fieldRegs = some f → parseRoot s.buf = some f.root

/-- Every Framing Layer register equals the buffer bytes it copies. -/
def State.FrameCurrent (s : State) : Prop := ∀ f, s.fieldRegs = some f → parseFrame s.buf = some f.frame

/-- Every DMP Layer register equals the buffer bytes it copies. -/
def State.DmpCurrent (s : State) : Prop := ∀ f, s.fieldRegs = some f → parseDmp s.buf = some f.dmp

/-- Every register equals the buffer bytes it copies. -/
def State.Current (s : State) : Prop := s.RootCurrent ∧ s.FrameCurrent ∧ s.DmpCurrent

/-- The three layers of R42. -/
inductive Layer where
  | root | frame | dmp
  deriving DecidableEq, Repr

/-- The layer a buffer offset lies in (R42). -/
def layerAt (a : Nat) : Layer := if a ≤ 37 then .root else if a ≤ 114 then .frame else .dmp

/-- Every register of the layer equals the buffer bytes it copies. -/
def State.LayerCurrent (s : State) : Layer → Prop
  | .root => s.RootCurrent
  | .frame => s.FrameCurrent
  | .dmp => s.DmpCurrent

/-- Two register files hold the same in a layer. -/
def sameLayer (f g : FieldRegs) : Layer → Prop
  | .root => f.root = g.root
  | .frame => f.frame = g.frame
  | .dmp => f.dmp = g.dmp

/-- The layer of a scalar field register (R26). -/
def fieldLayer : FieldId → Layer
  | .pre => .root
  | .post => .root
  | .rflen => .root
  | .rvec => .root
  | .fflen => .frame
  | .fvec => .frame
  | .prio => .frame
  | .rsvd => .frame
  | .seq => .frame
  | .opts => .frame
  | .univ => .frame
  | .dflen => .dmp
  | .dvec => .dmp
  | .dtype => .dmp
  | .faddr => .dmp
  | .ainc => .dmp
  | .pvc => .dmp

/-- The layers whose registers a command reads, by the "read by" column of R26. -/
def layersRead : Instr → List Layer
  | .init _ => []
  | .load _ => []
  | .parse => []
  | .getstate => []
  | .bufrd _ => []
  | .bufwr _ _ => []
  | .validate => [.root, .frame, .dmp]
  | .discard _ => [.frame]
  | .classify => [.root, .frame, .dmp]
  | .incseq => [.frame]
  | .getfld fid => [fieldLayer fid]
  | .getcid => [.root]
  | .getname => [.frame]
  | .getprio => [.frame]
  | .getseq => [.frame]
  | .getopt _ => [.frame]
  | .getuniv => [.frame]
  | .getslots => []
  | .getpid => [.root]
  | .setcid _ => []
  | .setname _ => []
  | .setprio _ => []
  | .setseq _ => []
  | .setopt _ _ => [.frame]
  | .setuniv _ => []
  | .setslots _ => [.dmp]

/-! ### Kinds of command -/

/-- The commands accepted in every PSTATE: INIT, LOAD and GETSTATE (R80, R143). -/
def needsNoPacket : Instr → Bool
  | .init _ => true
  | .load _ => true
  | .parse => false
  | .getstate => true
  | .bufrd _ => false
  | .bufwr _ _ => false
  | .validate => false
  | .discard _ => false
  | .classify => false
  | .incseq => false
  | .getfld _ => false
  | .getcid => false
  | .getname => false
  | .getprio => false
  | .getseq => false
  | .getopt _ => false
  | .getuniv => false
  | .getslots => false
  | .getpid => false
  | .setcid _ => false
  | .setname _ => false
  | .setprio _ => false
  | .setseq _ => false
  | .setopt _ _ => false
  | .setuniv _ => false
  | .setslots _ => false

/-- The commands that write no state at all: GETSTATE, BUFRD, VALIDATE, DISCARD and the nine field readers (R86, R88,
R104, R111, R129). -/
def writesNothing : Instr → Bool
  | .init _ => false
  | .load _ => false
  | .parse => false
  | .getstate => true
  | .bufrd _ => true
  | .bufwr _ _ => false
  | .validate => true
  | .discard _ => true
  | .classify => false
  | .incseq => false
  | .getfld _ => true
  | .getcid => true
  | .getname => true
  | .getprio => true
  | .getseq => true
  | .getopt _ => true
  | .getuniv => true
  | .getslots => true
  | .getpid => true
  | .setcid _ => false
  | .setname _ => false
  | .setprio _ => false
  | .setseq _ => false
  | .setopt _ _ => false
  | .setuniv _ => false
  | .setslots _ => false

/-- The commands that answer from the field registers, PSTATE, LEN and TRK alone, and so never see a BUFWR that was not
parsed (R28, R166): GETSTATE, VALIDATE, DISCARD, CLASSIFY and the readers other than BUFRD and GETSLOTS. -/
def answersFromRegisters : Instr → Bool
  | .init _ => false
  | .load _ => false
  | .parse => false
  | .getstate => true
  | .bufrd _ => false
  | .bufwr _ _ => false
  | .validate => true
  | .discard _ => true
  | .classify => true
  | .incseq => false
  | .getfld _ => true
  | .getcid => true
  | .getname => true
  | .getprio => true
  | .getseq => true
  | .getopt _ => true
  | .getuniv => true
  | .getslots => false
  | .getpid => true
  | .setcid _ => false
  | .setname _ => false
  | .setprio _ => false
  | .setseq _ => false
  | .setopt _ _ => false
  | .setuniv _ => false
  | .setslots _ => false

/-- The nine field readers of spec/43_field_read.md (R129). -/
def isFieldReader : Instr → Bool
  | .init _ => false
  | .load _ => false
  | .parse => false
  | .getstate => false
  | .bufrd _ => false
  | .bufwr _ _ => false
  | .validate => false
  | .discard _ => false
  | .classify => false
  | .incseq => false
  | .getfld _ => true
  | .getcid => true
  | .getname => true
  | .getprio => true
  | .getseq => true
  | .getopt _ => true
  | .getuniv => true
  | .getslots => true
  | .getpid => true
  | .setcid _ => false
  | .setname _ => false
  | .setprio _ => false
  | .setseq _ => false
  | .setopt _ _ => false
  | .setuniv _ => false
  | .setslots _ => false

/-- The layer a mutator or INCSEQ writes and re-derives (R130), none for another command. -/
def editLayer : Instr → Option Layer
  | .init _ => none
  | .load _ => none
  | .parse => none
  | .getstate => none
  | .bufrd _ => none
  | .bufwr _ _ => none
  | .validate => none
  | .discard _ => none
  | .classify => none
  | .incseq => some .frame
  | .getfld _ => none
  | .getcid => none
  | .getname => none
  | .getprio => none
  | .getseq => none
  | .getopt _ => none
  | .getuniv => none
  | .getslots => none
  | .getpid => none
  | .setcid _ => some .root
  | .setname _ => some .frame
  | .setprio _ => some .frame
  | .setseq _ => some .frame
  | .setopt _ _ => some .frame
  | .setuniv _ => some .frame
  | .setslots _ => some .dmp

/-! ### Operands (spec/30_encoding.md R62) -/

/-- The registers of the field ids 0 to 16, in the order of their ids (R120, R26). -/
def scalarFields : List FieldId :=
  [.pre, .post, .rflen, .rvec, .fflen, .fvec, .prio, .rsvd, .seq, .opts, .univ, .dflen, .dvec, .dtype, .faddr, .ainc,
   .pvc]

/-- Every operand of a command is the unsigned field R62 names of the word `w`, and a payload is `p`, of the length
`len16` of `w`, where the format has one (R64). -/
def OperandsAre (w : Word) (p : List Byte) : Instr → Prop
  | .init n => n.toNat = w.toNat % 65536
  | .load q => q = p ∧ p.length = w.toNat % 65536
  | .parse => True
  | .getstate => True
  | .bufrd a => a.toNat = w.toNat / 256 % 65536
  | .bufwr a b => a.toNat = w.toNat / 256 % 65536 ∧ b.toNat = w.toNat % 256
  | .validate => True
  | .discard l => l.toNat = w.toNat % 256
  | .classify => True
  | .incseq => True
  | .getfld fid => scalarFields[w.toNat % 32]? = some fid
  | .getcid => True
  | .getname => True
  | .getprio => True
  | .getseq => True
  | .getopt b => b.toNat = w.toNat / 256 % 8
  | .getuniv => True
  | .getslots => True
  | .getpid => True
  | .setcid q => q = p ∧ p.length = w.toNat % 65536
  | .setname q => q = p ∧ p.length = w.toNat % 65536
  | .setprio v => v.toNat = w.toNat % 256
  | .setseq n => n.toNat = w.toNat % 256
  | .setopt b on => b.toNat = w.toNat / 256 % 8 ∧ (on = true ↔ w.toNat % 2 = 1)
  | .setuniv u => u.toNat = w.toNat % 65536
  | .setslots q => q = p ∧ p.length = w.toNat % 65536

/-! ### Frames -/

/-- The error response of a command that needs a packet, where none exists: nothing else changes (R143, R150). -/
def ErrStateWithoutPacket (i : Instr) : Prop :=
  ∀ s : State, s.pstate = .uninit → exec i s = .next (s.setResp ⟨.errState, 0, []⟩)

/-- Nothing but the response differs: parameters, PSTATE, every register, LEN, every buffer byte, every tracker entry and
the pending commands are as before. -/
structure OnlyResponse (s t : State) : Prop where
  cfg : t.cfg = s.cfg
  life : t.life = s.life
  len : t.len = s.len
  buf : ∀ a, t.buf.read a = s.buf.read a
  trk : ∀ u, t.trk.read u = s.trk.read u
  cmds : t.cmds = s.cmds

/-- What a mutator or INCSEQ keeps: parameters, PSTATE, LEN, every tracker entry, the pending commands, and every buffer
byte outside the `n` bytes from `a` on. -/
structure KeptByEdit (a n : Nat) (s t : State) : Prop where
  cfg : t.cfg = s.cfg
  pstate : t.pstate = s.pstate
  len : t.len = s.len
  trk : ∀ u, t.trk.read u = s.trk.read u
  cmds : t.cmds = s.cmds
  buf : ∀ x, x < a ∨ a + n ≤ x → t.buf.read x = s.buf.read x

/-! ### A built packet (R38) -/

/-- The packet satisfies everything R38 lists for a packet of `n` slots with the registers `f`: constants, computed
lengths, a legal universe, registers equal to the buffer, and a valid judgement. -/
structure State.Built (s : State) (n : Nat) (f : FieldRegs) : Prop where
  slots : 1 ≤ n ∧ n ≤ 512
  life : s.life = .initialized f
  len : s.len.toNat = 126 + n
  pre : f.root.pre = 0x0010
  post : f.root.post = 0x0000
  pid : f.root.pid = magic
  rflen : f.root.rflen.toNat = 0x7000 + 110 + n
  rvec : f.root.rvec = 4
  fflen : f.frame.fflen.toNat = 0x7000 + 88 + n
  fvec : f.frame.fvec = 2
  rsvd : f.frame.rsvd = 0
  univ : 1 ≤ f.frame.univ.toNat ∧ f.frame.univ.toNat ≤ 63999
  dflen : f.dmp.dflen.toNat = 0x7000 + 11 + n
  dvec : f.dmp.dvec = 0x02
  dtype : f.dmp.dtype = 0xA1
  faddr : f.dmp.faddr = 0
  ainc : f.dmp.ainc = 1
  pvc : f.dmp.pvc.toNat = n + 1
  current : parseAll s.buf = some f
  valid : validation f = .none

end Sys2Proof.Machine
end

