-- ==== Sys2Proof/Certificates/Slice0/Obligations.lean ====
section
/-! DEFINITION. The statements about the model, each formalising a rule of spec/ or resting on the sections it names. -/

open Sys2Proof Sys2Proof.Machine

/-! ### Encoding -/

/-- Every well-formed command's pair (W, P) decodes to that command, with every operand at every value (spec/30_encoding.md
sections 1 to 3). -/
def Obligations.DecodeOfEncode : Prop :=
  ∀ i : Instr, i.wellFormed = true → decode (encode i) = .ok i

/-- A pair that decodes is the encoding of the command it decodes to: no two words mean one command, and no bit is
dropped. -/
def Obligations.EncodeOfDecode : Prop :=
  ∀ (c : Command) (i : Instr), decode c = .ok i → i.wellFormed = true ∧ encode i = c

/-- A word decodes exactly when it selects a row of the opcode table (`W & mask = match`), GETFLD's field id being at most
16, and it decodes to that row's command (30_encoding.md section 3). -/
def Obligations.LegalWordsAreTheTableRows : Prop :=
  ∀ (w : Word) (p : List Byte),
    (∀ r ∈ opcodeTable, r.selects w = true → (r.mnemonic = "GETFLD" → (fidOf w).toNat ≤ 16) →
      ∃ i, decodeWord w p = .ok i ∧ i.mnemonic = r.mnemonic) ∧
    (∀ i, decodeWord w p = .ok i →
      ∃ r ∈ opcodeTable, r.mnemonic = i.mnemonic ∧ r.selects w = true ∧
        (r.mnemonic = "GETFLD" → (fidOf w).toNat ≤ 16))

/-- The worked encodings, legal and illegal (spec/30_encoding.md section 7). -/
def Obligations.WorkedEncodingsDecode : Prop :=
  decode ⟨0x03000000, []⟩ = .ok .parse ∧
  decode ⟨0x01000003, []⟩ = .ok (.init 3) ∧
  decode ⟨0x3600F9FF, []⟩ = .ok (.setuniv 63999) ∧
  decode ⟨0x180000FF, []⟩ = .ok (.discard 255) ∧
  decode ⟨0x33000064, []⟩ = .ok (.setprio 100) ∧
  (∀ p : List Byte, p.length = 129 → decode ⟨0x02000081, p⟩ = .ok (.load p)) ∧
  (∀ p : List Byte, p.length = 16 → decode ⟨0x31000010, p⟩ = .ok (.setcid p)) ∧
  decode ⟨0x35000701, []⟩ = .ok (.setopt 7 true) ∧
  decode ⟨0x35000600, []⟩ = .ok (.setopt 6 false) ∧
  decode ⟨0x25000700, []⟩ = .ok (.getopt 7) ∧
  decode ⟨0x09007503, []⟩ = .ok (.bufwr 117 0x03) ∧
  decode ⟨0x08007D00, []⟩ = .ok (.bufrd 125) ∧
  decode ⟨0x2000000A, []⟩ = .ok (.getfld .univ) ∧
  decode ⟨0x00000000, []⟩ = .error .noSuchOpcode ∧
  decode ⟨0xFFFFFFFF, []⟩ = .error .noSuchOpcode ∧
  decode ⟨0x01010003, []⟩ = .error .reservedBits ∧
  decode ⟨0x25000701, []⟩ = .error .reservedBits ∧
  decode ⟨0x20000011, []⟩ = .error .reservedFieldId ∧
  decode ⟨0x05000000, []⟩ = .error .noSuchOpcode

/-! ### A step -/

/-- With a decodable pair pending, a step takes it off the port and is exactly the command's meaning. -/
def Obligations.StepRunsTheDecodedCommand : Prop :=
  ∀ (s : State) (c : Command) (rest : List Command) (i : Instr),
    s.cmds = c :: rest → decode c = .ok i → step s = exec i (s.setCmds rest)

/-- The instruction that the opcode table's bits stand for is the one the next step runs when the host presents it. -/
def Obligations.PresentedWordRunsNext : Prop :=
  ∀ (s : State) (w : Nat) (i : Instr),
    decodeTableWord 32 w = some i → step (s.withFetchWord 32 w) = exec i s

/-- R69: a word that matches no row, or is GETFLD with a field id above 16, is consumed with its payload, changes no state,
and is answered ERR_ILLEGAL. -/
def Obligations.IllegalWordAnswersErrIllegal : Prop :=
  ∀ (s : State) (c : Command) (rest : List Command),
    s.cmds = c :: rest → c.payload.length = payloadLenOf c.word →
    (∀ r ∈ opcodeTable, r.selects c.word = true → r.mnemonic = "GETFLD" ∧ 16 < (fidOf c.word).toNat) →
    step s = .next ((s.setCmds rest).setResp ⟨.errIllegal, 0, []⟩)

/-- A pair whose payload has another length than its word announces is no command: the model refuses it. -/
def Obligations.MisframedPairIsRefused : Prop :=
  ∀ (s : State) (c : Command) (rest : List Command),
    s.cmds = c :: rest → c.payload.length ≠ payloadLenOf c.word → step s = .refused .payloadMismatch

/-- "with no command pending, no state changes". -/
def Obligations.IdleBlockKeepsAllState : Prop :=
  ∀ s : State, s.cmds = [] → step s = .next s

/-! ### Reset -/

/-- What reset leaves, for every choice of the parameters. That no byte of BUF has a value is the model's choice (log
entry 3). -/
def Obligations.ResetLeaves : Prop :=
  ∀ p : Config.Params, p.valid = true →
    (State.resetWith p).pstate = .uninit ∧ (State.resetWith p).len = 0 ∧
    (∀ a, (State.resetWith p).buf.read a = none) ∧ (State.resetWith p).fieldRegs = none ∧
    (∀ (u : BitVec 16) (v : Byte), (State.resetWith p).trkAt u = some v ↔ (u.toNat, v) ∈ p.trkPreset)

/-- Reset meets the invariant, for every choice of the parameters and for the default one. -/
def Obligations.ResetMeetsInvariant : Prop :=
  (∀ p : Config.Params, p.valid = true → (State.resetWith p).Inv) ∧ State.reset.Inv

/-! ### The invariant -/

/-- Every step from every state that meets the invariant leads to one that meets it. -/
def Obligations.StepKeepsInvariant : Prop :=
  ∀ s t : State, s.Inv → step s = .next t → t.Inv

/-- From a state that meets the invariant, with the pending pair framed as the host must frame it, a step neither faults
nor is refused, and a pending command is answered: the block cannot hang. -/
def Obligations.EveryCommandIsAnswered : Prop :=
  ∀ s : State, s.Inv → s.Framed →
    ∃ t, step s = .next t ∧ (s.cmds ≠ [] → t.resp.isSome = true ∧ t.cmds = s.cmds.tail)

/-! ### Errors -/

/-- R143: in UNINIT the field registers hold no value and LEN is 0, and every command but INIT, LOAD and GETSTATE answers
ERR_STATE and does nothing; in INITIALIZED and PARSED no command answers it. -/
def Obligations.ErrStateExactlyInUninit : Prop :=
  (∀ s : State, s.Inv → s.pstate = .uninit → s.fieldRegs = none ∧ s.len = 0) ∧
  (∀ i, needsNoPacket i = false → ErrStateWithoutPacket i) ∧
  (∀ (i : Instr) (s t : State) (r : Response),
    s.pstate ≠ .uninit → exec i s = .next t → t.resp = some r → r.status ≠ .errState)

/-- R150: a step that ends with a status other than OK changes nothing: apart from the response, and the pair it consumed,
the state is as before. -/
def Obligations.FailedCommandChangesNothing : Prop :=
  ∀ (s t : State) (c : Command) (rest : List Command) (r : Response),
    s.cmds = c :: rest → step s = .next t → t.resp = some r → r.status ≠ .ok →
    t = (s.setCmds rest).setResp r ∧ r.value = 0 ∧ r.data = []

/-- Each error status is answered only by the commands, only under the conditions, and with the number that
60_exceptions.md sections 2 and 4 give it; no number above 8 is answered. -/
def Obligations.ErrorsOnlyOnTheirConditions : Prop :=
  ∀ (i : Instr) (s t : State) (r : Response), exec i s = .next t → t.resp = some r →
    Status.ok.code = 0x00 ∧ Status.errIllegal.code = 0x01 ∧ r.status.code.toNat ≤ 8 ∧
    r.status ≠ .errIllegal ∧
    (r.status = .errState → r.status.code = 0x02 ∧ s.pstate = .uninit ∧ needsNoPacket i = false) ∧
    (r.status = .errSlotCount → r.status.code = 0x03 ∧ ∃ n, i = .init n ∧ (n.toNat = 0 ∨ 513 ≤ n.toNat)) ∧
    (r.status = .errSize → r.status.code = 0x04 ∧ ∃ p, i = .load p ∧ p.length ≤ 125) ∧
    (r.status = .errCap → r.status.code = 0x06 ∧ ∃ p, i = .load p ∧ s.cfg.bufCap < p.length) ∧
    (r.status = .errRange → r.status.code = 0x05 ∧ s.pstate ≠ .uninit ∧
      ∃ u, i = .setuniv u ∧ (u.toNat = 0 ∨ 64000 ≤ u.toNat)) ∧
    (r.status = .errAddr → r.status.code = 0x07 ∧ s.pstate ≠ .uninit ∧
      ∃ a : BitVec 16, (i = .bufrd a ∨ ∃ b, i = .bufwr a b) ∧ s.len.toNat ≤ a.toNat) ∧
    (r.status = .errLen → r.status.code = 0x08 ∧ s.pstate ≠ .uninit ∧ ∃ p, i = .setcid p ∧ p.length ≠ 16)

/-! ### Who writes what -/

/-- R25: a successful INIT sets PSTATE to INITIALIZED, a successful LOAD to PARSED; no other command changes PSTATE, and no
failed one does. -/
def Obligations.PstateTransitions : Prop :=
  ∀ (i : Instr) (s t : State), exec i s = .next t → ∃ r, t.resp = some r ∧
    (r.status = .ok → (∀ n, i = .init n → t.pstate = .initialized) ∧ (∀ p, i = .load p → t.pstate = .parsed)) ∧
    ((∀ n, i ≠ .init n) → (∀ p, i ≠ .load p) → t.pstate = s.pstate) ∧
    (r.status ≠ .ok → t.pstate = s.pstate)

/-- LEN is written only by a successful INIT, to 126 + n, and a successful LOAD, to the payload's length. -/
def Obligations.LenWrittenOnlyByInitAndLoad : Prop :=
  ∀ (i : Instr) (s t : State), s.cfg.valid = true → exec i s = .next t → t.len ≠ s.len →
    (∃ n, i = .init n ∧ t.len.toNat = 126 + n.toNat ∧ 127 ≤ t.len.toNat ∧ t.len.toNat ≤ 638) ∨
    (∃ p, i = .load p ∧ t.len.toNat = p.length ∧ 126 ≤ p.length ∧ p.length ≤ s.cfg.bufCap)

/-- Only CLASSIFY writes a tracker entry: that of the packet's universe, with its sequence number, when it answers
ACCEPTED. -/
def Obligations.TrackerWrittenOnlyOnAccept : Prop :=
  ∀ (i : Instr) (s t : State), exec i s = .next t →
    (i ≠ .classify → t.trk = s.trk) ∧
    ∀ u, t.trkAt u ≠ s.trkAt u →
      i = .classify ∧ t.resp = some ⟨.ok, 0, []⟩ ∧
        ∃ f, s.fieldRegs = some f ∧ u = f.frame.univ ∧ t.trkAt u = some f.frame.seq

/-- No step changes a parameter. -/
def Obligations.ParametersNeverChange : Prop :=
  ∀ s t : State, step s = .next t → t.cfg = s.cfg

/-- No command reads the last response or the commands still pending, and none adds to or takes from those pending: what
the block answers and does depends on its own state alone. -/
def Obligations.CommandsNeverReadThePort : Prop :=
  ∀ (i : Instr) (s : State) (r : Response) (cs : List Command),
    exec i (s.setResp r) = exec i s ∧
    ∀ t, exec i s = .next t → t.cmds = s.cmds ∧ exec i (s.setCmds cs) = .next (t.setCmds cs)

/-- A command's answer depends on the field registers only through the layers it is said to read. -/
def Obligations.AnswersSeeOnlyTheLayersRead : Prop :=
  ∀ (i : Instr) (s : State) (f g : FieldRegs), (∀ l ∈ layersRead i, sameLayer f g l) →
    answer (exec i (s.setRegs f)) = answer (exec i (s.setRegs g))

/-! ### Registers and the buffer -/

/-- Every register equals the buffer bytes it copies right after a successful INIT, LOAD or PARSE. -/
def Obligations.RegistersCurrentAfterParse : Prop :=
  ∀ (i : Instr) (s t : State) (r : Response),
    (∃ n, i = .init n) ∨ (∃ p, i = .load p) ∨ i = .parse →
    exec i s = .next t → t.resp = some r → r.status = .ok → t.Current

/-- A mutator or INCSEQ that succeeds brings every register of its own layer up to date and leaves the registers of the
other layers, PSTATE, LEN and the tracker alone; one that fails changes nothing. -/
def Obligations.EditsRederiveTheirLayerOnly : Prop :=
  ∀ (i : Instr) (l : Layer) (s t : State) (f : FieldRegs),
    editLayer i = some l → s.fieldRegs = some f → exec i s = .next t →
    (∃ (g : FieldRegs) (r : Response), t.fieldRegs = some g ∧ t.LayerCurrent l ∧ (∀ l', l' ≠ l → sameLayer f g l') ∧
      t.pstate = s.pstate ∧ t.len = s.len ∧ t.trk = s.trk ∧
      t.resp = some r ∧ r.status = .ok ∧ r.data = [] ∧ (i ≠ .incseq → r.value = 0)) ∨
    (∃ e, e ≠ .ok ∧ t = s.setResp ⟨e, 0, []⟩)

/-- No step but a BUFWR makes a register stale: from a state whose registers are all current, every other step leads to
one. -/
def Obligations.OnlyBufwrMakesRegistersStale : Prop :=
  ∀ s t : State, s.Current →
    (∀ c rest a b, s.cmds = c :: rest → decode c ≠ .ok (.bufwr a b)) →
    step s = .next t → t.Current

/-- A BUFWR can make stale only registers of the layer it writes to, and none when it writes the start code or a slot. -/
def Obligations.BufwrStalesOneLayerAtMost : Prop :=
  ∀ (s t : State) (a : BitVec 16) (b : Byte) (l : Layer),
    exec (.bufwr a b) s = .next t → l ≠ layerAt a.toNat ∨ 125 ≤ a.toNat → s.LayerCurrent l → t.LayerCurrent l

/-- GETSTATE, VALIDATE, DISCARD, CLASSIFY and the field readers other than GETSLOTS answer after a BUFWR what they answered
before it. INCSEQ, SETOPT and SETSLOTS read registers too: IncseqStoresTheSuccessor, SetoptChangesOneBit and
SetslotsCopiesTheClampedCount say what they take from them. -/
def Obligations.StaleRegistersAfterBufwr : Prop :=
  ∀ (s t : State) (a : BitVec 16) (b : Byte) (i : Instr),
    exec (.bufwr a b) s = .next t → answersFromRegisters i = true → answer (exec i t) = answer (exec i s)

/-- The big-endian reads and writes of 16 and 32 bits: the value of the bytes, the lowest offset most significant, and a
write is the inverse of a read and leaves every other byte alone. -/
def Obligations.BufferIntegersAreBigEndian : Prop :=
  ∀ (m : Memory) (a : Nat),
    (∀ v : BitVec 16, m.read16 a = some v ↔ ∃ b1 b0, m.read a = some b1 ∧ m.read (a + 1) = some b0 ∧
      v.toNat = b1.toNat * 256 + b0.toNat) ∧
    (∀ v : BitVec 32, m.read32 a = some v ↔ ∃ b3 b2 b1 b0, m.read a = some b3 ∧ m.read (a + 1) = some b2 ∧
      m.read (a + 2) = some b1 ∧ m.read (a + 3) = some b0 ∧
      v.toNat = b3.toNat * 2 ^ 24 + b2.toNat * 2 ^ 16 + b1.toNat * 2 ^ 8 + b0.toNat) ∧
    (∀ v : BitVec 16, (m.write16 a v).read16 a = some v ∧
      ∀ x, x < a ∨ a + 2 ≤ x → (m.write16 a v).read x = m.read x) ∧
    (∀ v : BitVec 32, (m.write32 a v).read32 a = some v ∧
      ∀ x, x < a ∨ a + 4 ≤ x → (m.write32 a v).read x = m.read x)

/-! ### Packet family -/

/-- R81, R38: INIT n, for n in 1 to 512, builds a packet with every byte as the rule gives it, and for every other n answers
ERR_SLOTCOUNT. -/
def Obligations.InitBuildsThePacket : Prop :=
  (∀ (s : State) (n : BitVec 16), s.cfg.valid = true → 1 ≤ n.toNat → n.toNat ≤ 512 →
    ∃ t f, exec (.init n) s = .next t ∧ t.resp = some ⟨.ok, BitVec.ofNat 32 (126 + n.toNat), []⟩ ∧
      t.Built n.toNat f ∧ f.root.cid.toList = List.replicate 16 0 ∧ f.frame.name.toList = List.replicate 64 0 ∧
      f.frame.prio = 100 ∧ f.frame.seq = 0 ∧ f.frame.opts = 0 ∧ f.frame.univ = s.cfg.defaultUniverse ∧
      (∀ a, 125 ≤ a → a < 126 + n.toNat → t.buf.read a = some 0) ∧
      t.trk = s.trk ∧ t.cfg = s.cfg ∧ t.cmds = s.cmds) ∧
  (∀ (s : State) (n : BitVec 16), n.toNat < 1 ∨ 512 < n.toNat →
    exec (.init n) s = .next (s.setResp ⟨.errSlotCount, 0, []⟩))

/-- R83: LOAD stores the received bytes as they are, sets LEN and PSTATE and parses; a payload shorter than 126 bytes or
longer than BUF_CAP is refused with its own status. -/
def Obligations.LoadStoresTheDatagram : Prop :=
  ∀ (s : State) (p : List Byte), s.cfg.valid = true →
    (p.length < 126 → exec (.load p) s = .next (s.setResp ⟨.errSize, 0, []⟩)) ∧
    (s.cfg.bufCap < p.length → exec (.load p) s = .next (s.setResp ⟨.errCap, 0, []⟩)) ∧
    (126 ≤ p.length → p.length ≤ s.cfg.bufCap →
      ∃ t f, exec (.load p) s = .next t ∧ t.resp = some ⟨.ok, BitVec.ofNat 32 p.length, []⟩ ∧
        t.life = .parsed f ∧ parseAll t.buf = some f ∧ t.len.toNat = p.length ∧
        (∀ a, a < p.length → t.buf.read a = p[a]?) ∧
        t.trk = s.trk ∧ t.cfg = s.cfg ∧ t.cmds = s.cmds)

/-- R84: the parser cannot fail where bytes 0 to 124 are there, and loads every field register from its bytes, big-endian,
and byte strings in buffer order. -/
def Obligations.ParserLoadsEveryField : Prop :=
  ∀ m : Memory, (∀ a, a ≤ 124 → (m.read a).isSome) →
    ∃ f, parseAll m = some f ∧
      m.read16 0 = some f.root.pre ∧ m.read16 2 = some f.root.post ∧
      (∀ i (h : i < 12), m.read (4 + i) = some f.root.pid[i]) ∧
      m.read16 16 = some f.root.rflen ∧ m.read32 18 = some f.root.rvec ∧
      (∀ i (h : i < 16), m.read (22 + i) = some f.root.cid[i]) ∧
      m.read16 38 = some f.frame.fflen ∧ m.read32 40 = some f.frame.fvec ∧
      (∀ i (h : i < 64), m.read (44 + i) = some f.frame.name[i]) ∧
      m.read 108 = some f.frame.prio ∧ m.read16 109 = some f.frame.rsvd ∧ m.read 111 = some f.frame.seq ∧
      m.read 112 = some f.frame.opts ∧ m.read16 113 = some f.frame.univ ∧
      m.read16 115 = some f.dmp.dflen ∧ m.read 117 = some f.dmp.dvec ∧ m.read 118 = some f.dmp.dtype ∧
      m.read16 119 = some f.dmp.faddr ∧ m.read16 121 = some f.dmp.ainc ∧ m.read16 123 = some f.dmp.pvc

/-- R85: PARSE re-derives all registers and changes nothing else, and a second PARSE changes nothing at all. -/
def Obligations.ParseRederivesAllRegisters : Prop :=
  ErrStateWithoutPacket .parse ∧
  ∀ s : State, s.Inv → s.pstate ≠ .uninit →
    ∃ g, parseAll s.buf = some g ∧
      exec .parse s = .next ((s.setRegs g).setResp ⟨.ok, 0, []⟩) ∧
      exec .parse ((s.setRegs g).setResp ⟨.ok, 0, []⟩) = .next ((s.setRegs g).setResp ⟨.ok, 0, []⟩)

/-- R86: GETSTATE answers PSTATE * 65536 + LEN in every state and changes nothing; UNINIT is 0, INITIALIZED 1 and PARSED 2
(10_state.md section 4). -/
def Obligations.GetstateAnswersPstateAndLen : Prop :=
  PState.uninit.code = 0 ∧ PState.initialized.code = 1 ∧ PState.parsed.code = 2 ∧
  ∀ s : State, ∃ v : BitVec 32, v.toNat = s.pstate.code.toNat * 65536 + s.len.toNat ∧
    exec .getstate s = .next (s.setResp ⟨.ok, v, []⟩)

/-- R88: BUFRD answers the buffer byte below LEN, ERR_ADDR at LEN and above, ERR_STATE without a packet. -/
def Obligations.BufrdReadsTheBuffer : Prop :=
  (∀ a, ErrStateWithoutPacket (.bufrd a)) ∧
  ∀ (s : State) (a : BitVec 16), s.Inv → s.pstate ≠ .uninit →
    (s.len.toNat ≤ a.toNat → exec (.bufrd a) s = .next (s.setResp ⟨.errAddr, 0, []⟩)) ∧
    (a.toNat < s.len.toNat → ∃ b, s.buf.read a.toNat = some b ∧
      exec (.bufrd a) s = .next (s.setResp ⟨.ok, b.setWidth 32, []⟩))

/-- R90: BUFWR stores its byte below LEN and changes nothing else, no register included; ERR_ADDR at LEN and above. -/
def Obligations.BufwrStoresOneByte : Prop :=
  (∀ a b, ErrStateWithoutPacket (.bufwr a b)) ∧
  ∀ (s : State) (a : BitVec 16) (b : Byte), s.pstate ≠ .uninit →
    (s.len.toNat ≤ a.toNat → exec (.bufwr a b) s = .next (s.setResp ⟨.errAddr, 0, []⟩)) ∧
    (a.toNat < s.len.toNat → ∃ t, exec (.bufwr a b) s = .next t ∧ t.resp = some ⟨.ok, 0, []⟩ ∧
      t.buf.read a.toNat = some b ∧ t.life = s.life ∧ KeptByEdit a.toNat 1 s t)

/-- The frame of the commands that write no state: nothing but the response differs, and the command repeated gives the
same. -/
def Obligations.ReadersChangeOnlyTheResponse : Prop :=
  ∀ (i : Instr) (s t : State), writesNothing i = true → exec i s = .next t →
    OnlyResponse s t ∧ t.resp.isSome = true ∧ exec i t = .next t

/-! ### Validator -/

/-- R101 to R104: VALIDATE answers the first invalid layer, root, then frame, then DMP, judged from the seven registers. -/
def Obligations.ValidateReportsTheFirstInvalidLayer : Prop :=
  ErrStateWithoutPacket .validate ∧
  ∀ (s : State) (f : FieldRegs), s.fieldRegs = some f →
    exec .validate s = .next (s.setResp ⟨.ok,
      if ¬ (f.root.pid.toList = [0x41, 0x53, 0x43, 0x2D, 0x45, 0x31, 0x2E, 0x31, 0x37, 0x00, 0x00, 0x00] ∧
            f.root.rvec = 0x00000004) then 1
      else if ¬ f.frame.fvec = 0x00000002 then 2
      else if ¬ (f.dmp.dvec = 0x02 ∧ f.dmp.dtype = 0xA1 ∧ f.dmp.faddr = 0x0000 ∧ f.dmp.ainc = 0x0001) then 3
      else 0, []⟩)

/-! ### Sequence family -/

/-- R111, R112: DISCARD answers 1 exactly when the exact integer difference lies in -19 to 0. -/
def Obligations.DiscardJudgesTheIntegerDifference : Prop :=
  (∀ l, ErrStateWithoutPacket (.discard l)) ∧
  ∀ (s : State) (f : FieldRegs) (last : Byte), s.fieldRegs = some f →
    exec (.discard last) s = .next (s.setResp ⟨.ok,
      if -20 < (f.frame.seq.toNat : Int) - (last.toNat : Int) ∧ (f.frame.seq.toNat : Int) - (last.toNat : Int) ≤ 0
      then 1 else 0, []⟩)

/-- The window does not wrap: against `l` the discarded numbers are max(0, l - 19) to l, and the true successor is never
discarded, across the wrap too. -/
def Obligations.DiscardWindowDoesNotWrap : Prop :=
  ∀ l : Byte,
    (∀ s : Byte, shouldDiscard s l = true ↔ l.toNat - 19 ≤ s.toNat ∧ s.toNat ≤ l.toNat) ∧
    shouldDiscard (nextSequence l) l = false

/-- R113: CLASSIFY validates, then consults the tracker entry of the packet's universe, and writes it exactly when the
class is ACCEPTED. That a first sight is accepted and that an invalid packet leaves the tracker alone are the spec's
decision D11. -/
def Obligations.ClassifyFollowsValidationThenTracker : Prop :=
  ErrStateWithoutPacket .classify ∧
  ∀ (s : State) (f : FieldRegs), s.fieldRegs = some f →
    (validation f ≠ .none → exec .classify s =
      .next (s.setResp ⟨.ok, BitVec.ofNat 32 (2 + 256 * (validation f).code), []⟩)) ∧
    (validation f = .none →
      (s.trkAt f.frame.univ = none → exec .classify s =
        .next ((s.setTrk f.frame.univ f.frame.seq).setResp ⟨.ok, 0, []⟩)) ∧
      ∀ l, s.trkAt f.frame.univ = some l →
        (-20 < (f.frame.seq.toNat : Int) - (l.toNat : Int) ∧ (f.frame.seq.toNat : Int) - (l.toNat : Int) ≤ 0 →
          exec .classify s = .next (s.setResp ⟨.ok, 1, []⟩)) ∧
        (¬ (-20 < (f.frame.seq.toNat : Int) - (l.toNat : Int) ∧
            (f.frame.seq.toNat : Int) - (l.toNat : Int) ≤ 0) →
          exec .classify s = .next ((s.setTrk f.frame.univ f.frame.seq).setResp ⟨.ok, 0, []⟩)))

/-- R146: the possible values of CLASSIFY are exactly five, and each of them occurs. -/
def Obligations.ClassifyHasFiveValues : Prop :=
  (∀ (s t : State) (r : Response), exec .classify s = .next t → t.resp = some r → r.status = .ok →
    r.value = 0x0000 ∨ r.value = 0x0001 ∨ r.value = 0x0102 ∨ r.value = 0x0202 ∨ r.value = 0x0302) ∧
  (∀ v : BitVec 32, v = 0x0000 ∨ v = 0x0001 ∨ v = 0x0102 ∨ v = 0x0202 ∨ v = 0x0302 →
    ∃ s : State, s.Inv ∧ answer (exec .classify s) = some ⟨.ok, v, []⟩)

/-- The tracker over any step and over a CLASSIFY: an entry once set is never unset; entries of other universes neither
change nor are seen; an ACCEPTED packet's number becomes the entry and any other answer leaves the tracker as it was. -/
def Obligations.TrackerLaws : Prop :=
  (∀ (s t : State) (u : BitVec 16) (v : Byte), step s = .next t → s.trkAt u = some v → ∃ v', t.trkAt u = some v') ∧
  (∀ (s t : State) (f : FieldRegs), s.fieldRegs = some f → exec .classify s = .next t →
    (t.resp = some ⟨.ok, 0, []⟩ ∧ t.trkAt f.frame.univ = some f.frame.seq ∧
      ∀ u, u ≠ f.frame.univ → t.trkAt u = s.trkAt u) ∨
    (t.resp ≠ some ⟨.ok, 0, []⟩ ∧ ∀ u, t.trkAt u = s.trkAt u)) ∧
  (∀ (s : State) (f : FieldRegs) (u : BitVec 16) (v : Byte), s.fieldRegs = some f → u ≠ f.frame.univ →
    answer (exec .classify (s.setTrk u v)) = answer (exec .classify s))

/-- R116: INCSEQ stores the successor modulo 256 of the SEQ register in byte 111, answers it, re-derives the Framing Layer
and changes nothing else. -/
def Obligations.IncseqStoresTheSuccessor : Prop :=
  ErrStateWithoutPacket .incseq ∧
  ∀ (s : State) (f : FieldRegs), s.Inv → s.fieldRegs = some f →
    ∃ (t : State) (g : FrameRegs) (n : Byte), exec .incseq s = .next t ∧
      n.toNat = (f.frame.seq.toNat + 1) % 256 ∧
      t.resp = some ⟨.ok, n.setWidth 32, []⟩ ∧ t.buf.read 111 = some n ∧ KeptByEdit 111 1 s t ∧
      t.fieldRegs = some { f with frame := g } ∧ parseFrame t.buf = some g ∧ g.seq = n

/-- Any number of INCSEQ in a row runs, and k of them add k modulo 256: 256 of them return SEQ to its start, and no value
is skipped. -/
def Obligations.IncseqRunsThroughAllValues : Prop :=
  ∀ (s : State) (f : FieldRegs), s.Inv → s.fieldRegs = some f → ∀ k : Nat,
    ∃ t g, execAll (List.replicate k .incseq) s = .next t ∧ t.fieldRegs = some g ∧
      g.frame.seq.toNat = (f.frame.seq.toNat + k) % 256

/-! ### Field readers -/

/-- R120: the word 0x20000000 + k, k from 0 to 16, is GETFLD of the register the rule gives for k, and GETFLD answers its
register, zero-extended; flength registers whole. Field ids 17 to 31 are illegal in every state. -/
def Obligations.GetfldAnswersTheRegister : Prop :=
  (∀ (k : Nat) (fid : FieldId), scalarFields[k]? = some fid →
    decode ⟨BitVec.ofNat 32 (0x20000000 + k), []⟩ = .ok (.getfld fid)) ∧
  (∀ (s : State) (w : Word) (rest : List Command), s.cmds = ⟨w, []⟩ :: rest → (opcodeOf w).toNat = 0x20 →
    17 ≤ (fidOf w).toNat → step s = .next ((s.setCmds rest).setResp ⟨.errIllegal, 0, []⟩)) ∧
  (∀ fid, ErrStateWithoutPacket (.getfld fid)) ∧
  ∀ (s : State) (f : FieldRegs), s.fieldRegs = some f →
    exec (.getfld .pre) s = .next (s.setResp ⟨.ok, f.root.pre.setWidth 32, []⟩) ∧
    exec (.getfld .post) s = .next (s.setResp ⟨.ok, f.root.post.setWidth 32, []⟩) ∧
    exec (.getfld .rflen) s = .next (s.setResp ⟨.ok, f.root.rflen.setWidth 32, []⟩) ∧
    exec (.getfld .rvec) s = .next (s.setResp ⟨.ok, f.root.rvec, []⟩) ∧
    exec (.getfld .fflen) s = .next (s.setResp ⟨.ok, f.frame.fflen.setWidth 32, []⟩) ∧
    exec (.getfld .fvec) s = .next (s.setResp ⟨.ok, f.frame.fvec, []⟩) ∧
    exec (.getfld .prio) s = .next (s.setResp ⟨.ok, f.frame.prio.setWidth 32, []⟩) ∧
    exec (.getfld .rsvd) s = .next (s.setResp ⟨.ok, f.frame.rsvd.setWidth 32, []⟩) ∧
    exec (.getfld .seq) s = .next (s.setResp ⟨.ok, f.frame.seq.setWidth 32, []⟩) ∧
    exec (.getfld .opts) s = .next (s.setResp ⟨.ok, f.frame.opts.setWidth 32, []⟩) ∧
    exec (.getfld .univ) s = .next (s.setResp ⟨.ok, f.frame.univ.setWidth 32, []⟩) ∧
    exec (.getfld .dflen) s = .next (s.setResp ⟨.ok, f.dmp.dflen.setWidth 32, []⟩) ∧
    exec (.getfld .dvec) s = .next (s.setResp ⟨.ok, f.dmp.dvec.setWidth 32, []⟩) ∧
    exec (.getfld .dtype) s = .next (s.setResp ⟨.ok, f.dmp.dtype.setWidth 32, []⟩) ∧
    exec (.getfld .faddr) s = .next (s.setResp ⟨.ok, f.dmp.faddr.setWidth 32, []⟩) ∧
    exec (.getfld .ainc) s = .next (s.setResp ⟨.ok, f.dmp.ainc.setWidth 32, []⟩) ∧
    exec (.getfld .pvc) s = .next (s.setResp ⟨.ok, f.dmp.pvc.setWidth 32, []⟩)

/-- R121 to R127: the other register readers answer their register; GETOPT the bit asked for. -/
def Obligations.RegisterReadersAnswerTheirRegister : Prop :=
  (ErrStateWithoutPacket .getpid ∧ ErrStateWithoutPacket .getcid ∧ ErrStateWithoutPacket .getname ∧
    ErrStateWithoutPacket .getprio ∧ ErrStateWithoutPacket .getseq ∧ (∀ b, ErrStateWithoutPacket (.getopt b)) ∧
    ErrStateWithoutPacket .getuniv) ∧
  ∀ (s : State) (f : FieldRegs), s.fieldRegs = some f →
    exec .getpid s = .next (s.setResp ⟨.ok, 0, f.root.pid.toList⟩) ∧
    exec .getcid s = .next (s.setResp ⟨.ok, 0, f.root.cid.toList⟩) ∧
    exec .getname s = .next (s.setResp ⟨.ok, 0, f.frame.name.toList⟩) ∧
    exec .getprio s = .next (s.setResp ⟨.ok, f.frame.prio.setWidth 32, []⟩) ∧
    exec .getseq s = .next (s.setResp ⟨.ok, f.frame.seq.setWidth 32, []⟩) ∧
    exec .getuniv s = .next (s.setResp ⟨.ok, f.frame.univ.setWidth 32, []⟩) ∧
    ∀ b : BitVec 3, exec (.getopt b) s =
      .next (s.setResp ⟨.ok, if f.frame.opts.getLsbD b.toNat = true then 1 else 0, []⟩)

/-- R128: GETSLOTS answers LEN - 126 and the bytes from offset 126 to LEN - 1, whatever PVC says. -/
def Obligations.GetslotsReadsTheSlots : Prop :=
  ErrStateWithoutPacket .getslots ∧
  ∀ s : State, s.Inv → s.pstate ≠ .uninit →
    ∃ d : List Byte, exec .getslots s = .next (s.setResp ⟨.ok, BitVec.ofNat 32 (s.len.toNat - 126), d⟩) ∧
      d.length = s.len.toNat - 126 ∧ ∀ k, k < s.len.toNat - 126 → s.buf.read (126 + k) = d[k]?

/-! ### Field writers -/

/-- R131: SETCID stores exactly 16 bytes at offset 22 and re-derives the Root Layer; another length answers ERR_LEN. -/
def Obligations.SetcidStoresSixteenBytes : Prop :=
  (∀ p, ErrStateWithoutPacket (.setcid p)) ∧
  ∀ (s : State) (f : FieldRegs) (p : List Byte), s.Inv → s.fieldRegs = some f →
    (p.length ≠ 16 → exec (.setcid p) s = .next (s.setResp ⟨.errLen, 0, []⟩)) ∧
    (p.length = 16 → ∃ (t : State) (g : RootRegs), exec (.setcid p) s = .next t ∧
      t.resp = some ⟨.ok, 0, []⟩ ∧ (∀ i, i < 16 → t.buf.read (22 + i) = p[i]?) ∧ KeptByEdit 22 16 s t ∧
      t.fieldRegs = some { f with root := g } ∧ parseRoot t.buf = some g ∧ g.cid.toList = p)

/-- R132: SETNAME stores the first 64 bytes at offset 44, zeros behind a shorter name, and re-derives the Framing Layer. -/
def Obligations.SetnamePadsAndTruncates : Prop :=
  (∀ p, ErrStateWithoutPacket (.setname p)) ∧
  ∀ (s : State) (f : FieldRegs) (p : List Byte), s.Inv → s.fieldRegs = some f →
    ∃ (t : State) (g : FrameRegs), exec (.setname p) s = .next t ∧ t.resp = some ⟨.ok, 0, []⟩ ∧
      (∀ i, i < min p.length 64 → t.buf.read (44 + i) = p[i]?) ∧
      (∀ i, min p.length 64 ≤ i → i < 64 → t.buf.read (44 + i) = some 0) ∧ KeptByEdit 44 64 s t ∧
      t.fieldRegs = some { f with frame := g } ∧ parseFrame t.buf = some g

/-- R133, R134: SETPRIO and SETSEQ store their byte, unchecked, at offsets 108 and 111 and re-derive the Framing Layer. -/
def Obligations.SetprioAndSetseqStoreTheirByte : Prop :=
  (∀ b, ErrStateWithoutPacket (.setprio b) ∧ ErrStateWithoutPacket (.setseq b)) ∧
  ∀ (s : State) (f : FieldRegs) (b : Byte), s.Inv → s.fieldRegs = some f →
    (∃ (t : State) (g : FrameRegs), exec (.setprio b) s = .next t ∧ t.resp = some ⟨.ok, 0, []⟩ ∧
      t.buf.read 108 = some b ∧ KeptByEdit 108 1 s t ∧
      t.fieldRegs = some { f with frame := g } ∧ parseFrame t.buf = some g ∧ g.prio = b) ∧
    (∃ (t : State) (g : FrameRegs), exec (.setseq b) s = .next t ∧ t.resp = some ⟨.ok, 0, []⟩ ∧
      t.buf.read 111 = some b ∧ KeptByEdit 111 1 s t ∧
      t.fieldRegs = some { f with frame := g } ∧ parseFrame t.buf = some g ∧ g.seq = b)

/-- R135: SETOPT stores at offset 112 the OPTS register with one bit set or cleared and the other seven kept, and
re-derives the Framing Layer. -/
def Obligations.SetoptChangesOneBit : Prop :=
  (∀ b on, ErrStateWithoutPacket (.setopt b on)) ∧
  ∀ (s : State) (f : FieldRegs) (b : BitVec 3) (on : Bool), s.Inv → s.fieldRegs = some f →
    ∃ (t : State) (g : FrameRegs) (v : Byte), exec (.setopt b on) s = .next t ∧ t.resp = some ⟨.ok, 0, []⟩ ∧
      (∀ j, j < 8 → v.getLsbD j = if j = b.toNat then on else f.frame.opts.getLsbD j) ∧
      t.buf.read 112 = some v ∧ KeptByEdit 112 1 s t ∧
      t.fieldRegs = some { f with frame := g } ∧ parseFrame t.buf = some g ∧ g.opts = v

/-- R136: SETUNIV stores a universe of 1 to 63999 big-endian at offsets 113 and 114 and re-derives the Framing Layer; 0 and
64000 to 65535 answer ERR_RANGE. -/
def Obligations.SetunivStoresLegalUniverses : Prop :=
  (∀ u, ErrStateWithoutPacket (.setuniv u)) ∧
  ∀ (s : State) (f : FieldRegs) (u : BitVec 16), s.Inv → s.fieldRegs = some f →
    (u.toNat < 1 ∨ 63999 < u.toNat → exec (.setuniv u) s = .next (s.setResp ⟨.errRange, 0, []⟩)) ∧
    (1 ≤ u.toNat → u.toNat ≤ 63999 → ∃ (t : State) (g : FrameRegs) (b1 b0 : Byte), exec (.setuniv u) s = .next t ∧
      t.resp = some ⟨.ok, 0, []⟩ ∧ t.buf.read 113 = some b1 ∧ t.buf.read 114 = some b0 ∧
      u.toNat = b1.toNat * 256 + b0.toNat ∧ KeptByEdit 113 2 s t ∧
      t.fieldRegs = some { f with frame := g } ∧ parseFrame t.buf = some g ∧ g.univ = u)

/-- R137: SETSLOTS copies max(0, min(len16, PVC - 1, LEN - 126)) bytes to offset 126 on, writes nothing else, and
re-derives the DMP Layer. -/
def Obligations.SetslotsCopiesTheClampedCount : Prop :=
  (∀ p, ErrStateWithoutPacket (.setslots p)) ∧
  ∀ (s : State) (f : FieldRegs) (p : List Byte) (k : Nat), s.Inv → s.fieldRegs = some f →
    (k : Int) = max 0 (min (p.length : Int) (min ((f.dmp.pvc.toNat : Int) - 1) ((s.len.toNat : Int) - 126))) →
    ∃ (t : State) (g : DmpRegs), exec (.setslots p) s = .next t ∧ t.resp = some ⟨.ok, 0, []⟩ ∧
      (∀ i, i < k → t.buf.read (126 + i) = p[i]?) ∧ KeptByEdit 126 k s t ∧
      t.fieldRegs = some { f with dmp := g } ∧ parseDmp t.buf = some g

/-- Every command that needs no BUFWR, INIT or LOAD keeps a built packet built (spec/10_state.md section 9). -/
def Obligations.BuiltPacketStaysBuilt : Prop :=
  ∀ (i : Instr) (s t : State) (n : Nat) (f : FieldRegs), s.Built n f →
    (∀ m, i ≠ .init m) → (∀ p, i ≠ .load p) → (∀ a b, i ≠ .bufwr a b) →
    exec i s = .next t → ∃ g, t.Built n g

/-! ### Headline results -/

/-- After INIT n, any list of mutators and INCSEQ runs to its end, leaves a packet that satisfies everything 10_state.md
section 9 lists, and VALIDATE then answers NONE. -/
def Obligations.BuiltAndEditedPacketsValidate : Prop :=
  ∀ (s : State) (n : BitVec 16) (is : List Instr), s.Inv → 1 ≤ n.toNat → n.toNat ≤ 512 →
    (∀ i ∈ is, (editLayer i).isSome = true) →
    ∃ t f, andThen (exec (.init n) s) (execAll is) = .next t ∧ t.Built n.toNat f ∧
      answer (exec .validate t) = some ⟨.ok, 0, []⟩

/-- The round trip from a sender's block `s` to a receiver's block `r`: for every slot count n of 1 to 512 and every n bytes
of data, after INIT n and SETSLOTS data the buffer can be read out, LOAD of it succeeds in any state that meets the
invariant, GETSLOTS then answers the data and VALIDATE answers NONE. -/
def Obligations.RoundTripReturnsTheSlots : Prop :=
  ∀ (s : State) (n : BitVec 16) (data : List Byte), s.Inv → 1 ≤ n.toNat → n.toNat ≤ 512 → data.length = n.toNat →
    ∃ t image, andThen (exec (.init n) s) (exec (.setslots data)) = .next t ∧
      t.buf.readBytes 0 (126 + n.toNat) = some image ∧
      ∀ r : State, r.Inv → ∃ u, exec (.load image) r = .next u ∧
        u.resp = some ⟨.ok, BitVec.ofNat 32 (126 + n.toNat), []⟩ ∧ u.pstate = .parsed ∧ u.len.toNat = 126 + n.toNat ∧
        answer (exec .getslots u) = some ⟨.ok, BitVec.ofNat 32 n.toNat, data⟩ ∧
        answer (exec .validate u) = some ⟨.ok, 0, []⟩

/-- No content of a received datagram of at least 126 and at most BUF_CAP bytes makes LOAD, PARSE, VALIDATE, DISCARD,
CLASSIFY or a field reader answer anything but OK. -/
def Obligations.ReceivedDataNeverFails : Prop :=
  ∀ (s : State) (p : List Byte) (i : Instr), s.Inv → 126 ≤ p.length → p.length ≤ s.cfg.bufCap →
    i = .parse ∨ i = .validate ∨ (∃ l, i = .discard l) ∨ i = .classify ∨ isFieldReader i = true →
    ∃ t r q, exec (.load p) s = .next t ∧ t.resp = some r ∧ r.status = .ok ∧
      answer (exec i t) = some q ∧ q.status = .ok

/-! ### Pseudo-commands and platform functions -/

/-- RECV is LOAD and, only when LOAD answered OK, CLASSIFY; POKE is BUFWR and PARSE; the others are one command. -/
def Obligations.PseudoCommandsExpand : Prop :=
  ∀ s : State,
    (∀ p : List Byte, p.length < 126 ∨ s.cfg.bufCap < p.length → execPseudo (.recv p) s = exec (.load p) s) ∧
    (∀ p : List Byte, 126 ≤ p.length → p.length ≤ s.cfg.bufCap →
      execPseudo (.recv p) s = andThen (exec (.load p) s) (exec .classify)) ∧
    (∀ a b, execPseudo (.poke a b) s = andThen (exec (.bufwr a b) s) (exec .parse)) ∧
    (∀ on, execPseudo (.setpreview on) s = exec (.setopt 7 on) s ∧ execPseudo (.setterm on) s = exec (.setopt 6 on) s) ∧
    execPseudo .getpreview s = exec (.getopt 7) s ∧ execPseudo .getterm s = exec (.getopt 6) s ∧
    execPseudo .getstart s = exec (.bufrd 125) s ∧ (∀ b, execPseudo (.setstart b) s = exec (.bufwr 125 b) s) ∧
    execPseudo .sent s = exec .incseq s

/-- R57: the multicast group of a universe of 1 to 63999 is 239.255.(u / 256).(u mod 256), any other universe is a range
error, and the default UDP port is 5568. -/
def Obligations.PlatformFunctions : Prop :=
  (∀ u : BitVec 16, 1 ≤ u.toNat → u.toNat ≤ 63999 → ∃ b1 b0 : Byte, multicastGroup u = some (239, 255, b1, b0) ∧
    b1.toNat = u.toNat / 256 ∧ b0.toNat = u.toNat % 256) ∧
  (∀ u : BitVec 16, u.toNat < 1 ∨ 63999 < u.toNat → multicastGroup u = none) ∧
  udpPort none = 5568 ∧ ∀ p, udpPort (some p) = p

/-! ### Operands -/

/-- Whatever a pair (W, P) decodes to, each operand is the unsigned field of W that 30_encoding.md section 2 names, taken as
it stands (imm16 and len16 W[15:0], imm8 and data8 W[7:0], addr16 W[23:8], bit W[10:8], on W[0], fid W[4:0]), and a
payload is P, of len16 bytes. -/
def Obligations.OperandsAreFieldsOfTheWord : Prop :=
  ∀ (c : Command) (i : Instr), decode c = .ok i → OperandsAre c.word c.payload i
end

