-- ==== Sys2Proof/Laws/Word.lean ====
section
/-! SUPPORT. Slicing and joining of words: the high and low part of a join, the join of the parts, a slice of a slice. -/

namespace Sys2Proof

/-- The high part of a join. -/
theorem extract_append_high {n m : Nat} (x : BitVec n) (y : BitVec m) : (x ++ y).extractLsb' m n = x := by
  ext i hi
  simp [← BitVec.getLsbD_eq_getElem, BitVec.getLsbD_append, hi]

/-- The low part of a join. -/
theorem extract_append_low {n m : Nat} (x : BitVec n) (y : BitVec m) : (x ++ y).extractLsb' 0 m = y := by
  ext i hi
  simp [← BitVec.getLsbD_eq_getElem, BitVec.getLsbD_append, hi]

/-- The parts of a value, joined. -/
theorem append_extract {n m : Nat} (v : BitVec (n + m)) : v.extractLsb' m n ++ v.extractLsb' 0 m = v := by
  ext i hi
  rw [BitVec.getElem_append]
  split
  · simp [← BitVec.getLsbD_eq_getElem, *]
  · have hm : m + (i - m) = i := by omega
    simp only [← BitVec.getLsbD_eq_getElem, BitVec.getLsbD_extractLsb', hm]
    simp [show i - m < n by omega]

/-- A join equals a value exactly when its parts are the value's. -/
theorem append_eq_iff {n m : Nat} (x : BitVec n) (y : BitVec m) (v : BitVec (n + m)) :
    x ++ y = v ↔ x = v.extractLsb' m n ∧ y = v.extractLsb' 0 m := by
  constructor
  · rintro rfl
    exact ⟨(extract_append_high x y).symm, (extract_append_low x y).symm⟩
  · rintro ⟨rfl, rfl⟩
    exact append_extract v

/-- A slice of a slice. -/
theorem extract_extract {w : Nat} (v : BitVec w) (s n s' n' : Nat) (h : s' + n' ≤ n) :
    (v.extractLsb' s n).extractLsb' s' n' = v.extractLsb' (s + s') n' := by
  ext i hi
  have : s' + i < n := by omega
  simp [← BitVec.getLsbD_eq_getElem, this, Nat.add_assoc]

end Sys2Proof
end

