-- ==== Sys2Proof/Laws/Decode.lean ====
section
/-! SUPPORT. The fields of a word made of four byte columns, the operand fields as numbers, and the payload opcodes. -/

namespace Sys2Proof

/-! ### Fields of a word given by its byte columns (R61, R62) -/

section
variable (op b2 b1 b0 : Byte)

@[simp] theorem opcodeOf_wordOf : opcodeOf (wordOf op b2 b1 b0) = op := by
  ext i hi
  simp [opcodeOf, wordOf, ← BitVec.getLsbD_eq_getElem, hi]
  grind

@[simp] theorem imm16Of_wordOf : imm16Of (wordOf op b2 b1 b0) = b1 ++ b0 := by
  ext i hi
  simp [imm16Of, wordOf, ← BitVec.getLsbD_eq_getElem, hi]
  grind

@[simp] theorem imm8Of_wordOf : imm8Of (wordOf op b2 b1 b0) = b0 :=
  extract_append_low (n := 24) (m := 8) (op ++ b2 ++ b1) b0

@[simp] theorem addr16Of_wordOf : addr16Of (wordOf op b2 b1 b0) = b2 ++ b1 := by
  ext i hi
  simp [addr16Of, wordOf, ← BitVec.getLsbD_eq_getElem, hi]
  grind

theorem zReservedClear_wordOf : zReservedClear (wordOf op b2 b1 b0) = (b2 ++ b1 ++ b0 == 0#24) := by
  have : (wordOf op b2 b1 b0).extractLsb' 0 24 = b2 ++ b1 ++ b0 := by
    ext i hi
    simp [wordOf, ← BitVec.getLsbD_eq_getElem, hi]
    grind
  simp [zReservedClear, this]

theorem i16ReservedClear_wordOf : i16ReservedClear (wordOf op b2 b1 b0) = (b2 == 0#8) := by
  have : (wordOf op b2 b1 b0).extractLsb' 16 8 = b2 := by
    ext i hi
    simp [wordOf, ← BitVec.getLsbD_eq_getElem, hi]
    grind
  simp [i16ReservedClear, this]

theorem i8ReservedClear_wordOf : i8ReservedClear (wordOf op b2 b1 b0) = (b2 ++ b1 == 0#16) := by
  have : (wordOf op b2 b1 b0).extractLsb' 8 16 = b2 ++ b1 := addr16Of_wordOf op b2 b1 b0
  simp [i8ReservedClear, this]

theorem bitOf_wordOf : bitOf (wordOf op b2 b1 b0) = b1.extractLsb' 0 3 := by
  ext i hi
  simp [bitOf, wordOf, ← BitVec.getLsbD_eq_getElem, hi]
  grind

theorem onOf_wordOf : onOf (wordOf op b2 b1 b0) = b0.getLsbD 0 :=
  (BitVec.getLsbD_append (x := op ++ b2 ++ b1) (y := b0) (i := 0)).trans (by simp)

theorem fidOf_wordOf : fidOf (wordOf op b2 b1 b0) = b0.extractLsb' 0 5 := by
  ext i hi
  simp [fidOf, wordOf, ← BitVec.getLsbD_eq_getElem, hi]
  grind

theorem bReservedClear_wordOf :
    bReservedClear (wordOf op b2 b1 b0) =
      (b2 ++ b1.extractLsb' 3 5 == 0#13 && b0.extractLsb' 1 7 == 0#7) := by
  have h1 : (wordOf op b2 b1 b0).extractLsb' 11 13 = b2 ++ b1.extractLsb' 3 5 := by
    ext i hi
    simp [wordOf, ← BitVec.getLsbD_eq_getElem, hi]
    grind
  have h2 : (wordOf op b2 b1 b0).extractLsb' 1 7 = b0.extractLsb' 1 7 := by
    ext i hi
    simp [wordOf, ← BitVec.getLsbD_eq_getElem, hi]
    grind
  simp [bReservedClear, h1, h2]

theorem fReservedClear_wordOf :
    fReservedClear (wordOf op b2 b1 b0) = (b2 ++ b1 ++ b0.extractLsb' 5 3 == 0#19) := by
  have : (wordOf op b2 b1 b0).extractLsb' 5 19 = b2 ++ b1 ++ b0.extractLsb' 5 3 := by
    ext i hi
    simp [wordOf, ← BitVec.getLsbD_eq_getElem, hi]
    grind
  simp [fReservedClear, this]

end

/-- Every word is made of its four byte columns. -/
theorem exists_wordOf (w : Word) : ∃ op b2 b1 b0, w = wordOf op b2 b1 b0 := by
  refine ⟨w.extractLsb' 24 8, w.extractLsb' 16 8, w.extractLsb' 8 8, w.extractLsb' 0 8, ?_⟩
  have h0 : w = w.extractLsb' 8 24 ++ w.extractLsb' 0 8 := (append_extract (n := 24) (m := 8) w).symm
  have h1 := append_extract (n := 16) (m := 8) (w.extractLsb' 8 24)
  have h2 := append_extract (n := 8) (m := 8) ((w.extractLsb' 8 24).extractLsb' 8 16)
  simp only [extract_extract w 8 24 8 16 (by omega), extract_extract w 8 24 0 8 (by omega),
    extract_extract w 16 16 8 8 (by omega), extract_extract w 16 16 0 8 (by omega)] at h1 h2
  simp only [wordOf, Nat.reduceAdd] at h1 h2 ⊢
  rw [h2, h1, ← h0]

/-- The columns of a word are its own. -/
theorem wordOf_eq_iff (op b2 b1 b0 op' b2' b1' b0' : Byte) :
    wordOf op b2 b1 b0 = wordOf op' b2' b1' b0' ↔ op = op' ∧ b2 = b2' ∧ b1 = b1' ∧ b0 = b0' := by
  constructor
  · intro h
    obtain ⟨h', h0⟩ := (append_eq_iff (n := 24) (m := 8) (op ++ b2 ++ b1) b0 (wordOf op' b2' b1' b0')).mp h
    rw [show (wordOf op' b2' b1' b0').extractLsb' 8 24 = op' ++ b2' ++ b1' from
      extract_append_high (op' ++ b2' ++ b1') b0'] at h'
    rw [show (wordOf op' b2' b1' b0').extractLsb' 0 8 = b0' from
      extract_append_low (op' ++ b2' ++ b1') b0'] at h0
    obtain ⟨h'', h1⟩ := (append_eq_iff (n := 16) (m := 8) (op ++ b2) b1 (op' ++ b2' ++ b1')).mp h'
    rw [extract_append_high (op' ++ b2') b1'] at h''
    rw [extract_append_low (op' ++ b2') b1'] at h1
    obtain ⟨h3, h2⟩ := (append_eq_iff (n := 8) (m := 8) op b2 (op' ++ b2')).mp h''
    rw [extract_append_high op' b2'] at h3
    rw [extract_append_low op' b2'] at h2
    exact ⟨h3, h2, h1, h0⟩
  · rintro ⟨rfl, rfl, rfl, rfl⟩
    rfl

/-- Masking a word masks its columns. -/
theorem wordOf_and (op b2 b1 b0 m3 m2 m1 m0 : Byte) :
    wordOf op b2 b1 b0 &&& wordOf m3 m2 m1 m0 = wordOf (op &&& m3) (b2 &&& m2) (b1 &&& m1) (b0 &&& m0) := by
  show ((op ++ b2 ++ b1 ++ b0 : BitVec (8 + 8 + 8 + 8)) &&& (m3 ++ m2 ++ m1 ++ m0 : BitVec (8 + 8 + 8 + 8))) =
    ((op &&& m3) ++ (b2 &&& m2) ++ (b1 &&& m1) ++ (b0 &&& m0) : BitVec (8 + 8 + 8 + 8))
  simp only [BitVec.and_append]

/-- The high and low byte of a 16-bit operand, joined. -/
@[simp] theorem hiByte_append_loByte (h : Half) : hiByte h ++ loByte h = h := append_extract (n := 8) (m := 8) h

/-! ### The operand fields as numbers (R62) -/

theorem imm16Of_toNat (w : Word) : (imm16Of w).toNat = w.toNat % 65536 := by simp [imm16Of, BitVec.extractLsb'_toNat]

theorem imm8Of_toNat (w : Word) : (imm8Of w).toNat = w.toNat % 256 := by simp [imm8Of, BitVec.extractLsb'_toNat]

theorem addr16Of_toNat (w : Word) : (addr16Of w).toNat = w.toNat / 256 % 65536 := by
  simp [addr16Of, BitVec.extractLsb'_toNat, Nat.shiftRight_eq_div_pow]

theorem bitOf_toNat (w : Word) : (bitOf w).toNat = w.toNat / 256 % 8 := by
  simp [bitOf, BitVec.extractLsb'_toNat, Nat.shiftRight_eq_div_pow]

theorem fidOf_toNat (w : Word) : (fidOf w).toNat = w.toNat % 32 := by simp [fidOf, BitVec.extractLsb'_toNat]

theorem onOf_iff (w : Word) : onOf w = true ↔ w.toNat % 2 = 1 := by simp [onOf, BitVec.getLsbD]

/-- The four payload opcodes as numbers (R74). -/
theorem isPayloadOpcode_iff :
    ∀ op : Byte, isPayloadOpcode op = true ↔ op.toNat = 0x02 ∨ op.toNat = 0x31 ∨ op.toNat = 0x32 ∨ op.toNat = 0x37 := by
  decide +kernel

/-- A word that `legalIf` accepts stands for the command given. -/
theorem legalIf_eq_ok_iff (clear : Bool) (i j : Instr) : legalIf clear i = .ok j ↔ clear = true ∧ i = j := by
  cases clear <;> simp [legalIf]

end Sys2Proof
end

