-- ==== Sys2Proof/Laws/Memory.lean ====
section
/-! SUPPORT. The laws of sparse storage: a read after a write, what a write leaves alone, and that every operation keeps
the canonical form. -/

namespace Sys2Proof.Machine

/-! ### Reading after writing -/

@[simp] theorem Memory.read_nil (a : Nat) : Memory.read [] a = none := rfl

/-- What a byte write leaves at every address. -/
theorem Memory.read_write (m : Memory) (a x : Nat) (b : Byte) :
    (m.write a b).read x = if x = a then some b else m.read x := by
  induction m with
  | nil => simp [Memory.write, Memory.read, eq_comm]
  | cons c m ih =>
    simp only [Memory.write]
    split
    · simp only [Memory.read]; grind
    · split
      · simp only [Memory.read]; grind
      · simp only [Memory.read, ih]; grind

@[simp] theorem Memory.read_write_same (m : Memory) (a : Nat) (b : Byte) : (m.write a b).read a = some b := by
  simp [Memory.read_write]

theorem Memory.read_write_other (m : Memory) {a x : Nat} (b : Byte) (h : x ≠ a) :
    (m.write a b).read x = m.read x := by
  simp [Memory.read_write, h]

/-- A fresh buffer holds its bytes from its first address on, and nothing else. -/
theorem Memory.read_ofBytes (s : List Byte) (a x : Nat) :
    (Memory.ofBytes a s).read x = if a ≤ x then s[x - a]? else none := by
  induction s generalizing a with
  | nil => simp [Memory.ofBytes]
  | cons b s ih =>
    simp only [Memory.ofBytes, Memory.read, ih]
    rcases Nat.lt_trichotomy a x with h | h | h
    · obtain ⟨k, rfl⟩ : ∃ k, x = a + 1 + k := ⟨x - (a + 1), by omega⟩
      have h1 : a ≠ a + 1 + k := by omega
      have h2 : a + 1 + k - a = k + 1 := by omega
      simp [h1, h2, show a ≤ a + 1 + k by omega]
    · subst h; simp
    · simp [show a ≠ x by omega, show ¬ a + 1 ≤ x by omega, show ¬ a ≤ x by omega]

/-- What a string of bytes leaves at every address. -/
theorem Memory.read_writeBytes (m : Memory) (s : List Byte) (a x : Nat) :
    (m.writeBytes a s).read x = if a ≤ x ∧ x < a + s.length then s[x - a]? else m.read x := by
  induction s generalizing m a with
  | nil => simp [Memory.writeBytes]
  | cons b s ih =>
    simp only [Memory.writeBytes, ih, Memory.read_write, List.length_cons]
    rcases Nat.lt_trichotomy a x with h | h | h
    · obtain ⟨k, rfl⟩ : ∃ k, x = a + 1 + k := ⟨x - (a + 1), by omega⟩
      have h2 : a + 1 + k - a = k + 1 := by omega
      simp only [h2, List.getElem?_cons_succ, Nat.add_sub_cancel_left]
      grind
    · subst h; simp
    · rw [if_neg (by omega), if_neg (by omega), if_neg (by omega)]

theorem Memory.read_writeBytes_inside (m : Memory) (s : List Byte) {a x : Nat} (h : a ≤ x) (h' : x < a + s.length) :
    (m.writeBytes a s).read x = s[x - a]? := by
  simp [Memory.read_writeBytes, h, h']

theorem Memory.read_writeBytes_outside (m : Memory) (s : List Byte) {a x : Nat} (h : x < a ∨ a + s.length ≤ x) :
    (m.writeBytes a s).read x = m.read x := by
  rw [Memory.read_writeBytes, if_neg (by omega)]

/-- What a big-endian 16-bit write leaves at every address (R40). -/
theorem Memory.read_write16 (m : Memory) (a x : Nat) (v : BitVec 16) :
    (m.write16 a v).read x =
      if x = a then some (v.extractLsb' 8 8) else if x = a + 1 then some (v.extractLsb' 0 8) else m.read x := by
  simp only [Memory.write16, Memory.read_write]; grind

/-- What a big-endian 32-bit write leaves at every address (R40). -/
theorem Memory.read_write32 (m : Memory) (a x : Nat) (v : BitVec 32) :
    (m.write32 a v).read x =
      if x = a then some (v.extractLsb' 24 8)
      else if x = a + 1 then some (v.extractLsb' 16 8)
      else if x = a + 2 then some (v.extractLsb' 8 8)
      else if x = a + 3 then some (v.extractLsb' 0 8) else m.read x := by
  simp only [Memory.write32, Memory.read_write16, extract_extract v 16 16 8 8 (by omega),
    extract_extract v 16 16 0 8 (by omega), extract_extract v 0 16 8 8 (by omega),
    extract_extract v 0 16 0 8 (by omega)]
  grind

/-! ### Wide reads -/

/-- A string of bytes that are all there is read whole. -/
theorem Memory.readBytes_eq_some_iff (m : Memory) (a n : Nat) (s : List Byte) :
    m.readBytes a n = some s ↔ s.length = n ∧ ∀ i, i < n → m.read (a + i) = s[i]? := by
  induction n generalizing a s with
  | zero =>
    simp only [Memory.readBytes, Option.some.injEq, List.length_eq_zero_iff, Nat.not_lt_zero, false_implies,
      implies_true, and_true]
    exact eq_comm
  | succ n ih =>
    simp only [Memory.readBytes]
    constructor
    · intro h
      cases hb : m.read a with
      | none => simp [hb] at h
      | some b =>
        cases ht : m.readBytes (a + 1) n with
        | none => simp [hb, ht] at h
        | some t =>
          simp only [hb, ht, Option.some.injEq] at h
          subst h
          obtain ⟨hl, hr⟩ := (ih (a + 1) t).mp ht
          refine ⟨by simp [hl], fun i hi => ?_⟩
          cases i with
          | zero => simpa using hb
          | succ i => simpa [Nat.add_assoc, Nat.add_comm 1 i] using hr i (by omega)
    · rintro ⟨hl, hr⟩
      cases s with
      | nil => simp at hl
      | cons b t =>
        have h0 := hr 0 (by omega)
        have ht : m.readBytes (a + 1) n = some t := (ih (a + 1) t).mpr
          ⟨by simpa using hl, fun i hi => by
            simpa [Nat.add_assoc, Nat.add_comm 1 i] using hr (i + 1) (by omega)⟩
        simp only [Nat.add_zero, List.getElem?_cons_zero] at h0
        simp [h0, ht]

/-- A byte-string register is loaded with exactly the bytes it copies (R27). -/
theorem Memory.readVec_eq_some_iff (m : Memory) (a n : Nat) (v : Vector Byte n) :
    m.readVec a n = some v ↔ ∀ i (h : i < n), m.read (a + i) = some v[i] := by
  induction n with
  | zero => simp [Memory.readVec, Vector.eq_empty]
  | succ n ih =>
    simp only [Memory.readVec]
    constructor
    · intro h i hi
      cases hv : m.readVec a n with
      | none => simp [hv] at h
      | some w =>
        cases hb : m.read (a + n) with
        | none => simp [hv, hb] at h
        | some b =>
          simp only [hv, hb, Option.some.injEq] at h
          subst h
          by_cases hin : i < n
          · simpa [Vector.getElem_push_lt hin] using (ih w).mp hv i hin
          · obtain rfl : i = n := by omega
            simpa using hb
    · intro h
      have hv : m.readVec a n = some v.pop := (ih v.pop).mpr fun i hi => by
        simpa using h i (by omega)
      have hb : m.read (a + n) = some v.back := by
        simpa [Vector.back] using h n (by omega)
      simp [hv, hb, Vector.push_pop_back]

/-- A 16-bit read succeeds exactly where both its bytes are there, high byte first (R40). -/
theorem Memory.read16_eq_some_iff (m : Memory) (a : Nat) (v : BitVec 16) :
    m.read16 a = some v ↔ m.read a = some (v.extractLsb' 8 8) ∧ m.read (a + 1) = some (v.extractLsb' 0 8) := by
  simp only [Memory.read16]
  cases m.read a <;> cases m.read (a + 1) <;> simp [append_eq_iff (n := 8) (m := 8)]

/-- A 32-bit read succeeds exactly where both its halves do, high half first (R40). -/
theorem Memory.read32_eq_some_iff (m : Memory) (a : Nat) (v : BitVec 32) :
    m.read32 a = some v ↔
      m.read16 a = some (v.extractLsb' 16 16) ∧ m.read16 (a + 2) = some (v.extractLsb' 0 16) := by
  simp only [Memory.read32]
  cases m.read16 a <;> cases m.read16 (a + 2) <;> simp [append_eq_iff (n := 16) (m := 16)]

/-- A 16-bit read after the write of it gives the value written (R40). -/
@[simp] theorem Memory.read16_write16_same (m : Memory) (a : Nat) (v : BitVec 16) :
    (m.write16 a v).read16 a = some v := by
  simp [Memory.read16_eq_some_iff, Memory.read_write16]

/-- A 32-bit read after the write of it gives the value written (R40). -/
@[simp] theorem Memory.read32_write32_same (m : Memory) (a : Nat) (v : BitVec 32) :
    (m.write32 a v).read32 a = some v := by
  simp [Memory.read32_eq_some_iff, Memory.read16_eq_some_iff, Memory.read_write32,
    extract_extract v 16 16 8 8 (by omega), extract_extract v 16 16 0 8 (by omega),
    extract_extract v 0 16 8 8 (by omega), extract_extract v 0 16 0 8 (by omega), Nat.add_assoc]

/-- A 16-bit read where both bytes are there succeeds. -/
theorem Memory.read16_isSome {m : Memory} {a : Nat} (h0 : (m.read a).isSome) (h1 : (m.read (a + 1)).isSome) :
    ∃ v, m.read16 a = some v := by
  obtain ⟨x, hx⟩ := Option.isSome_iff_exists.mp h0
  obtain ⟨y, hy⟩ := Option.isSome_iff_exists.mp h1
  exact ⟨x ++ y, by simp [Memory.read16, hx, hy]⟩

/-- A 32-bit read where its four bytes are there succeeds. -/
theorem Memory.read32_isSome {m : Memory} {a : Nat} (h : ∀ i, i < 4 → (m.read (a + i)).isSome) :
    ∃ v, m.read32 a = some v := by
  obtain ⟨x, hx⟩ := Memory.read16_isSome (h 0 (by omega)) (h 1 (by omega))
  obtain ⟨y, hy⟩ := Memory.read16_isSome (m := m) (a := a + 2) (h 2 (by omega)) (h 3 (by omega))
  rw [Nat.add_zero] at hx
  exact ⟨x ++ y, by simp [Memory.read32, hx, hy]⟩

/-- A byte string whose bytes are all there is read. -/
theorem Memory.readVec_isSome {m : Memory} {a : Nat} :
    (n : Nat) → (∀ i, i < n → (m.read (a + i)).isSome) → ∃ v, m.readVec a n = some v
  | 0, _ => ⟨#v[], rfl⟩
  | n + 1, h => by
    obtain ⟨v, hv⟩ := Memory.readVec_isSome n fun i hi => h i (by omega)
    obtain ⟨b, hb⟩ := Option.isSome_iff_exists.mp (h n (by omega))
    exact ⟨v.push b, by simp [Memory.readVec, hv, hb]⟩

/-- A string of bytes that are all there is read. -/
theorem Memory.readBytes_isSome {m : Memory} {a : Nat} :
    (n : Nat) → (∀ i, i < n → (m.read (a + i)).isSome) → ∃ s, m.readBytes a n = some s
  | 0, _ => ⟨[], rfl⟩
  | n + 1, h => by
    obtain ⟨s, hs⟩ := Memory.readBytes_isSome (m := m) (a := a + 1) n fun i hi => by
      simpa [Nat.add_assoc, Nat.add_comm 1 i] using h (i + 1) (by omega)
    obtain ⟨b, hb⟩ := Option.isSome_iff_exists.mp (h 0 (by omega))
    exact ⟨b :: s, by simp [Memory.readBytes, hs, show m.read a = some b from hb]⟩

/-! ### Reads see only the bytes they read -/

theorem Memory.read16_congr {m m' : Memory} {a : Nat} (h0 : m.read a = m'.read a)
    (h1 : m.read (a + 1) = m'.read (a + 1)) : m.read16 a = m'.read16 a := by
  simp [Memory.read16, h0, h1]

theorem Memory.read32_congr {m m' : Memory} {a : Nat} (h : ∀ i, i < 4 → m.read (a + i) = m'.read (a + i)) :
    m.read32 a = m'.read32 a := by
  have h0 : m.read16 a = m'.read16 a := Memory.read16_congr (h 0 (by omega)) (h 1 (by omega))
  have h2 : m.read16 (a + 2) = m'.read16 (a + 2) := Memory.read16_congr (h 2 (by omega)) (h 3 (by omega))
  simp only [Memory.read32, h0, h2]

theorem Memory.readVec_congr {m m' : Memory} {a : Nat} :
    (n : Nat) → (∀ i, i < n → m.read (a + i) = m'.read (a + i)) → m.readVec a n = m'.readVec a n
  | 0, _ => rfl
  | n + 1, h => by
    simp [Memory.readVec, Memory.readVec_congr n fun i hi => h i (by omega), h n (by omega)]

theorem Memory.readBytes_congr {m m' : Memory} {a : Nat} :
    (n : Nat) → (∀ i, i < n → m.read (a + i) = m'.read (a + i)) → m.readBytes a n = m'.readBytes a n
  | 0, _ => rfl
  | n + 1, h => by
    have ht := Memory.readBytes_congr (m := m) (m' := m') (a := a + 1) n fun i hi => by
      simpa [Nat.add_assoc, Nat.add_comm 1 i] using h (i + 1) (by omega)
    simp only [Memory.readBytes, ht, show m.read a = m'.read a from h 0 (by omega)]

/-! ### The canonical form -/

/-- A memory with its keys in rising order, as a proposition. -/
theorem Memory.wf_iff (m : Memory) : m.wf = true ↔ m.Pairwise fun x y => x.1 < y.1 := by
  simp [Memory.wf]

@[simp] theorem Memory.wf_nil : Memory.wf [] = true := rfl

/-- A write adds at most its own key. -/
theorem Memory.mem_write {m : Memory} {a : Nat} {b : Byte} {c : Host.Cell} (h : c ∈ m.write a b) :
    c = (a, b) ∨ c ∈ m := by
  induction m with
  | nil => simpa [Memory.write] using h
  | cons d m ih =>
    simp only [Memory.write] at h
    split at h
    · simpa using h
    · split at h
      · rcases List.mem_cons.mp h with h | h
        · exact .inl h
        · exact .inr (List.mem_cons_of_mem _ h)
      · rcases List.mem_cons.mp h with h | h
        · exact .inr (by simp [h])
        · exact (ih h).imp id (List.mem_cons_of_mem _)

/-- A byte write keeps the canonical form. -/
theorem Memory.wf_write {m : Memory} (h : m.wf = true) (a : Nat) (b : Byte) : (m.write a b).wf = true := by
  rw [Memory.wf_iff] at h ⊢
  induction m with
  | nil => simp [Memory.write]
  | cons c m ih =>
    obtain ⟨hc, hm⟩ := List.pairwise_cons.mp h
    simp only [Memory.write]
    split
    · refine List.pairwise_cons.mpr ⟨fun d hd => ?_, h⟩
      rcases List.mem_cons.mp hd with rfl | hd
      · assumption
      · have := hc d hd; simp only; omega
    · split
      · exact List.pairwise_cons.mpr ⟨fun d hd => by have := hc d hd; simp only; omega, hm⟩
      · refine List.pairwise_cons.mpr ⟨fun d hd => ?_, ih hm⟩
        rcases Memory.mem_write hd with rfl | hd
        · simp only; omega
        · exact hc d hd

/-- A string of bytes keeps the canonical form. -/
theorem Memory.wf_writeBytes {m : Memory} (h : m.wf = true) (a : Nat) (s : List Byte) :
    (m.writeBytes a s).wf = true := by
  induction s generalizing m a with
  | nil => exact h
  | cons b s ih => exact ih (Memory.wf_write h a b) (a + 1)

theorem Memory.wf_write16 {m : Memory} (h : m.wf = true) (a : Nat) (v : BitVec 16) : (m.write16 a v).wf = true :=
  Memory.wf_write (Memory.wf_write h a _) (a + 1) _

theorem Memory.wf_write32 {m : Memory} (h : m.wf = true) (a : Nat) (v : BitVec 32) : (m.write32 a v).wf = true :=
  Memory.wf_write16 (Memory.wf_write16 h a _) (a + 2) _

/-- The keys of a fresh buffer. -/
theorem Memory.keys_ofBytes (a : Nat) (s : List Byte) : (Memory.ofBytes a s).map Prod.fst = List.range' a s.length := by
  induction s generalizing a with
  | nil => rfl
  | cons b s ih => simp [Memory.ofBytes, ih, List.range'_succ]

/-- A memory whose keys are the numbers below `n` is in canonical form. -/
theorem Memory.wf_of_keys_range {m : Memory} {n : Nat} (h : m.map Prod.fst = List.range n) : m.wf = true := by
  rw [Memory.wf_iff]
  have : (m.map Prod.fst).Pairwise (· < ·) := h ▸ List.pairwise_lt_range
  exact List.pairwise_map.mp this

/-- A fresh buffer is in canonical form. -/
theorem Memory.wf_ofBytes (s : List Byte) : (Memory.ofBytes 0 s).wf = true :=
  Memory.wf_of_keys_range (n := s.length) (by rw [Memory.keys_ofBytes, List.range_eq_range'])

/-! ### Written addresses -/

/-- An address has a byte exactly when it is a key. -/
theorem Memory.read_isSome_iff (m : Memory) (a : Nat) : (m.read a).isSome ↔ a ∈ m.map Prod.fst := by
  induction m with
  | nil => simp
  | cons c m ih =>
    simp only [Memory.read, List.map_cons, List.mem_cons]
    split
    · simp_all
    · rename_i h
      rw [ih]
      exact ⟨.inr, fun h' => h'.resolve_left fun e => h e.symm⟩

/-- Where the keys are the numbers below `n`, exactly those addresses have a byte. -/
theorem Memory.read_isSome_of_keys_range {m : Memory} {n : Nat} (h : m.map Prod.fst = List.range n) (a : Nat) :
    (m.read a).isSome ↔ a < n := by
  rw [Memory.read_isSome_iff, h, List.mem_range]

/-- Writing at an address that has a byte, in a memory in canonical form, keeps the keys. -/
theorem Memory.keys_write {m : Memory} (hwf : m.wf = true) {a : Nat} (ha : a ∈ m.map Prod.fst) (b : Byte) :
    (m.write a b).map Prod.fst = m.map Prod.fst := by
  rw [Memory.wf_iff] at hwf
  induction m with
  | nil => simp at ha
  | cons c m ih =>
    obtain ⟨hc, hm⟩ := List.pairwise_cons.mp hwf
    simp only [List.map_cons, List.mem_cons] at ha
    simp only [Memory.write]
    split
    · rename_i hlt
      rcases ha with rfl | ha
      · omega
      · obtain ⟨d, hd, rfl⟩ := List.mem_map.mp ha
        have := hc d hd
        omega
    · split
      · simp_all
      · rcases ha with rfl | ha
        · omega
        · simp [ih hm ha]

/-- Writing below `n` keeps the keys the numbers below `n`. -/
theorem Memory.keys_range_write {m : Memory} {n : Nat} (h : m.map Prod.fst = List.range n) {a : Nat} (ha : a < n)
    (b : Byte) : (m.write a b).map Prod.fst = List.range n := by
  rw [Memory.keys_write (Memory.wf_of_keys_range h) (by simpa [h] using ha), h]

theorem Memory.keys_range_writeBytes {m : Memory} {n : Nat} (h : m.map Prod.fst = List.range n) {a : Nat}
    {s : List Byte} (ha : a + s.length ≤ n) : (m.writeBytes a s).map Prod.fst = List.range n := by
  induction s generalizing m a with
  | nil => exact h
  | cons b s ih =>
    rw [List.length_cons] at ha
    exact ih (Memory.keys_range_write h (by omega) b) (by omega)

theorem Memory.keys_range_write16 {m : Memory} {n : Nat} (h : m.map Prod.fst = List.range n) {a : Nat}
    (ha : a + 2 ≤ n) (v : BitVec 16) : (m.write16 a v).map Prod.fst = List.range n :=
  Memory.keys_range_write (Memory.keys_range_write h (by omega) _) (by omega) _

theorem Memory.keys_range_write32 {m : Memory} {n : Nat} (h : m.map Prod.fst = List.range n) {a : Nat}
    (ha : a + 4 ≤ n) (v : BitVec 32) : (m.write32 a v).map Prod.fst = List.range n :=
  Memory.keys_range_write16 (Memory.keys_range_write16 h (by omega) _) (by omega) _

end Sys2Proof.Machine
end

