-- ==== Sys2Proof/Laws/State.lean ====
section
/-! SUPPORT. What each update of the state leaves in each field, and PSTATE and the registers seen through the updates. -/

namespace Sys2Proof.Machine

@[simp] theorem State.setResp_cfg (r : Response) (s : State) : (s.setResp r).cfg = s.cfg := rfl
@[simp] theorem State.setResp_life (r : Response) (s : State) : (s.setResp r).life = s.life := rfl
@[simp] theorem State.setResp_len (r : Response) (s : State) : (s.setResp r).len = s.len := rfl
@[simp] theorem State.setResp_buf (r : Response) (s : State) : (s.setResp r).buf = s.buf := rfl
@[simp] theorem State.setResp_trk (r : Response) (s : State) : (s.setResp r).trk = s.trk := rfl
@[simp] theorem State.setResp_cmds (r : Response) (s : State) : (s.setResp r).cmds = s.cmds := rfl
@[simp] theorem State.setResp_resp (r : Response) (s : State) : (s.setResp r).resp = some r := rfl

@[simp] theorem State.setBuf_cfg (m : Memory) (s : State) : (s.setBuf m).cfg = s.cfg := rfl
@[simp] theorem State.setBuf_life (m : Memory) (s : State) : (s.setBuf m).life = s.life := rfl
@[simp] theorem State.setBuf_len (m : Memory) (s : State) : (s.setBuf m).len = s.len := rfl
@[simp] theorem State.setBuf_buf (m : Memory) (s : State) : (s.setBuf m).buf = m := rfl
@[simp] theorem State.setBuf_trk (m : Memory) (s : State) : (s.setBuf m).trk = s.trk := rfl
@[simp] theorem State.setBuf_cmds (m : Memory) (s : State) : (s.setBuf m).cmds = s.cmds := rfl
@[simp] theorem State.setBuf_resp (m : Memory) (s : State) : (s.setBuf m).resp = s.resp := rfl

@[simp] theorem State.setTrk_cfg (u : BitVec 16) (v : Byte) (s : State) : (s.setTrk u v).cfg = s.cfg := rfl
@[simp] theorem State.setTrk_life (u : BitVec 16) (v : Byte) (s : State) : (s.setTrk u v).life = s.life := rfl
@[simp] theorem State.setTrk_len (u : BitVec 16) (v : Byte) (s : State) : (s.setTrk u v).len = s.len := rfl
@[simp] theorem State.setTrk_buf (u : BitVec 16) (v : Byte) (s : State) : (s.setTrk u v).buf = s.buf := rfl
@[simp] theorem State.setTrk_trk (u : BitVec 16) (v : Byte) (s : State) : (s.setTrk u v).trk = s.trk.write u.toNat v := rfl
@[simp] theorem State.setTrk_cmds (u : BitVec 16) (v : Byte) (s : State) : (s.setTrk u v).cmds = s.cmds := rfl
@[simp] theorem State.setTrk_resp (u : BitVec 16) (v : Byte) (s : State) : (s.setTrk u v).resp = s.resp := rfl

@[simp] theorem State.setRegs_cfg (f : FieldRegs) (s : State) : (s.setRegs f).cfg = s.cfg := rfl
@[simp] theorem State.setRegs_life (f : FieldRegs) (s : State) : (s.setRegs f).life = s.life.withRegs f := rfl
@[simp] theorem State.setRegs_len (f : FieldRegs) (s : State) : (s.setRegs f).len = s.len := rfl
@[simp] theorem State.setRegs_buf (f : FieldRegs) (s : State) : (s.setRegs f).buf = s.buf := rfl
@[simp] theorem State.setRegs_trk (f : FieldRegs) (s : State) : (s.setRegs f).trk = s.trk := rfl
@[simp] theorem State.setRegs_cmds (f : FieldRegs) (s : State) : (s.setRegs f).cmds = s.cmds := rfl
@[simp] theorem State.setRegs_resp (f : FieldRegs) (s : State) : (s.setRegs f).resp = s.resp := rfl

@[simp] theorem State.newPacket_cfg (l : Lifecycle) (n : BitVec 16) (m : Memory) (s : State) : (s.newPacket l n m).cfg = s.cfg := rfl
@[simp] theorem State.newPacket_life (l : Lifecycle) (n : BitVec 16) (m : Memory) (s : State) : (s.newPacket l n m).life = l := rfl
@[simp] theorem State.newPacket_len (l : Lifecycle) (n : BitVec 16) (m : Memory) (s : State) : (s.newPacket l n m).len = n := rfl
@[simp] theorem State.newPacket_buf (l : Lifecycle) (n : BitVec 16) (m : Memory) (s : State) : (s.newPacket l n m).buf = m := rfl
@[simp] theorem State.newPacket_trk (l : Lifecycle) (n : BitVec 16) (m : Memory) (s : State) : (s.newPacket l n m).trk = s.trk := rfl
@[simp] theorem State.newPacket_cmds (l : Lifecycle) (n : BitVec 16) (m : Memory) (s : State) : (s.newPacket l n m).cmds = s.cmds := rfl
@[simp] theorem State.newPacket_resp (l : Lifecycle) (n : BitVec 16) (m : Memory) (s : State) : (s.newPacket l n m).resp = s.resp := rfl

@[simp] theorem State.setCmds_cfg (cs : List Command) (s : State) : (s.setCmds cs).cfg = s.cfg := rfl
@[simp] theorem State.setCmds_life (cs : List Command) (s : State) : (s.setCmds cs).life = s.life := rfl
@[simp] theorem State.setCmds_len (cs : List Command) (s : State) : (s.setCmds cs).len = s.len := rfl
@[simp] theorem State.setCmds_buf (cs : List Command) (s : State) : (s.setCmds cs).buf = s.buf := rfl
@[simp] theorem State.setCmds_trk (cs : List Command) (s : State) : (s.setCmds cs).trk = s.trk := rfl
@[simp] theorem State.setCmds_cmds (cs : List Command) (s : State) : (s.setCmds cs).cmds = cs := rfl
@[simp] theorem State.setCmds_resp (cs : List Command) (s : State) : (s.setCmds cs).resp = s.resp := rfl

@[simp] theorem State.setResp_pstate (r : Response) (s : State) : (s.setResp r).pstate = s.pstate := rfl
@[simp] theorem State.setResp_fieldRegs (r : Response) (s : State) : (s.setResp r).fieldRegs = s.fieldRegs := rfl
@[simp] theorem State.setResp_nslots (r : Response) (s : State) : (s.setResp r).nslots = s.nslots := rfl
@[simp] theorem State.setResp_trkAt (r : Response) (s : State) (x : BitVec 16) : (s.setResp r).trkAt x = s.trkAt x := rfl
@[simp] theorem State.setBuf_pstate (m : Memory) (s : State) : (s.setBuf m).pstate = s.pstate := rfl
@[simp] theorem State.setBuf_fieldRegs (m : Memory) (s : State) : (s.setBuf m).fieldRegs = s.fieldRegs := rfl
@[simp] theorem State.setBuf_nslots (m : Memory) (s : State) : (s.setBuf m).nslots = s.nslots := rfl
@[simp] theorem State.setBuf_trkAt (m : Memory) (s : State) (x : BitVec 16) : (s.setBuf m).trkAt x = s.trkAt x := rfl
@[simp] theorem State.setTrk_pstate (u : BitVec 16) (v : Byte) (s : State) : (s.setTrk u v).pstate = s.pstate := rfl
@[simp] theorem State.setTrk_fieldRegs (u : BitVec 16) (v : Byte) (s : State) : (s.setTrk u v).fieldRegs = s.fieldRegs := rfl
@[simp] theorem State.setTrk_nslots (u : BitVec 16) (v : Byte) (s : State) : (s.setTrk u v).nslots = s.nslots := rfl
@[simp] theorem State.setRegs_nslots (f : FieldRegs) (s : State) : (s.setRegs f).nslots = s.nslots := rfl
@[simp] theorem State.setRegs_trkAt (f : FieldRegs) (s : State) (x : BitVec 16) : (s.setRegs f).trkAt x = s.trkAt x := rfl
@[simp] theorem State.newPacket_trkAt (l : Lifecycle) (n : BitVec 16) (m : Memory) (s : State) (x : BitVec 16) : (s.newPacket l n m).trkAt x = s.trkAt x := rfl
@[simp] theorem State.setCmds_pstate (cs : List Command) (s : State) : (s.setCmds cs).pstate = s.pstate := rfl
@[simp] theorem State.setCmds_fieldRegs (cs : List Command) (s : State) : (s.setCmds cs).fieldRegs = s.fieldRegs := rfl
@[simp] theorem State.setCmds_nslots (cs : List Command) (s : State) : (s.setCmds cs).nslots = s.nslots := rfl
@[simp] theorem State.setCmds_trkAt (cs : List Command) (s : State) (x : BitVec 16) : (s.setCmds cs).trkAt x = s.trkAt x := rfl

/-- A built packet is INITIALIZED (R25). -/
@[simp] theorem State.newPacket_initialized_pstate (f : FieldRegs) (n : BitVec 16) (m : Memory) (s : State) : (s.newPacket (.initialized f) n m).pstate = .initialized := rfl
@[simp] theorem State.newPacket_initialized_fieldRegs (f : FieldRegs) (n : BitVec 16) (m : Memory) (s : State) : (s.newPacket (.initialized f) n m).fieldRegs = some f := rfl
/-- A received packet is PARSED (R25). -/
@[simp] theorem State.newPacket_parsed_pstate (f : FieldRegs) (n : BitVec 16) (m : Memory) (s : State) : (s.newPacket (.parsed f) n m).pstate = .parsed := rfl
@[simp] theorem State.newPacket_parsed_fieldRegs (f : FieldRegs) (n : BitVec 16) (m : Memory) (s : State) : (s.newPacket (.parsed f) n m).fieldRegs = some f := rfl

/-- Loading registers keeps PSTATE (R25). -/
@[simp] theorem State.setRegs_pstate (f : FieldRegs) (s : State) : (s.setRegs f).pstate = s.pstate := by
  cases h : s.life <;> simp [State.pstate, State.setRegs, Lifecycle.withRegs, h]

/-- Where a packet exists, the registers loaded are the registers read. -/
theorem State.setRegs_fieldRegs {s : State} {g : FieldRegs} (h : s.fieldRegs = some g) (f : FieldRegs) :
    (s.setRegs f).fieldRegs = some f := by
  cases hl : s.life <;> simp_all [State.fieldRegs, State.setRegs, Lifecycle.withRegs]

/-- The registers hold a value exactly outside UNINIT (R29). -/
theorem State.fieldRegs_isSome_iff (s : State) : s.fieldRegs.isSome ↔ s.pstate ≠ .uninit := by
  cases h : s.life <;> simp [State.fieldRegs, State.pstate, h]

/-- Outside UNINIT there are registers to read. -/
theorem State.exists_fieldRegs {s : State} (h : s.pstate ≠ .uninit) : ∃ f, s.fieldRegs = some f :=
  Option.isSome_iff_exists.mp (s.fieldRegs_isSome_iff.mpr h)

/-- A state with registers is not in UNINIT. -/
theorem State.pstate_of_fieldRegs {s : State} {f : FieldRegs} (h : s.fieldRegs = some f) : s.pstate ≠ .uninit :=
  s.fieldRegs_isSome_iff.mp (by simp [h])

/-- Loading registers twice leaves the last ones. -/
@[simp] theorem State.setRegs_setRegs (f g : FieldRegs) (s : State) : (s.setRegs f).setRegs g = s.setRegs g := by
  cases h : s.life <;> simp [State.setRegs, Lifecycle.withRegs, h]

/-- Loading the registers a state already holds changes nothing. -/
theorem State.setRegs_self {s : State} {f : FieldRegs} (h : s.fieldRegs = some f) : s.setRegs f = s := by
  cases s with
  | mk cfg life len buf trk cmds resp => cases life <;> simp_all [State.fieldRegs, State.setRegs, Lifecycle.withRegs]

/-- Replacing the buffer by itself changes nothing. -/
@[simp] theorem State.setBuf_self (s : State) : s.setBuf s.buf = s := rfl

/-- The response is a port of its own: it commutes with loading registers. -/
theorem State.setResp_setRegs (r : Response) (f : FieldRegs) (s : State) :
    (s.setRegs f).setResp r = (s.setResp r).setRegs f := rfl

end Sys2Proof.Machine
end

