-- ==== Sys2Proof/Laws/Ops.lean ====
section
/-! SUPPORT. For each shared operation, once, what it can do: the response and the error response, the state test, the
use of a buffer value, the parser, the re-derivation of a layer, and taking the next command. -/

namespace Sys2Proof.Machine

/-! ### Ending a command -/

theorem respond_eq_next_iff (st : Status) (v : BitVec 32) (d : List Byte) (s t : State) :
    respond st v d s = .next t ↔ t = s.setResp ⟨st, v, d⟩ := by
  simp [respond, eq_comm]

theorem raise_eq_next_iff (e : Status) (s t : State) : raise e s = .next t ↔ t = s.setResp ⟨e, 0, []⟩ :=
  respond_eq_next_iff e 0 [] s t

@[simp] theorem answer_respond (st : Status) (v : BitVec 32) (d : List Byte) (s : State) :
    answer (respond st v d s) = some ⟨st, v, d⟩ := rfl

@[simp] theorem answer_raise (e : Status) (s : State) : answer (raise e s) = some ⟨e, 0, []⟩ := rfl

@[simp] theorem orUnwritten_some {α : Type} (x : α) (k : α → Result) : orUnwritten (some x) k = k x := rfl

/-- A value made of buffer bytes is used only where all of them were written. -/
theorem orUnwritten_eq_next_iff {α : Type} (o : Option α) (k : α → Result) (t : State) :
    orUnwritten o k = .next t ↔ ∃ x, o = some x ∧ k x = .next t := by
  cases o <;> simp [orUnwritten]

/-! ### The state test (R143) -/

theorem withRegs_uninit {s : State} (h : s.pstate = .uninit) (k : FieldRegs → Result) :
    withRegs s k = raise .errState s := by
  cases hl : s.life <;> simp_all [withRegs, State.pstate]

theorem withRegs_some {s : State} {f : FieldRegs} (h : s.fieldRegs = some f) (k : FieldRegs → Result) :
    withRegs s k = k f := by
  cases hl : s.life <;> simp_all [withRegs, State.fieldRegs]

/-- A command with a state test ends in ERR_STATE without a packet, and else runs on the packet's registers. -/
theorem withRegs_eq_next_iff (s t : State) (k : FieldRegs → Result) :
    withRegs s k = .next t ↔
      (s.pstate = .uninit ∧ t = s.setResp ⟨.errState, 0, []⟩) ∨ ∃ f, s.fieldRegs = some f ∧ k f = .next t := by
  cases hl : s.life <;> simp [withRegs, State.pstate, State.fieldRegs, hl, raise_eq_next_iff]

/-! ### The parser (R84) -/

theorem parseRoot_eq_some_iff (m : Memory) (r : RootRegs) :
    parseRoot m = some r ↔
      m.read16 0 = some r.pre ∧ m.read16 2 = some r.post ∧ m.readVec 4 12 = some r.pid ∧
        m.read16 16 = some r.rflen ∧ m.read32 18 = some r.rvec ∧ m.readVec 22 16 = some r.cid := by
  cases r
  simp only [parseRoot, Option.bind_eq_bind, Option.bind_eq_some_iff, Option.pure_def, Option.some.injEq,
    RootRegs.mk.injEq]
  constructor
  · rintro ⟨_, h1, _, h2, _, h3, _, h4, _, h5, _, h6, rfl, rfl, rfl, rfl, rfl, rfl⟩
    exact ⟨h1, h2, h3, h4, h5, h6⟩
  · rintro ⟨h1, h2, h3, h4, h5, h6⟩
    exact ⟨_, h1, _, h2, _, h3, _, h4, _, h5, _, h6, rfl, rfl, rfl, rfl, rfl, rfl⟩

theorem parseFrame_eq_some_iff (m : Memory) (r : FrameRegs) :
    parseFrame m = some r ↔
      m.read16 38 = some r.fflen ∧ m.read32 40 = some r.fvec ∧ m.readVec 44 64 = some r.name ∧
        m.read 108 = some r.prio ∧ m.read16 109 = some r.rsvd ∧ m.read 111 = some r.seq ∧
        m.read 112 = some r.opts ∧ m.read16 113 = some r.univ := by
  cases r
  simp only [parseFrame, Option.bind_eq_bind, Option.bind_eq_some_iff, Option.pure_def, Option.some.injEq,
    FrameRegs.mk.injEq]
  constructor
  · rintro ⟨_, h1, _, h2, _, h3, _, h4, _, h5, _, h6, _, h7, _, h8, rfl, rfl, rfl, rfl, rfl, rfl, rfl, rfl⟩
    exact ⟨h1, h2, h3, h4, h5, h6, h7, h8⟩
  · rintro ⟨h1, h2, h3, h4, h5, h6, h7, h8⟩
    exact ⟨_, h1, _, h2, _, h3, _, h4, _, h5, _, h6, _, h7, _, h8, rfl, rfl, rfl, rfl, rfl, rfl, rfl, rfl⟩

theorem parseDmp_eq_some_iff (m : Memory) (r : DmpRegs) :
    parseDmp m = some r ↔
      m.read16 115 = some r.dflen ∧ m.read 117 = some r.dvec ∧ m.read 118 = some r.dtype ∧
        m.read16 119 = some r.faddr ∧ m.read16 121 = some r.ainc ∧ m.read16 123 = some r.pvc := by
  cases r
  simp only [parseDmp, Option.bind_eq_bind, Option.bind_eq_some_iff, Option.pure_def, Option.some.injEq,
    DmpRegs.mk.injEq]
  constructor
  · rintro ⟨_, h1, _, h2, _, h3, _, h4, _, h5, _, h6, rfl, rfl, rfl, rfl, rfl, rfl⟩
    exact ⟨h1, h2, h3, h4, h5, h6⟩
  · rintro ⟨h1, h2, h3, h4, h5, h6⟩
    exact ⟨_, h1, _, h2, _, h3, _, h4, _, h5, _, h6, rfl, rfl, rfl, rfl, rfl, rfl⟩

theorem parseAll_eq_some_iff (m : Memory) (f : FieldRegs) :
    parseAll m = some f ↔
      parseRoot m = some f.root ∧ parseFrame m = some f.frame ∧ parseDmp m = some f.dmp := by
  cases f
  simp only [parseAll, Option.bind_eq_bind, Option.bind_eq_some_iff, Option.pure_def, Option.some.injEq,
    FieldRegs.mk.injEq]
  constructor
  · rintro ⟨_, h1, _, h2, _, h3, rfl, rfl, rfl⟩
    exact ⟨h1, h2, h3⟩
  · rintro ⟨h1, h2, h3⟩
    exact ⟨_, h1, _, h2, _, h3, rfl, rfl, rfl⟩

/-- `ParseRoot()` reads bytes 0 to 37 and nothing else (R42, R84). -/
theorem parseRoot_congr {m m' : Memory} (h : ∀ a, a ≤ 37 → m.read a = m'.read a) : parseRoot m = parseRoot m' := by
  have h16 : ∀ a, a ≤ 36 → m.read16 a = m'.read16 a := fun a ha =>
    Memory.read16_congr (h a (by omega)) (h (a + 1) (by omega))
  have hpid : m.readVec 4 12 = m'.readVec 4 12 := Memory.readVec_congr 12 fun i hi => h _ (by omega)
  have hvec : m.read32 18 = m'.read32 18 := Memory.read32_congr fun i hi => h _ (by omega)
  have hcid : m.readVec 22 16 = m'.readVec 22 16 := Memory.readVec_congr 16 fun i hi => h _ (by omega)
  simp only [parseRoot, h16 0 (by omega), h16 2 (by omega), h16 16 (by omega), hpid, hvec, hcid]

/-- `ParseFrame()` reads bytes 38 to 114 and nothing else (R42, R84). -/
theorem parseFrame_congr {m m' : Memory} (h : ∀ a, 38 ≤ a → a ≤ 114 → m.read a = m'.read a) :
    parseFrame m = parseFrame m' := by
  have h16 : ∀ a, 38 ≤ a → a ≤ 113 → m.read16 a = m'.read16 a := fun a ha ha' =>
    Memory.read16_congr (h a ha (by omega)) (h (a + 1) (by omega) (by omega))
  have hvec : m.read32 40 = m'.read32 40 := Memory.read32_congr fun i hi => h _ (by omega) (by omega)
  have hname : m.readVec 44 64 = m'.readVec 44 64 :=
    Memory.readVec_congr 64 fun i hi => h _ (by omega) (by omega)
  simp only [parseFrame, h16 38 (by omega) (by omega), h16 109 (by omega) (by omega), h16 113 (by omega) (by omega),
    h 108 (by omega) (by omega), h 111 (by omega) (by omega), h 112 (by omega) (by omega), hvec, hname]

/-- `ParseDMP()` reads bytes 115 to 124 and nothing else (R42, R84). -/
theorem parseDmp_congr {m m' : Memory} (h : ∀ a, 115 ≤ a → a ≤ 124 → m.read a = m'.read a) :
    parseDmp m = parseDmp m' := by
  have h16 : ∀ a, 115 ≤ a → a ≤ 123 → m.read16 a = m'.read16 a := fun a ha ha' =>
    Memory.read16_congr (h a ha (by omega)) (h (a + 1) (by omega) (by omega))
  simp only [parseDmp, h16 115 (by omega) (by omega), h16 119 (by omega) (by omega), h16 121 (by omega) (by omega),
    h16 123 (by omega) (by omega), h 117 (by omega) (by omega), h 118 (by omega) (by omega)]

/-- `ParseRoot()` succeeds where bytes 0 to 37 were written. -/
theorem parseRoot_isSome {m : Memory} (h : ∀ a, a ≤ 37 → (m.read a).isSome) : ∃ r, parseRoot m = some r := by
  obtain ⟨v1, h1⟩ := Memory.read16_isSome (h 0 (by omega)) (h 1 (by omega))
  obtain ⟨v2, h2⟩ := Memory.read16_isSome (h 2 (by omega)) (h 3 (by omega))
  obtain ⟨v3, h3⟩ := Memory.readVec_isSome (m := m) (a := 4) 12 fun i hi => h _ (by omega)
  obtain ⟨v4, h4⟩ := Memory.read16_isSome (h 16 (by omega)) (h 17 (by omega))
  obtain ⟨v5, h5⟩ := Memory.read32_isSome (m := m) (a := 18) fun i hi => h _ (by omega)
  obtain ⟨v6, h6⟩ := Memory.readVec_isSome (m := m) (a := 22) 16 fun i hi => h _ (by omega)
  exact ⟨⟨v1, v2, v3, v4, v5, v6⟩, (parseRoot_eq_some_iff m _).mpr ⟨h1, h2, h3, h4, h5, h6⟩⟩

/-- `ParseFrame()` succeeds where bytes 38 to 114 were written. -/
theorem parseFrame_isSome {m : Memory} (h : ∀ a, 38 ≤ a → a ≤ 114 → (m.read a).isSome) :
    ∃ r, parseFrame m = some r := by
  obtain ⟨v1, h1⟩ := Memory.read16_isSome (h 38 (by omega) (by omega)) (h 39 (by omega) (by omega))
  obtain ⟨v2, h2⟩ := Memory.read32_isSome (m := m) (a := 40) fun i hi => h _ (by omega) (by omega)
  obtain ⟨v3, h3⟩ := Memory.readVec_isSome (m := m) (a := 44) 64 fun i hi => h _ (by omega) (by omega)
  obtain ⟨v4, h4⟩ := Option.isSome_iff_exists.mp (h 108 (by omega) (by omega))
  obtain ⟨v5, h5⟩ := Memory.read16_isSome (h 109 (by omega) (by omega)) (h 110 (by omega) (by omega))
  obtain ⟨v6, h6⟩ := Option.isSome_iff_exists.mp (h 111 (by omega) (by omega))
  obtain ⟨v7, h7⟩ := Option.isSome_iff_exists.mp (h 112 (by omega) (by omega))
  obtain ⟨v8, h8⟩ := Memory.read16_isSome (h 113 (by omega) (by omega)) (h 114 (by omega) (by omega))
  exact ⟨⟨v1, v2, v3, v4, v5, v6, v7, v8⟩,
    (parseFrame_eq_some_iff m _).mpr ⟨h1, h2, h3, h4, h5, h6, h7, h8⟩⟩

/-- `ParseDMP()` succeeds where bytes 115 to 124 were written. -/
theorem parseDmp_isSome {m : Memory} (h : ∀ a, 115 ≤ a → a ≤ 124 → (m.read a).isSome) :
    ∃ r, parseDmp m = some r := by
  obtain ⟨v1, h1⟩ := Memory.read16_isSome (h 115 (by omega) (by omega)) (h 116 (by omega) (by omega))
  obtain ⟨v2, h2⟩ := Option.isSome_iff_exists.mp (h 117 (by omega) (by omega))
  obtain ⟨v3, h3⟩ := Option.isSome_iff_exists.mp (h 118 (by omega) (by omega))
  obtain ⟨v4, h4⟩ := Memory.read16_isSome (h 119 (by omega) (by omega)) (h 120 (by omega) (by omega))
  obtain ⟨v5, h5⟩ := Memory.read16_isSome (h 121 (by omega) (by omega)) (h 122 (by omega) (by omega))
  obtain ⟨v6, h6⟩ := Memory.read16_isSome (h 123 (by omega) (by omega)) (h 124 (by omega) (by omega))
  exact ⟨⟨v1, v2, v3, v4, v5, v6⟩, (parseDmp_eq_some_iff m _).mpr ⟨h1, h2, h3, h4, h5, h6⟩⟩

/-- The whole parse succeeds where bytes 0 to 124 were written. -/
theorem parseAll_isSome {m : Memory} (h : ∀ a, a ≤ 124 → (m.read a).isSome) : ∃ f, parseAll m = some f := by
  obtain ⟨r, hr⟩ := parseRoot_isSome (m := m) fun a ha => h a (by omega)
  obtain ⟨g, hg⟩ := parseFrame_isSome (m := m) fun a _ ha => h a (by omega)
  obtain ⟨d, hd⟩ := parseDmp_isSome (m := m) fun a _ ha => h a (by omega)
  exact ⟨⟨r, g, d⟩, (parseAll_eq_some_iff m _).mpr ⟨hr, hg, hd⟩⟩

/-! ### Re-deriving one layer (R130) -/

theorem rederiveRoot_eq_next_iff (f : FieldRegs) (s t : State) :
    rederiveRoot f s = .next t ↔
      ∃ r, parseRoot s.buf = some r ∧ t = (s.setRegs { f with root := r }).setResp ⟨.ok, 0, []⟩ := by
  simp [rederiveRoot, orUnwritten_eq_next_iff, respond_eq_next_iff]

theorem rederiveFrame_eq_next_iff (f : FieldRegs) (v : BitVec 32) (s t : State) :
    rederiveFrame f v s = .next t ↔
      ∃ r, parseFrame s.buf = some r ∧ t = (s.setRegs { f with frame := r }).setResp ⟨.ok, v, []⟩ := by
  simp [rederiveFrame, orUnwritten_eq_next_iff, respond_eq_next_iff]

theorem rederiveDmp_eq_next_iff (f : FieldRegs) (s t : State) :
    rederiveDmp f s = .next t ↔
      ∃ r, parseDmp s.buf = some r ∧ t = (s.setRegs { f with dmp := r }).setResp ⟨.ok, 0, []⟩ := by
  simp [rederiveDmp, orUnwritten_eq_next_iff, respond_eq_next_iff]

/-! ### Sequencing and the command port -/

theorem andThen_eq_next_iff (r : Result) (k : State → Result) (t : State) :
    andThen r k = .next t ↔ ∃ u, r = .next u ∧ k u = .next t := by
  cases r <;> simp [andThen]

theorem fetch_cons {s : State} {c : Command} {rest : List Command} (h : s.cmds = c :: rest) :
    fetch s = some (c, s.setCmds rest) := by
  simp [fetch, h]

theorem fetch_nil {s : State} (h : s.cmds = []) : fetch s = none := by
  simp [fetch, h]

/-- An illegal word is answered ERR_ILLEGAL, a pair that is no command is refused, and nothing else happens. -/
theorem reject_eq_next_iff (e : DecodeError) (s t : State) :
    reject e s = .next t ↔ e ≠ .payloadMismatch ∧ t = s.setResp ⟨.errIllegal, 0, []⟩ := by
  cases e <;> simp [reject, raise_eq_next_iff]

end Sys2Proof.Machine
end

