-- ==== Sys2Proof/Laws/Exec.lean ====
section
/-! SUPPORT. For each command, once, every way its meaning can answer a next state. -/

namespace Sys2Proof.Machine

/-- INIT (R81). -/
theorem execInit_eq_next_iff (n : BitVec 16) (s t : State) :
    execInit n s = .next t ↔
      (slotCountLegal n = false ∧ t = s.setResp ⟨.errSlotCount, 0, []⟩) ∨
        (slotCountLegal n = true ∧ ∃ f, parseAll (builtBuffer n.toNat s.cfg.defaultUniverse) = some f ∧
          t = (s.newPacket (.initialized f) (BitVec.ofNat 16 (126 + n.toNat))
            (builtBuffer n.toNat s.cfg.defaultUniverse)).setResp
              ⟨.ok, BitVec.ofNat 32 (126 + n.toNat), []⟩) := by
  cases h : slotCountLegal n <;>
    simp [execInit, h, raise_eq_next_iff, orUnwritten_eq_next_iff, respond_eq_next_iff]

/-- LOAD (R83). -/
theorem execLoad_eq_next_iff (p : List Byte) (s t : State) :
    execLoad p s = .next t ↔
      (p.length < 126 ∧ t = s.setResp ⟨.errSize, 0, []⟩) ∨
        (126 ≤ p.length ∧ s.cfg.bufCap < p.length ∧ t = s.setResp ⟨.errCap, 0, []⟩) ∨
        (126 ≤ p.length ∧ p.length ≤ s.cfg.bufCap ∧ ∃ f, parseAll (Memory.ofBytes 0 p) = some f ∧
          t = (s.newPacket (.parsed f) (BitVec.ofNat 16 p.length) (Memory.ofBytes 0 p)).setResp
            ⟨.ok, BitVec.ofNat 32 p.length, []⟩) := by
  unfold execLoad
  split
  · rename_i h
    simp [raise_eq_next_iff, h, Nat.not_le.mpr h]
  · rename_i h
    split
    · rename_i h'
      simp [raise_eq_next_iff, h, h', Nat.not_lt.mp h, Nat.not_le.mpr h']
    · rename_i h'
      simp [orUnwritten_eq_next_iff, respond_eq_next_iff, h, h', Nat.not_lt.mp h, Nat.not_lt.mp h']

/-- PARSE (R85). -/
theorem execParse_eq_next_iff (s t : State) :
    execParse s = .next t ↔
      (s.pstate = .uninit ∧ t = s.setResp ⟨.errState, 0, []⟩) ∨
        ∃ f g, s.fieldRegs = some f ∧ parseAll s.buf = some g ∧ t = (s.setRegs g).setResp ⟨.ok, 0, []⟩ := by
  simp [execParse, withRegs_eq_next_iff, orUnwritten_eq_next_iff, respond_eq_next_iff]

/-- GETSTATE (R86). -/
theorem execGetstate_eq_next_iff (s t : State) :
    execGetstate s = .next t ↔
      t = s.setResp ⟨.ok, BitVec.ofNat 32 (s.pstate.code.toNat * 65536 + s.len.toNat), []⟩ := by
  exact respond_eq_next_iff ..

/-- BUFRD (R88). -/
theorem execBufrd_eq_next_iff (a : BitVec 16) (s t : State) :
    execBufrd a s = .next t ↔
      (s.pstate = .uninit ∧ t = s.setResp ⟨.errState, 0, []⟩) ∨
        (s.pstate ≠ .uninit ∧ s.len.toNat ≤ a.toNat ∧ t = s.setResp ⟨.errAddr, 0, []⟩) ∨
        (s.pstate ≠ .uninit ∧ a.toNat < s.len.toNat ∧
          ∃ b, s.buf.read a.toNat = some b ∧ t = s.setResp ⟨.ok, b.setWidth 32, []⟩) := by
  have hp := s.fieldRegs_isSome_iff
  rw [Option.isSome_iff_exists] at hp
  by_cases h : s.len.toNat ≤ a.toNat
  · simp [execBufrd, withRegs_eq_next_iff, h, raise_eq_next_iff, Nat.not_lt.mpr h, ← hp]
  · simp [execBufrd, withRegs_eq_next_iff, h, orUnwritten_eq_next_iff, respond_eq_next_iff, Nat.not_le.mp h, ← hp]

/-- BUFWR (R90). -/
theorem execBufwr_eq_next_iff (a : BitVec 16) (b : Byte) (s t : State) :
    execBufwr a b s = .next t ↔
      (s.pstate = .uninit ∧ t = s.setResp ⟨.errState, 0, []⟩) ∨
        (s.pstate ≠ .uninit ∧ s.len.toNat ≤ a.toNat ∧ t = s.setResp ⟨.errAddr, 0, []⟩) ∨
        (s.pstate ≠ .uninit ∧ a.toNat < s.len.toNat ∧
          t = (s.setBuf (s.buf.write a.toNat b)).setResp ⟨.ok, 0, []⟩) := by
  have hp := s.fieldRegs_isSome_iff
  rw [Option.isSome_iff_exists] at hp
  by_cases h : s.len.toNat ≤ a.toNat
  · simp [execBufwr, withRegs_eq_next_iff, h, raise_eq_next_iff, Nat.not_lt.mpr h, ← hp]
  · simp [execBufwr, withRegs_eq_next_iff, h, respond_eq_next_iff, Nat.not_le.mp h, ← hp]

/-- VALIDATE (R104). -/
theorem execValidate_eq_next_iff (s t : State) :
    execValidate s = .next t ↔
      (s.pstate = .uninit ∧ t = s.setResp ⟨.errState, 0, []⟩) ∨
        ∃ f, s.fieldRegs = some f ∧ t = s.setResp ⟨.ok, BitVec.ofNat 32 (validation f).code, []⟩ := by
  simp [execValidate, withRegs_eq_next_iff, respond_eq_next_iff]

/-- DISCARD (R111). -/
theorem execDiscard_eq_next_iff (l : BitVec 8) (s t : State) :
    execDiscard l s = .next t ↔
      (s.pstate = .uninit ∧ t = s.setResp ⟨.errState, 0, []⟩) ∨
        ∃ f, s.fieldRegs = some f ∧ t = s.setResp ⟨.ok, if shouldDiscard f.frame.seq l then 1 else 0, []⟩ := by
  simp [execDiscard, withRegs_eq_next_iff, respond_eq_next_iff]

/-- CLASSIFY (R113). -/
theorem execClassify_eq_next_iff (s t : State) :
    execClassify s = .next t ↔
      (s.pstate = .uninit ∧ t = s.setResp ⟨.errState, 0, []⟩) ∨
        ∃ f, s.fieldRegs = some f ∧
          ((validation f ≠ .none ∧ t = s.setResp ⟨.ok, classifyValue .invalid (validation f), []⟩) ∨
           (validation f = .none ∧ sequenceClass (s.trkAt f.frame.univ) f.frame.seq = .outOfOrder ∧
             t = s.setResp ⟨.ok, classifyValue .outOfOrder .none, []⟩) ∨
           (validation f = .none ∧ sequenceClass (s.trkAt f.frame.univ) f.frame.seq = .accepted ∧
             t = (s.setTrk f.frame.univ f.frame.seq).setResp ⟨.ok, classifyValue .accepted .none, []⟩)) := by
  have hc : ∀ o q, sequenceClass o q ≠ .invalid := by
    intro o q
    cases o <;> simp [sequenceClass]
    split <;> simp
  simp only [execClassify, withRegs_eq_next_iff]
  refine or_congr Iff.rfl (exists_congr fun f => and_congr_right fun _ => ?_)
  by_cases hv : validation f = .none
  · cases hs : sequenceClass (s.trkAt f.frame.univ) f.frame.seq with
    | invalid => exact absurd hs (hc _ _)
    | accepted => simp [hv, respond_eq_next_iff]
    | outOfOrder => simp [hv, respond_eq_next_iff]
  · simp [hv, respond_eq_next_iff]

/-- INCSEQ (R116). -/
theorem execIncseq_eq_next_iff (s t : State) :
    execIncseq s = .next t ↔
      (s.pstate = .uninit ∧ t = s.setResp ⟨.errState, 0, []⟩) ∨
        ∃ f g, s.fieldRegs = some f ∧ parseFrame (s.buf.write 111 (nextSequence f.frame.seq)) = some g ∧
          t = ((s.setBuf (s.buf.write 111 (nextSequence f.frame.seq))).setRegs { f with frame := g }).setResp ⟨.ok, (nextSequence f.frame.seq).setWidth 32, []⟩ := by
  simp [execIncseq, withRegs_eq_next_iff, rederiveFrame_eq_next_iff]

/-- GETFLD (R120). -/
theorem execGetfld_eq_next_iff (fid : FieldId) (s t : State) :
    execGetfld fid s = .next t ↔
      (s.pstate = .uninit ∧ t = s.setResp ⟨.errState, 0, []⟩) ∨
        ∃ f, s.fieldRegs = some f ∧ t = s.setResp ⟨.ok, fieldValue f fid, []⟩ := by
  simp [execGetfld, withRegs_eq_next_iff, respond_eq_next_iff]

/-- GETCID (R122). -/
theorem execGetcid_eq_next_iff (s t : State) :
    execGetcid s = .next t ↔
      (s.pstate = .uninit ∧ t = s.setResp ⟨.errState, 0, []⟩) ∨
        ∃ f, s.fieldRegs = some f ∧ t = s.setResp ⟨.ok, 0, f.root.cid.toList⟩ := by
  simp [execGetcid, withRegs_eq_next_iff, respond_eq_next_iff]

/-- GETNAME (R123). -/
theorem execGetname_eq_next_iff (s t : State) :
    execGetname s = .next t ↔
      (s.pstate = .uninit ∧ t = s.setResp ⟨.errState, 0, []⟩) ∨
        ∃ f, s.fieldRegs = some f ∧ t = s.setResp ⟨.ok, 0, f.frame.name.toList⟩ := by
  simp [execGetname, withRegs_eq_next_iff, respond_eq_next_iff]

/-- GETPRIO (R124). -/
theorem execGetprio_eq_next_iff (s t : State) :
    execGetprio s = .next t ↔
      (s.pstate = .uninit ∧ t = s.setResp ⟨.errState, 0, []⟩) ∨
        ∃ f, s.fieldRegs = some f ∧ t = s.setResp ⟨.ok, f.frame.prio.setWidth 32, []⟩ := by
  simp [execGetprio, withRegs_eq_next_iff, respond_eq_next_iff]

/-- GETSEQ (R125). -/
theorem execGetseq_eq_next_iff (s t : State) :
    execGetseq s = .next t ↔
      (s.pstate = .uninit ∧ t = s.setResp ⟨.errState, 0, []⟩) ∨
        ∃ f, s.fieldRegs = some f ∧ t = s.setResp ⟨.ok, f.frame.seq.setWidth 32, []⟩ := by
  simp [execGetseq, withRegs_eq_next_iff, respond_eq_next_iff]

/-- GETOPT (R126). -/
theorem execGetopt_eq_next_iff (b : BitVec 3) (s t : State) :
    execGetopt b s = .next t ↔
      (s.pstate = .uninit ∧ t = s.setResp ⟨.errState, 0, []⟩) ∨
        ∃ f, s.fieldRegs = some f ∧ t = s.setResp ⟨.ok, if optionBit f.frame.opts b then 1 else 0, []⟩ := by
  simp [execGetopt, withRegs_eq_next_iff, respond_eq_next_iff]

/-- GETUNIV (R127). -/
theorem execGetuniv_eq_next_iff (s t : State) :
    execGetuniv s = .next t ↔
      (s.pstate = .uninit ∧ t = s.setResp ⟨.errState, 0, []⟩) ∨
        ∃ f, s.fieldRegs = some f ∧ t = s.setResp ⟨.ok, f.frame.univ.setWidth 32, []⟩ := by
  simp [execGetuniv, withRegs_eq_next_iff, respond_eq_next_iff]

/-- GETSLOTS (R128). -/
theorem execGetslots_eq_next_iff (s t : State) :
    execGetslots s = .next t ↔
      (s.pstate = .uninit ∧ t = s.setResp ⟨.errState, 0, []⟩) ∨
        ∃ f d, s.fieldRegs = some f ∧ s.buf.readBytes 126 s.nslots = some d ∧
          t = s.setResp ⟨.ok, BitVec.ofNat 32 s.nslots, d⟩ := by
  simp [execGetslots, withRegs_eq_next_iff, orUnwritten_eq_next_iff, respond_eq_next_iff]

/-- GETPID (R121). -/
theorem execGetpid_eq_next_iff (s t : State) :
    execGetpid s = .next t ↔
      (s.pstate = .uninit ∧ t = s.setResp ⟨.errState, 0, []⟩) ∨
        ∃ f, s.fieldRegs = some f ∧ t = s.setResp ⟨.ok, 0, f.root.pid.toList⟩ := by
  simp [execGetpid, withRegs_eq_next_iff, respond_eq_next_iff]

/-- SETCID (R131). -/
theorem execSetcid_eq_next_iff (p : List Byte) (s t : State) :
    execSetcid p s = .next t ↔
      (s.pstate = .uninit ∧ t = s.setResp ⟨.errState, 0, []⟩) ∨
        (s.pstate ≠ .uninit ∧ p.length ≠ 16 ∧ t = s.setResp ⟨.errLen, 0, []⟩) ∨
        (p.length = 16 ∧ ∃ f g, s.fieldRegs = some f ∧ parseRoot (s.buf.writeBytes 22 p) = some g ∧
          t = ((s.setBuf (s.buf.writeBytes 22 p)).setRegs { f with root := g }).setResp ⟨.ok, 0, []⟩) := by
  have hp := s.fieldRegs_isSome_iff
  rw [Option.isSome_iff_exists] at hp
  by_cases h : p.length = 16
  · simp [execSetcid, withRegs_eq_next_iff, h, rederiveRoot_eq_next_iff]
  · simp [execSetcid, withRegs_eq_next_iff, h, raise_eq_next_iff, ← hp]

/-- SETNAME (R132). -/
theorem execSetname_eq_next_iff (p : List Byte) (s t : State) :
    execSetname p s = .next t ↔
      (s.pstate = .uninit ∧ t = s.setResp ⟨.errState, 0, []⟩) ∨
        ∃ f g, s.fieldRegs = some f ∧ parseFrame (s.buf.writeBytes 44 (paddedName p)) = some g ∧
          t = ((s.setBuf (s.buf.writeBytes 44 (paddedName p))).setRegs { f with frame := g }).setResp ⟨.ok, 0, []⟩ := by
  simp [execSetname, withRegs_eq_next_iff, rederiveFrame_eq_next_iff]

/-- SETPRIO (R133). -/
theorem execSetprio_eq_next_iff (p : BitVec 8) (s t : State) :
    execSetprio p s = .next t ↔
      (s.pstate = .uninit ∧ t = s.setResp ⟨.errState, 0, []⟩) ∨
        ∃ f g, s.fieldRegs = some f ∧ parseFrame (s.buf.write 108 p) = some g ∧
          t = ((s.setBuf (s.buf.write 108 p)).setRegs { f with frame := g }).setResp ⟨.ok, 0, []⟩ := by
  simp [execSetprio, withRegs_eq_next_iff, rederiveFrame_eq_next_iff]

/-- SETSEQ (R134). -/
theorem execSetseq_eq_next_iff (n : BitVec 8) (s t : State) :
    execSetseq n s = .next t ↔
      (s.pstate = .uninit ∧ t = s.setResp ⟨.errState, 0, []⟩) ∨
        ∃ f g, s.fieldRegs = some f ∧ parseFrame (s.buf.write 111 n) = some g ∧
          t = ((s.setBuf (s.buf.write 111 n)).setRegs { f with frame := g }).setResp ⟨.ok, 0, []⟩ := by
  simp [execSetseq, withRegs_eq_next_iff, rederiveFrame_eq_next_iff]

/-- SETOPT (R135). -/
theorem execSetopt_eq_next_iff (b : BitVec 3) (on : Bool) (s t : State) :
    execSetopt b on s = .next t ↔
      (s.pstate = .uninit ∧ t = s.setResp ⟨.errState, 0, []⟩) ∨
        ∃ f g, s.fieldRegs = some f ∧ parseFrame (s.buf.write 112 (optionSet f.frame.opts b on)) = some g ∧
          t = ((s.setBuf (s.buf.write 112 (optionSet f.frame.opts b on))).setRegs { f with frame := g }).setResp ⟨.ok, 0, []⟩ := by
  simp [execSetopt, withRegs_eq_next_iff, rederiveFrame_eq_next_iff]

/-- SETUNIV (R136). -/
theorem execSetuniv_eq_next_iff (u : BitVec 16) (s t : State) :
    execSetuniv u s = .next t ↔
      (s.pstate = .uninit ∧ t = s.setResp ⟨.errState, 0, []⟩) ∨
        (s.pstate ≠ .uninit ∧ universeLegal u = false ∧ t = s.setResp ⟨.errRange, 0, []⟩) ∨
        (universeLegal u = true ∧ ∃ f g, s.fieldRegs = some f ∧ parseFrame (s.buf.write16 113 u) = some g ∧
          t = ((s.setBuf (s.buf.write16 113 u)).setRegs { f with frame := g }).setResp ⟨.ok, 0, []⟩) := by
  have hp := s.fieldRegs_isSome_iff
  rw [Option.isSome_iff_exists] at hp
  cases h : universeLegal u
  · simp [execSetuniv, withRegs_eq_next_iff, h, raise_eq_next_iff, ← hp]
  · simp [execSetuniv, withRegs_eq_next_iff, h, rederiveFrame_eq_next_iff]

/-- SETSLOTS (R137). -/
theorem execSetslots_eq_next_iff (p : List Byte) (s t : State) :
    execSetslots p s = .next t ↔
      (s.pstate = .uninit ∧ t = s.setResp ⟨.errState, 0, []⟩) ∨
        ∃ f g, s.fieldRegs = some f ∧ parseDmp (s.buf.writeBytes 126 (p.take (slotCopyCount p.length f.dmp.pvc s.len))) = some g ∧
          t = ((s.setBuf (s.buf.writeBytes 126 (p.take (slotCopyCount p.length f.dmp.pvc s.len)))).setRegs { f with dmp := g }).setResp ⟨.ok, 0, []⟩ := by
  simp [execSetslots, withRegs_eq_next_iff, rederiveDmp_eq_next_iff]

end Sys2Proof.Machine
end

