-- ==== Sys2Proof/Laws/Effect.lean ====
section
/-! SUPPORT. Everything a command can do to the state, said once over all commands: it leaves a response and nothing else,
or it is INIT, LOAD, PARSE, BUFWR or an accepting CLASSIFY, or it edits one layer. -/

namespace Sys2Proof.Machine

/-- The layer's registers in `g` are parsed from `m`. -/
def layerParsed (m : Memory) (g : FieldRegs) : Layer → Prop
  | .root => parseRoot m = some g.root
  | .frame => parseFrame m = some g.frame
  | .dmp => parseDmp m = some g.dmp

/-- The ways command `i` leads from `s` to `t`. -/
inductive Effect (i : Instr) (s t : State) : Prop where
  /-- Nothing but the response changes: every error, every reader, and a CLASSIFY that does not accept. -/
  | response (r : Response) (status : r.status ≠ .ok → r.value = 0 ∧ r.data = [])
      (kind : r.status = .ok → writesNothing i = true ∨ (i = .classify ∧ r ≠ ⟨.ok, 0, []⟩))
      (result : t = s.setResp r)
  /-- INIT builds a packet. -/
  | build (n : BitVec 16) (f : FieldRegs) (command : i = .init n) (legal : slotCountLegal n = true)
      (regs : parseAll (builtBuffer n.toNat s.cfg.defaultUniverse) = some f)
      (result : t = (s.newPacket (.initialized f) (BitVec.ofNat 16 (126 + n.toNat))
        (builtBuffer n.toNat s.cfg.defaultUniverse)).setResp
          ⟨.ok, BitVec.ofNat 32 (126 + n.toNat), []⟩)
  /-- LOAD takes a received buffer. -/
  | take (p : List Byte) (f : FieldRegs) (command : i = .load p) (long : 126 ≤ p.length)
      (fits : p.length ≤ s.cfg.bufCap) (regs : parseAll (Memory.ofBytes 0 p) = some f)
      (result : t = (s.newPacket (.parsed f) (BitVec.ofNat 16 p.length) (Memory.ofBytes 0 p)).setResp
        ⟨.ok, BitVec.ofNat 32 p.length, []⟩)
  /-- PARSE loads every register from the buffer. -/
  | reparse (f g : FieldRegs) (command : i = .parse) (before : s.fieldRegs = some f) (regs : parseAll s.buf = some g)
      (result : t = (s.setRegs g).setResp ⟨.ok, 0, []⟩)
  /-- BUFWR stores a byte below LEN. -/
  | poke (a : BitVec 16) (b : Byte) (command : i = .bufwr a b) (packet : s.pstate ≠ .uninit)
      (below : a.toNat < s.len.toNat) (result : t = (s.setBuf (s.buf.write a.toNat b)).setResp ⟨.ok, 0, []⟩)
  /-- CLASSIFY accepts. -/
  | track (f : FieldRegs) (command : i = .classify) (before : s.fieldRegs = some f) (valid : validation f = .none)
      (fresh : sequenceClass (s.trkAt f.frame.univ) f.frame.seq = .accepted)
      (result : t = (s.setTrk f.frame.univ f.frame.seq).setResp ⟨.ok, 0, []⟩)
  /-- A mutator or INCSEQ writes bytes of its layer, all below LEN, and re-derives that layer's registers. -/
  | edit (l : Layer) (f g : FieldRegs) (m : Memory) (v : BitVec 32) (command : editLayer i = some l)
      (before : s.fieldRegs = some f) (outside : ∀ x, layerAt x ≠ l → m.read x = s.buf.read x)
      (keys : 126 ≤ s.len.toNat → s.buf.map Prod.fst = List.range s.len.toNat →
        m.map Prod.fst = List.range s.len.toNat)
      (parsed : layerParsed m g l) (others : ∀ l', l' ≠ l → sameLayer f g l')
      (value : i ≠ .incseq → v = 0)
      (result : t = ((s.setBuf m).setRegs g).setResp ⟨.ok, v, []⟩)

/-! ### The bytes each edit writes lie in its layer and below LEN -/

theorem layerAt_frame {x : Nat} (h : 38 ≤ x) (h' : x ≤ 114) : layerAt x = .frame := by
  simp [layerAt, h', show ¬ x ≤ 37 by omega]

theorem layerAt_root {x : Nat} (h : x ≤ 37) : layerAt x = .root := by simp [layerAt, h]

theorem layerAt_dmp {x : Nat} (h : 115 ≤ x) : layerAt x = .dmp := by
  simp [layerAt, show ¬ x ≤ 37 by omega, show ¬ x ≤ 114 by omega]

/-- SETSLOTS never writes at or beyond LEN (R137). -/
theorem slotCopyCount_le (k : Nat) (pvc len : BitVec 16) : slotCopyCount k pvc len ≤ len.toNat - 126 := by
  simp only [slotCopyCount]; omega

@[simp] theorem paddedName_length (p : List Byte) : (paddedName p).length = 64 := by
  simp only [paddedName, List.length_append, List.length_take, List.length_replicate]; omega

theorem read_writeBytes_otherLayer {m : Memory} {a : Nat} {s : List Byte} {l : Layer}
    (h : ∀ x, a ≤ x → x < a + s.length → layerAt x = l) (x : Nat) (hx : layerAt x ≠ l) :
    (m.writeBytes a s).read x = m.read x :=
  Memory.read_writeBytes_outside m s (by
    by_contra hc
    exact hx (h x (by omega) (by omega)))

/-- The error response as an effect. -/
theorem Effect.ofError {i : Instr} {s t : State} {e : Status} (he : e ≠ .ok) (h : t = s.setResp ⟨e, 0, []⟩) :
    Effect i s t :=
  .response ⟨e, 0, []⟩ (fun _ => ⟨rfl, rfl⟩) (fun h' => absurd h' he) h

/-- The answer of a reader as an effect. -/
theorem Effect.ofReader {i : Instr} {s t : State} {v : BitVec 32} {d : List Byte} (hi : writesNothing i = true)
    (h : t = s.setResp ⟨.ok, v, d⟩) : Effect i s t :=
  .response ⟨.ok, v, d⟩ (fun h' => absurd rfl h') (fun _ => .inl hi) h

/-- The one-byte edits of the Framing Layer as an effect. -/
theorem Effect.ofFrameByte {i : Instr} {s t : State} {f : FieldRegs} {g : FrameRegs} {a : Nat} {b : Byte}
    {v : BitVec 32} (hi : editLayer i = some .frame) (ha : 38 ≤ a) (ha' : a ≤ 114) (hf : s.fieldRegs = some f)
    (hg : parseFrame (s.buf.write a b) = some g) (hv : i ≠ .incseq → v = 0)
    (h : t = ((s.setBuf (s.buf.write a b)).setRegs { f with frame := g }).setResp ⟨.ok, v, []⟩) :
    Effect i s t :=
  .edit .frame f { f with frame := g } (s.buf.write a b) v hi hf
    (fun x hx => Memory.read_write_other _ _ fun e => hx (e ▸ layerAt_frame ha ha'))
    (fun hl hk => Memory.keys_range_write hk (by omega) b) hg
    (fun l' hl' => by cases l' <;> first | rfl | exact absurd rfl hl') hv h

/-- Everything a command can do. -/
theorem exec_effect {i : Instr} {s t : State} (h : exec i s = .next t) : Effect i s t := by
  cases i with
  | init n =>
    rcases (execInit_eq_next_iff n s t).mp h with ⟨_, h⟩ | ⟨hn, f, hf, h⟩
    · exact .ofError (by decide) h
    · exact .build n f rfl hn hf h
  | load p =>
    rcases (execLoad_eq_next_iff p s t).mp h with ⟨_, h⟩ | ⟨_, _, h⟩ | ⟨h1, h2, f, hf, h⟩
    · exact .ofError (by decide) h
    · exact .ofError (by decide) h
    · exact .take p f rfl h1 h2 hf h
  | parse =>
    rcases (execParse_eq_next_iff s t).mp h with ⟨_, h⟩ | ⟨f, g, hf, hg, h⟩
    · exact .ofError (by decide) h
    · exact .reparse f g rfl hf hg h
  | getstate => exact .ofReader rfl ((execGetstate_eq_next_iff s t).mp h)
  | bufrd a =>
    rcases (execBufrd_eq_next_iff a s t).mp h with ⟨_, h⟩ | ⟨_, _, h⟩ | ⟨_, _, b, _, h⟩
    · exact .ofError (by decide) h
    · exact .ofError (by decide) h
    · exact .ofReader rfl h
  | bufwr a b =>
    rcases (execBufwr_eq_next_iff a b s t).mp h with ⟨_, h⟩ | ⟨_, _, h⟩ | ⟨hp, ha, h⟩
    · exact .ofError (by decide) h
    · exact .ofError (by decide) h
    · exact .poke a b rfl hp ha h
  | validate =>
    rcases (execValidate_eq_next_iff s t).mp h with ⟨_, h⟩ | ⟨f, _, h⟩
    · exact .ofError (by decide) h
    · exact .ofReader rfl h
  | discard l =>
    rcases (execDiscard_eq_next_iff l s t).mp h with ⟨_, h⟩ | ⟨f, _, h⟩
    · exact .ofError (by decide) h
    · exact .ofReader rfl h
  | classify =>
    rcases (execClassify_eq_next_iff s t).mp h with ⟨_, h⟩ | ⟨f, hf, ⟨hv, h⟩ | ⟨_, _, h⟩ | ⟨hv, hs, h⟩⟩
    · exact .ofError (by decide) h
    · refine .response _ (fun h' => absurd rfl h') (fun _ => .inr ⟨rfl, fun e => ?_⟩) h
      have : classifyValue .invalid (validation f) = 0 := congrArg Response.value e
      cases hc : validation f <;> rw [hc] at this <;> revert this <;> decide
    · exact .response _ (fun h' => absurd rfl h') (fun _ => .inr ⟨rfl, by decide⟩) h
    · exact .track f rfl hf hv hs h
  | incseq =>
    rcases (execIncseq_eq_next_iff s t).mp h with ⟨_, h⟩ | ⟨f, g, hf, hg, h⟩
    · exact .ofError (by decide) h
    · exact .ofFrameByte rfl (by decide) (by decide) hf hg (fun h' => absurd rfl h') h
  | getfld fid =>
    rcases (execGetfld_eq_next_iff fid s t).mp h with ⟨_, h⟩ | ⟨f, _, h⟩
    · exact .ofError (by decide) h
    · exact .ofReader rfl h
  | getcid =>
    rcases (execGetcid_eq_next_iff s t).mp h with ⟨_, h⟩ | ⟨f, _, h⟩
    · exact .ofError (by decide) h
    · exact .ofReader rfl h
  | getname =>
    rcases (execGetname_eq_next_iff s t).mp h with ⟨_, h⟩ | ⟨f, _, h⟩
    · exact .ofError (by decide) h
    · exact .ofReader rfl h
  | getprio =>
    rcases (execGetprio_eq_next_iff s t).mp h with ⟨_, h⟩ | ⟨f, _, h⟩
    · exact .ofError (by decide) h
    · exact .ofReader rfl h
  | getseq =>
    rcases (execGetseq_eq_next_iff s t).mp h with ⟨_, h⟩ | ⟨f, _, h⟩
    · exact .ofError (by decide) h
    · exact .ofReader rfl h
  | getopt b =>
    rcases (execGetopt_eq_next_iff b s t).mp h with ⟨_, h⟩ | ⟨f, _, h⟩
    · exact .ofError (by decide) h
    · exact .ofReader rfl h
  | getuniv =>
    rcases (execGetuniv_eq_next_iff s t).mp h with ⟨_, h⟩ | ⟨f, _, h⟩
    · exact .ofError (by decide) h
    · exact .ofReader rfl h
  | getslots =>
    rcases (execGetslots_eq_next_iff s t).mp h with ⟨_, h⟩ | ⟨f, d, _, _, h⟩
    · exact .ofError (by decide) h
    · exact .ofReader rfl h
  | getpid =>
    rcases (execGetpid_eq_next_iff s t).mp h with ⟨_, h⟩ | ⟨f, _, h⟩
    · exact .ofError (by decide) h
    · exact .ofReader rfl h
  | setcid p =>
    rcases (execSetcid_eq_next_iff p s t).mp h with ⟨_, h⟩ | ⟨_, _, h⟩ | ⟨hp, f, g, hf, hg, h⟩
    · exact .ofError (by decide) h
    · exact .ofError (by decide) h
    · exact .edit .root f { f with root := g } _ 0 rfl hf
        (read_writeBytes_otherLayer fun x _ hx => layerAt_root (by omega))
        (fun hl hk => Memory.keys_range_writeBytes hk (by omega)) hg
        (fun l' hl' => by cases l' <;> first | rfl | exact absurd rfl hl') (fun _ => rfl) h
  | setname p =>
    rcases (execSetname_eq_next_iff p s t).mp h with ⟨_, h⟩ | ⟨f, g, hf, hg, h⟩
    · exact .ofError (by decide) h
    · exact .edit .frame f { f with frame := g } _ 0 rfl hf
        (read_writeBytes_otherLayer fun x hx hx' => layerAt_frame (by omega)
          (by rw [paddedName_length] at hx'; omega))
        (fun hl hk => Memory.keys_range_writeBytes hk (by rw [paddedName_length]; omega)) hg
        (fun l' hl' => by cases l' <;> first | rfl | exact absurd rfl hl') (fun _ => rfl) h
  | setprio p =>
    rcases (execSetprio_eq_next_iff p s t).mp h with ⟨_, h⟩ | ⟨f, g, hf, hg, h⟩
    · exact .ofError (by decide) h
    · exact .ofFrameByte rfl (by decide) (by decide) hf hg (fun _ => rfl) h
  | setseq n =>
    rcases (execSetseq_eq_next_iff n s t).mp h with ⟨_, h⟩ | ⟨f, g, hf, hg, h⟩
    · exact .ofError (by decide) h
    · exact .ofFrameByte rfl (by decide) (by decide) hf hg (fun _ => rfl) h
  | setopt b on =>
    rcases (execSetopt_eq_next_iff b on s t).mp h with ⟨_, h⟩ | ⟨f, g, hf, hg, h⟩
    · exact .ofError (by decide) h
    · exact .ofFrameByte rfl (by decide) (by decide) hf hg (fun _ => rfl) h
  | setuniv u =>
    rcases (execSetuniv_eq_next_iff u s t).mp h with ⟨_, h⟩ | ⟨_, _, h⟩ | ⟨_, f, g, hf, hg, h⟩
    · exact .ofError (by decide) h
    · exact .ofError (by decide) h
    · refine .edit .frame f { f with frame := g } _ 0 rfl hf (fun x hx => ?_)
        (fun hl hk => Memory.keys_range_write16 hk (by omega) u) hg
        (fun l' hl' => by cases l' <;> first | rfl | exact absurd rfl hl') (fun _ => rfl) h
      have h1 : x ≠ 113 := fun e => hx (e ▸ rfl)
      have h2 : x ≠ 113 + 1 := fun e => hx (e ▸ rfl)
      rw [Memory.read_write16, if_neg h1, if_neg h2]
  | setslots p =>
    rcases (execSetslots_eq_next_iff p s t).mp h with ⟨_, h⟩ | ⟨f, g, hf, hg, h⟩
    · exact .ofError (by decide) h
    · exact .edit .dmp f { f with dmp := g } _ 0 rfl hf
        (read_writeBytes_otherLayer fun x hx _ => layerAt_dmp (by omega))
        (fun hl hk => Memory.keys_range_writeBytes hk (by
          have := slotCopyCount_le p.length f.dmp.pvc s.len
          rw [List.length_take]; omega)) hg
        (fun l' hl' => by cases l' <;> first | rfl | exact absurd rfl hl') (fun _ => rfl) h

end Sys2Proof.Machine
end

