-- ==== Sys2Proof/Laws/Packet.lean ====
section
/-! SUPPORT. What INIT builds, once: every byte of the buffer, its keys, and the registers the parser loads from it; and
what the clamps of the operands come to. -/

namespace Sys2Proof.Machine

theorem slotCountLegal_iff (n : BitVec 16) : slotCountLegal n = true ↔ 1 ≤ n.toNat ∧ n.toNat ≤ 512 := by
  simp [slotCountLegal]

theorem universeLegal_iff (u : BitVec 16) : universeLegal u = true ↔ 1 ≤ u.toNat ∧ u.toNat ≤ 63999 := by
  simp [universeLegal]

theorem flength_toNat {c : Nat} (h : c < 0x1000) : (flength c).toNat = 0x7000 + c := by
  simp [flength]; omega

/-- A packet is valid exactly when all seven registers the validator reads match (R101 to R104). -/
theorem validation_eq_none_iff (f : FieldRegs) :
    validation f = .none ↔
      (f.root.pid = magic ∧ f.root.rvec = 0x00000004) ∧ f.frame.fvec = 0x00000002 ∧
        f.dmp.dvec = 0x02 ∧ f.dmp.dtype = 0xA1 ∧ f.dmp.faddr = 0x0000 ∧ f.dmp.ainc = 0x0001 := by
  have hr : rootValid f = true ↔ f.root.pid = magic ∧ f.root.rvec = 0x00000004 := by simp [rootValid]
  have hf : frameValid f = true ↔ f.frame.fvec = 0x00000002 := by simp [frameValid]
  have hd : dmpValid f = true ↔
      f.dmp.dvec = 0x02 ∧ f.dmp.dtype = 0xA1 ∧ f.dmp.faddr = 0x0000 ∧ f.dmp.ainc = 0x0001 := by
    simp [dmpValid, and_assoc]
  rw [← hr, ← hf, ← hd, validation]
  cases rootValid f <;> cases frameValid f <;> cases dmpValid f <;> simp

@[simp] theorem magic_length : magic.toList.length = 12 := rfl

/-- INIT writes bytes 0 to 125 + n and no other (R81). -/
theorem keys_builtBuffer (n : Nat) (u : BitVec 16) : (builtBuffer n u).map Prod.fst = List.range (126 + n) := by
  have h0 : (Memory.ofBytes 0 (List.replicate (126 + n) (0x00 : Byte))).map Prod.fst = List.range (126 + n) := by
    rw [Memory.keys_ofBytes, List.length_replicate, List.range_eq_range']
  have hd : (buildDmp n (Memory.ofBytes 0 (List.replicate (126 + n) (0x00 : Byte)))).map Prod.fst = List.range (126 + n) :=
    Memory.keys_range_write16 (Memory.keys_range_write16 (Memory.keys_range_write16 (Memory.keys_range_write
      (Memory.keys_range_write (Memory.keys_range_write16 h0 (by omega) _) (by omega) _) (by omega) _) (by omega) _)
      (by omega) _) (by omega) _
  have hf : (buildFrame n u (buildDmp n (Memory.ofBytes 0 (List.replicate (126 + n) (0x00 : Byte))))).map Prod.fst =
      List.range (126 + n) :=
    Memory.keys_range_write16 (Memory.keys_range_write (Memory.keys_range_write (Memory.keys_range_write32
      (Memory.keys_range_write16 hd (by omega) _) (by omega) _) (by omega) _) (by omega) _) (by omega) _
  exact Memory.keys_range_write32 (Memory.keys_range_write16 (Memory.keys_range_writeBytes (Memory.keys_range_write16
    (Memory.keys_range_write16 hf (by omega) _) (by omega) _) (by rw [magic_length]; omega)) (by omega) _) (by omega) _

/-- Every byte INIT leaves (R81): the last write to an address first. -/
theorem read_builtBuffer (n : Nat) (u : BitVec 16) (x : Nat) :
    (builtBuffer n u).read x =
      if x = 18 then some 0 else if x = 19 then some 0 else if x = 20 then some 0 else if x = 21 then some 4 else
      if x = 16 then some ((flength (110 + n)).extractLsb' 8 8) else
      if x = 17 then some ((flength (110 + n)).extractLsb' 0 8) else
      if 4 ≤ x ∧ x < 16 then magic.toList[x - 4]? else
      if x = 2 then some 0 else if x = 3 then some 0 else if x = 0 then some 0 else if x = 1 then some 0x10 else
      if x = 113 then some (u.extractLsb' 8 8) else if x = 114 then some (u.extractLsb' 0 8) else
      if x = 111 then some 0 else if x = 108 then some 100 else
      if x = 40 then some 0 else if x = 41 then some 0 else if x = 42 then some 0 else if x = 43 then some 2 else
      if x = 38 then some ((flength (88 + n)).extractLsb' 8 8) else
      if x = 39 then some ((flength (88 + n)).extractLsb' 0 8) else
      if x = 123 then some ((BitVec.ofNat 16 (n + 1)).extractLsb' 8 8) else
      if x = 124 then some ((BitVec.ofNat 16 (n + 1)).extractLsb' 0 8) else
      if x = 121 then some 0 else if x = 122 then some 1 else if x = 119 then some 0 else if x = 120 then some 0 else
      if x = 118 then some 0xA1 else if x = 117 then some 2 else
      if x = 115 then some ((flength (11 + n)).extractLsb' 8 8) else
      if x = 116 then some ((flength (11 + n)).extractLsb' 0 8) else
      if x < 126 + n then some 0 else none := by
  have h0 : (Memory.ofBytes 0 (List.replicate (126 + n) (0x00 : Byte))).read x = if x < 126 + n then some 0 else none := by
    rw [Memory.read_ofBytes]
    by_cases h : x < 126 + n <;> simp [h]
  simp only [builtBuffer, buildRoot, buildFrame, buildDmp, Memory.read_write16, Memory.read_write32, Memory.read_write,
    Memory.read_writeBytes, magic_length, h0]
  rfl

/-- The registers a freshly built packet has (R81, R82). -/
def builtRegs (n : Nat) (u : BitVec 16) : FieldRegs where
  root := ⟨0x0010, 0, magic, flength (110 + n), 4, Vector.replicate 16 0⟩
  frame := ⟨flength (88 + n), 2, Vector.replicate 64 0, 100, 0, 0, 0, u⟩
  dmp := ⟨flength (11 + n), 0x02, 0xA1, 0, 1, BitVec.ofNat 16 (n + 1)⟩

/-- The parser loads them (R84). -/
theorem parseAll_builtBuffer (n : Nat) (u : BitVec 16) : parseAll (builtBuffer n u) = some (builtRegs n u) := by
  have hz : ∀ x, (22 ≤ x ∧ x < 38) ∨ (44 ≤ x ∧ x < 108) → (builtBuffer n u).read x = some 0 := by
    intro x hx
    rw [read_builtBuffer]
    simp only [show ∀ k, (k < 22 ∨ 108 ≤ k ∨ (38 ≤ k ∧ k < 44)) → (x = k) = False from fun k hk => by simp; omega,
      if_false, Nat.reduceLT, Nat.reduceLeDiff, true_or, or_true, and_self]
    rw [if_neg (by omega), if_pos (by omega)]
  rw [parseAll_eq_some_iff, parseRoot_eq_some_iff, parseFrame_eq_some_iff, parseDmp_eq_some_iff]
  simp only [Memory.read16_eq_some_iff, Memory.read32_eq_some_iff, Memory.readVec_eq_some_iff, builtRegs]
  refine ⟨⟨?_, ?_, ?_, ?_, ?_, ?_⟩, ⟨?_, ?_, ?_, ?_, ?_, ?_, ?_, ?_⟩, ⟨?_, ?_, ?_, ?_, ?_, ?_⟩⟩
  case refine_3 =>
    intro i hi
    rw [read_builtBuffer, Nat.add_comm]
    simp [show ∀ k, 16 ≤ k → (i + 4 = k) = False from fun k hk => by simp; omega, hi]
  case refine_6 => intro i hi; rw [hz _ (by omega)]; simp
  case refine_9 => intro i hi; rw [hz _ (by omega)]; simp
  all_goals simp [read_builtBuffer, show 109 < 126 + n by omega, show 110 < 126 + n by omega, show 112 < 126 + n by omega]

end Sys2Proof.Machine
end

