-- ==== Sys2Proof/Laws/PerInstr.lean ====
section
/-! SUPPORT. A statement about every instruction as syntax, one lemma per constructor: its command word selects the row of
the opcode table that bears its mnemonic (spec/30_encoding.md R68). -/

namespace Sys2Proof.Laws.TableRow

/-- The command word of `i` selects the row of R68 with `i`'s mnemonic. -/
def Statement (i : Instr) : Prop :=
  ∃ r ∈ opcodeTable, r.mnemonic = i.mnemonic ∧ r.selects (encodeWord i) = true

/-- A word given by its four bytes selects a row whose mask and pattern are given by theirs, byte by byte. -/
theorem of_bytes {i : Instr} (name : String) {p3 p2 p1 p0 m3 m2 m1 m0 op b2 b1 b0 : Byte}
    (row : ⟨name, wordOf p3 p2 p1 p0, wordOf m3 m2 m1 m0⟩ ∈ opcodeTable)
    (named : name = i.mnemonic) (word : encodeWord i = wordOf op b2 b1 b0)
    (sel : op &&& m3 = p3 ∧ b2 &&& m2 = p2 ∧ b1 &&& m1 = p1 ∧ b0 &&& m0 = p0) : Statement i := by
  refine ⟨_, row, named, ?_⟩
  rw [OpcodeRow.selects, word, wordOf_and, sel.1, sel.2.1, sel.2.2.1, sel.2.2.2, beq_self_eq_true]

/-- A 3-bit field in its byte column leaves the bits above it clear (formats B of R61). -/
theorem bit_column (b : BitVec 3) : (0#5 ++ b : Byte) &&& 0xF8 = 0 := by revert b; decide

/-- The on bit in its byte column leaves the bits above it clear. -/
theorem on_column (on : Bool) : (0#7 ++ BitVec.ofBool on : Byte) &&& 0xFE = 0 := by revert on; decide

/-- A field id in its byte column leaves the bits above it clear. -/
theorem fid_column (f : FieldId) : (0#3 ++ idOfField f : Byte) &&& 0xE0 = 0 := by cases f <;> decide

theorem init (n : BitVec 16) : Statement (.init n) :=
  of_bytes "INIT" (p3 := 0x01) (p2 := 0x00) (p1 := 0x00) (p0 := 0x00) (m3 := 0xFF) (m2 := 0xFF) (m1 := 0x00) (m0 := 0x00)
    (by decide) rfl rfl (by simp)

theorem load (p : List Byte) : Statement (.load p) :=
  of_bytes "LOAD" (p3 := 0x02) (p2 := 0x00) (p1 := 0x00) (p0 := 0x00) (m3 := 0xFF) (m2 := 0xFF) (m1 := 0x00) (m0 := 0x00)
    (by decide) rfl rfl (by simp)

theorem parse : Statement .parse :=
  of_bytes "PARSE" (p3 := 0x03) (p2 := 0x00) (p1 := 0x00) (p0 := 0x00) (m3 := 0xFF) (m2 := 0xFF) (m1 := 0xFF) (m0 := 0xFF)
    (by decide) rfl rfl (by simp)

theorem getstate : Statement .getstate :=
  of_bytes "GETSTATE" (p3 := 0x04) (p2 := 0x00) (p1 := 0x00) (p0 := 0x00) (m3 := 0xFF) (m2 := 0xFF) (m1 := 0xFF) (m0 := 0xFF)
    (by decide) rfl rfl (by simp)

theorem bufrd (a : BitVec 16) : Statement (.bufrd a) :=
  of_bytes "BUFRD" (p3 := 0x08) (p2 := 0x00) (p1 := 0x00) (p0 := 0x00) (m3 := 0xFF) (m2 := 0x00) (m1 := 0x00) (m0 := 0xFF)
    (by decide) rfl rfl (by simp)

theorem bufwr (a : BitVec 16) (b : BitVec 8) : Statement (.bufwr a b) :=
  of_bytes "BUFWR" (p3 := 0x09) (p2 := 0x00) (p1 := 0x00) (p0 := 0x00) (m3 := 0xFF) (m2 := 0x00) (m1 := 0x00) (m0 := 0x00)
    (by decide) rfl rfl (by simp)

theorem validate : Statement .validate :=
  of_bytes "VALIDATE" (p3 := 0x10) (p2 := 0x00) (p1 := 0x00) (p0 := 0x00) (m3 := 0xFF) (m2 := 0xFF) (m1 := 0xFF) (m0 := 0xFF)
    (by decide) rfl rfl (by simp)

theorem discard (l : BitVec 8) : Statement (.discard l) :=
  of_bytes "DISCARD" (p3 := 0x18) (p2 := 0x00) (p1 := 0x00) (p0 := 0x00) (m3 := 0xFF) (m2 := 0xFF) (m1 := 0xFF) (m0 := 0x00)
    (by decide) rfl rfl (by simp)

theorem classify : Statement .classify :=
  of_bytes "CLASSIFY" (p3 := 0x19) (p2 := 0x00) (p1 := 0x00) (p0 := 0x00) (m3 := 0xFF) (m2 := 0xFF) (m1 := 0xFF) (m0 := 0xFF)
    (by decide) rfl rfl (by simp)

theorem incseq : Statement .incseq :=
  of_bytes "INCSEQ" (p3 := 0x1A) (p2 := 0x00) (p1 := 0x00) (p0 := 0x00) (m3 := 0xFF) (m2 := 0xFF) (m1 := 0xFF) (m0 := 0xFF)
    (by decide) rfl rfl (by simp)

theorem getfld (f : FieldId) : Statement (.getfld f) :=
  of_bytes "GETFLD" (p3 := 0x20) (p2 := 0x00) (p1 := 0x00) (p0 := 0x00) (m3 := 0xFF) (m2 := 0xFF) (m1 := 0xFF) (m0 := 0xE0)
    (by decide) rfl rfl (⟨by decide, by decide, by decide, fid_column f⟩)

theorem getcid : Statement .getcid :=
  of_bytes "GETCID" (p3 := 0x21) (p2 := 0x00) (p1 := 0x00) (p0 := 0x00) (m3 := 0xFF) (m2 := 0xFF) (m1 := 0xFF) (m0 := 0xFF)
    (by decide) rfl rfl (by simp)

theorem getname : Statement .getname :=
  of_bytes "GETNAME" (p3 := 0x22) (p2 := 0x00) (p1 := 0x00) (p0 := 0x00) (m3 := 0xFF) (m2 := 0xFF) (m1 := 0xFF) (m0 := 0xFF)
    (by decide) rfl rfl (by simp)

theorem getprio : Statement .getprio :=
  of_bytes "GETPRIO" (p3 := 0x23) (p2 := 0x00) (p1 := 0x00) (p0 := 0x00) (m3 := 0xFF) (m2 := 0xFF) (m1 := 0xFF) (m0 := 0xFF)
    (by decide) rfl rfl (by simp)

theorem getseq : Statement .getseq :=
  of_bytes "GETSEQ" (p3 := 0x24) (p2 := 0x00) (p1 := 0x00) (p0 := 0x00) (m3 := 0xFF) (m2 := 0xFF) (m1 := 0xFF) (m0 := 0xFF)
    (by decide) rfl rfl (by simp)

theorem getopt (b : BitVec 3) : Statement (.getopt b) :=
  of_bytes "GETOPT" (p3 := 0x25) (p2 := 0x00) (p1 := 0x00) (p0 := 0x00) (m3 := 0xFF) (m2 := 0xFF) (m1 := 0xF8) (m0 := 0xFF)
    (by decide) rfl rfl (⟨by decide, by decide, bit_column b, by decide⟩)

theorem getuniv : Statement .getuniv :=
  of_bytes "GETUNIV" (p3 := 0x26) (p2 := 0x00) (p1 := 0x00) (p0 := 0x00) (m3 := 0xFF) (m2 := 0xFF) (m1 := 0xFF) (m0 := 0xFF)
    (by decide) rfl rfl (by simp)

theorem getslots : Statement .getslots :=
  of_bytes "GETSLOTS" (p3 := 0x27) (p2 := 0x00) (p1 := 0x00) (p0 := 0x00) (m3 := 0xFF) (m2 := 0xFF) (m1 := 0xFF) (m0 := 0xFF)
    (by decide) rfl rfl (by simp)

theorem getpid : Statement .getpid :=
  of_bytes "GETPID" (p3 := 0x28) (p2 := 0x00) (p1 := 0x00) (p0 := 0x00) (m3 := 0xFF) (m2 := 0xFF) (m1 := 0xFF) (m0 := 0xFF)
    (by decide) rfl rfl (by simp)

theorem setcid (p : List Byte) : Statement (.setcid p) :=
  of_bytes "SETCID" (p3 := 0x31) (p2 := 0x00) (p1 := 0x00) (p0 := 0x00) (m3 := 0xFF) (m2 := 0xFF) (m1 := 0x00) (m0 := 0x00)
    (by decide) rfl rfl (by simp)

theorem setname (p : List Byte) : Statement (.setname p) :=
  of_bytes "SETNAME" (p3 := 0x32) (p2 := 0x00) (p1 := 0x00) (p0 := 0x00) (m3 := 0xFF) (m2 := 0xFF) (m1 := 0x00) (m0 := 0x00)
    (by decide) rfl rfl (by simp)

theorem setprio (p : BitVec 8) : Statement (.setprio p) :=
  of_bytes "SETPRIO" (p3 := 0x33) (p2 := 0x00) (p1 := 0x00) (p0 := 0x00) (m3 := 0xFF) (m2 := 0xFF) (m1 := 0xFF) (m0 := 0x00)
    (by decide) rfl rfl (by simp)

theorem setseq (n : BitVec 8) : Statement (.setseq n) :=
  of_bytes "SETSEQ" (p3 := 0x34) (p2 := 0x00) (p1 := 0x00) (p0 := 0x00) (m3 := 0xFF) (m2 := 0xFF) (m1 := 0xFF) (m0 := 0x00)
    (by decide) rfl rfl (by simp)

theorem setopt (b : BitVec 3) (on : Bool) : Statement (.setopt b on) :=
  of_bytes "SETOPT" (p3 := 0x35) (p2 := 0x00) (p1 := 0x00) (p0 := 0x00) (m3 := 0xFF) (m2 := 0xFF) (m1 := 0xF8) (m0 := 0xFE)
    (by decide) rfl rfl (⟨by decide, by decide, bit_column b, on_column on⟩)

theorem setuniv (u : BitVec 16) : Statement (.setuniv u) :=
  of_bytes "SETUNIV" (p3 := 0x36) (p2 := 0x00) (p1 := 0x00) (p0 := 0x00) (m3 := 0xFF) (m2 := 0xFF) (m1 := 0x00) (m0 := 0x00)
    (by decide) rfl rfl (by simp)

theorem setslots (p : List Byte) : Statement (.setslots p) :=
  of_bytes "SETSLOTS" (p3 := 0x37) (p2 := 0x00) (p1 := 0x00) (p0 := 0x00) (m3 := 0xFF) (m2 := 0xFF) (m1 := 0x00) (m0 := 0x00)
    (by decide) rfl rfl (by simp)

end Sys2Proof.Laws.TableRow
end

