-- ==== Sys2Proof/Laws/Step.lean ====
section
/-! SUPPORT. What a step can do around a command, what the step's command never touches, and the bytes a state that meets
the invariant has to read. -/

namespace Sys2Proof.Machine

/-- Everything a step can do: idle with nothing pending, answer an illegal word, or perform the command it decodes. -/
theorem step_eq_next_iff (s t : State) :
    step s = .next t ↔
      (s.cmds = [] ∧ t = s) ∨
        ∃ c rest, s.cmds = c :: rest ∧
          ((∃ e, decode c = .error e ∧ e ≠ .payloadMismatch ∧ t = (s.setCmds rest).setResp ⟨.errIllegal, 0, []⟩) ∨
           ∃ i, decode c = .ok i ∧ exec i (s.setCmds rest) = .next t) := by
  unfold step fetch
  cases hc : s.cmds with
  | nil => simp [idle, eq_comm]
  | cons c rest =>
    cases hd : decode c with
    | error e => simp [hd, reject_eq_next_iff]
    | ok i => simp [hd]

/-! ### What no command touches -/

theorem exec_cfg {i : Instr} {s t : State} (h : exec i s = .next t) : t.cfg = s.cfg := by
  cases exec_effect h <;> simp_all

theorem exec_cmds {i : Instr} {s t : State} (h : exec i s = .next t) : t.cmds = s.cmds := by
  cases exec_effect h <;> simp_all

/-- Every command that completes leaves a response (spec/30_encoding.md R70). -/
theorem exec_resp {i : Instr} {s t : State} (h : exec i s = .next t) : ∃ r, t.resp = some r := by
  cases exec_effect h <;> simp_all

/-! ### Under the invariant -/

theorem Params.valid_iff (p : Config.Params) :
    p.valid = true ↔
      (638 ≤ p.bufCap ∧ p.bufCap ≤ 65535) ∧ (1 ≤ p.defaultUniverse.toNat ∧ p.defaultUniverse.toNat ≤ 63999) ∧
        Memory.wf p.trkPreset = true ∧ ∀ c ∈ p.trkPreset, c.1 < 65536 := by
  simp only [Config.Params.valid, Bool.and_eq_true, decide_eq_true_eq, List.all_eq_true, Memory.wf_iff, and_assoc]

/-- Reset's buffer is in canonical form. -/
theorem reset_buf_wf (p : Config.Params) : (State.resetWith p).buf.wf = true := rfl

/-- With a packet, exactly the bytes below LEN have a value (spec/10_state.md R22, R23). -/
theorem State.Inv.read_isSome_iff {s : State} (h : s.Inv) (hp : s.pstate ≠ .uninit) (a : Nat) :
    (s.buf.read a).isSome ↔ a < s.len.toNat :=
  Memory.read_isSome_of_keys_range (h.packetBytes hp) a

theorem State.Inv.setResp {s : State} (h : s.Inv) (r : Response) : (s.setResp r).Inv :=
  ⟨h.cfgValid, h.trkCanonical, h.trkKeys, h.noPacket, h.packetLen, h.packetBytes⟩

theorem State.Inv.setCmds {s : State} (h : s.Inv) (cs : List Command) : (s.setCmds cs).Inv :=
  ⟨h.cfgValid, h.trkCanonical, h.trkKeys, h.noPacket, h.packetLen, h.packetBytes⟩

theorem parseRoot_of_keys {m : Memory} {n : Nat} (hn : 126 ≤ n) (h : m.map Prod.fst = List.range n) :
    ∃ r, parseRoot m = some r :=
  parseRoot_isSome fun a ha => (Memory.read_isSome_of_keys_range h a).mpr (by omega)

theorem parseFrame_of_keys {m : Memory} {n : Nat} (hn : 126 ≤ n) (h : m.map Prod.fst = List.range n) :
    ∃ r, parseFrame m = some r :=
  parseFrame_isSome fun a _ ha => (Memory.read_isSome_of_keys_range h a).mpr (by omega)

theorem parseDmp_of_keys {m : Memory} {n : Nat} (hn : 126 ≤ n) (h : m.map Prod.fst = List.range n) :
    ∃ r, parseDmp m = some r :=
  parseDmp_isSome fun a _ ha => (Memory.read_isSome_of_keys_range h a).mpr (by omega)

theorem parseAll_of_keys {m : Memory} {n : Nat} (hn : 126 ≤ n) (h : m.map Prod.fst = List.range n) :
    ∃ f, parseAll m = some f :=
  parseAll_isSome fun a ha => (Memory.read_isSome_of_keys_range h a).mpr (by omega)

end Sys2Proof.Machine
end

