-- ==== Sys2Proof/Machine/Assembler.lean ====
section
/-! DEFINITION. The written form of commands and responses (spec/30_encoding.md R75): mnemonic in capitals, operands
comma separated, byte strings as hexadecimal bytes inside angle brackets. Of the forms R75 allows, numbers are written in
decimal, a field id as its register's name, and `on` as 1 or 0. Nothing the block does depends on this file. -/

namespace Sys2Proof.Machine

/-- One hexadecimal digit, in capitals. -/
def hexDigit (n : Nat) : Char := if n < 10 then Char.ofNat (48 + n) else Char.ofNat (55 + n)

/-- A byte as two hexadecimal digits. -/
def hexByte (b : Byte) : List Char := [hexDigit (b.toNat / 16), hexDigit (b.toNat % 16)]

/-- Hexadecimal bytes separated by spaces. -/
def hexBytes : List Byte → List Char
  | [] => []
  | [b] => hexByte b
  | b :: bs => hexByte b ++ ' ' :: hexBytes bs

/-- A byte string of R75: `<0A 14 1E>`. -/
def byteString (s : List Byte) : List Char := '<' :: hexBytes s ++ ['>']

/-- A decimal number. -/
def decimal (n : Nat) : List Char := Nat.toDigits 10 n

/-- The name of a scalar field register (spec/10_state.md R26). -/
def fieldName : FieldId → List Char
  | .pre => ['P', 'R', 'E']
  | .post => ['P', 'O', 'S', 'T']
  | .rflen => ['R', 'F', 'L', 'E', 'N']
  | .rvec => ['R', 'V', 'E', 'C']
  | .fflen => ['F', 'F', 'L', 'E', 'N']
  | .fvec => ['F', 'V', 'E', 'C']
  | .prio => ['P', 'R', 'I', 'O']
  | .rsvd => ['R', 'S', 'V', 'D']
  | .seq => ['S', 'E', 'Q']
  | .opts => ['O', 'P', 'T', 'S']
  | .univ => ['U', 'N', 'I', 'V']
  | .dflen => ['D', 'F', 'L', 'E', 'N']
  | .dvec => ['D', 'V', 'E', 'C']
  | .dtype => ['D', 'T', 'Y', 'P', 'E']
  | .faddr => ['F', 'A', 'D', 'D', 'R']
  | .ainc => ['A', 'I', 'N', 'C']
  | .pvc => ['P', 'V', 'C']

/-- The operands of a command, in the order R75 writes them. -/
def operandsText : Instr → List (List Char)
  | .init n => [decimal n.toNat]
  | .load p => [byteString p]
  | .parse => []
  | .getstate => []
  | .bufrd a => [decimal a.toNat]
  | .bufwr a b => [decimal a.toNat, decimal b.toNat]
  | .validate => []
  | .discard l => [decimal l.toNat]
  | .classify => []
  | .incseq => []
  | .getfld f => [fieldName f]
  | .getcid => []
  | .getname => []
  | .getprio => []
  | .getseq => []
  | .getopt b => [decimal b.toNat]
  | .getuniv => []
  | .getslots => []
  | .getpid => []
  | .setcid p => [byteString p]
  | .setname p => [byteString p]
  | .setprio p => [decimal p.toNat]
  | .setseq n => [decimal n.toNat]
  | .setopt b on => [decimal b.toNat, decimal on.toNat]
  | .setuniv u => [decimal u.toNat]
  | .setslots p => [byteString p]

/-- Texts separated by a comma and a space. -/
def commaSeparated : List (List Char) → List Char
  | [] => []
  | [t] => t
  | t :: ts => t ++ ',' :: ' ' :: commaSeparated ts

/-- A command as R75 writes it. -/
def commandText (i : Instr) : List Char :=
  match operandsText i with
  | [] => i.mnemonic.toList
  | ts => i.mnemonic.toList ++ ' ' :: commaSeparated ts

/-- The name of a status (spec/60_exceptions.md R141). -/
def statusName : Status → String
  | .ok => "OK"
  | .errIllegal => "ERR_ILLEGAL"
  | .errState => "ERR_STATE"
  | .errSlotCount => "ERR_SLOTCOUNT"
  | .errSize => "ERR_SIZE"
  | .errRange => "ERR_RANGE"
  | .errCap => "ERR_CAP"
  | .errAddr => "ERR_ADDR"
  | .errLen => "ERR_LEN"

/-- A response as R75 writes it: `-> status, value` or `-> status, value, <data>`. -/
def responseText (r : Response) : List Char :=
  let head := ['-', '>', ' '] ++ (statusName r.status).toList ++ [',', ' '] ++ decimal r.value.toNat
  if r.data.isEmpty then head else head ++ [',', ' '] ++ byteString r.data

end Sys2Proof.Machine
end

