-- ==== Sys2Proof/Tests/Slice0.lean ====
section
/-! SUPPORT. The model's own tests. Expected results are those of spec/95_test_vectors.md (named V<n>) and
spec/30_encoding.md; and, for every obligation with hypotheses, a witness that meets them all. -/

namespace Sys2Proof.Tests

open Sys2Proof.Machine

set_option Elab.async false

/-! ### Helpers -/

/-- The state a result holds, reset where it holds none. -/
def stateOf : Result → State
  | .next t => t
  | .fault _ => State.reset
  | .refused _ => State.reset

/-- The result is a next state. -/
def ended : Result → Bool
  | .next _ => true
  | .fault _ => false
  | .refused _ => false

theorem next_of_ended {r : Result} (h : ended r = true) : r = .next (stateOf r) := by
  cases r <;> simp [ended, stateOf] at h ⊢

/-- The state after a few commands from `s`. -/
def after (s : State) (is : List Instr) : State := stateOf (execAll is s)

/-- What a command answers after a few others from `s`. -/
def answerAfter (s : State) (is : List Instr) (i : Instr) : Option Response := answer (exec i (after s is))

/-- Bytes 0 to 43 of the image IMG3 (V20). -/
def img3Head : List Byte :=
  [0x00, 0x10, 0x00, 0x00, 0x41, 0x53, 0x43, 0x2D, 0x45, 0x31, 0x2E, 0x31, 0x37, 0x00, 0x00, 0x00] ++
  [0x70, 0x71, 0x00, 0x00, 0x00, 0x04, 0x00, 0x00, 0x00, 0x00, 0x00, 0x00, 0x00, 0x00, 0x00, 0x00] ++
  [0x00, 0x00, 0x00, 0x00, 0x00, 0x00, 0x70, 0x5B, 0x00, 0x00, 0x00, 0x02]

/-- The image IMG3: the 129 bytes after INIT 3 (V20). -/
def img3 : List Byte :=
  img3Head ++ List.replicate 64 0 ++
  [0x64, 0x00, 0x00, 0x00, 0x00, 0x00, 0x01] ++
  [0x70, 0x0E, 0x02, 0xA1, 0x00, 0x00, 0x00, 0x01, 0x00, 0x04] ++ [0x00, 0x00, 0x00, 0x00]

/-- The image IMGA (spec/95_test_vectors.md): universe 7, sequence 254, priority 200, preview, name abc. -/
def imgA : List Byte :=
  [0x00, 0x10, 0x00, 0x00, 0x41, 0x53, 0x43, 0x2D, 0x45, 0x31, 0x2E, 0x31, 0x37, 0x00, 0x00, 0x00] ++
  [0x70, 0x71, 0x00, 0x00, 0x00, 0x04, 0x00, 0x01, 0x02, 0x03, 0x04, 0x05, 0x06, 0x07, 0x08, 0x09] ++
  [0x0A, 0x0B, 0x0C, 0x0D, 0x0E, 0x0F, 0x70, 0x5B, 0x00, 0x00, 0x00, 0x02, 0x61, 0x62, 0x63] ++ List.replicate 61 0 ++
  [0xC8, 0x00, 0x00, 0xFE, 0x80, 0x00, 0x07] ++
  [0x70, 0x0E, 0x02, 0xA1, 0x00, 0x00, 0x00, 0x01, 0x00, 0x04] ++ [0x00, 0x0A, 0x14, 0x1E]

/-- IMGA with some bytes changed. -/
def imgAWith : List (Nat × Byte) → List Byte
  | [] => imgA
  | (a, b) :: cs => (imgAWith cs).set a b

/-- The registers after LOAD <IMGA>, by V60. -/
def regsA : FieldRegs where
  root := ⟨0x0010, 0, magic, 0x7071, 4, #v[0, 1, 2, 3, 4, 5, 6, 7, 8, 9, 10, 11, 12, 13, 14, 15]⟩
  frame := ⟨0x705B, 2, (#v[0x61, 0x62, 0x63] : Vector Byte 3) ++ (Vector.replicate 61 0 : Vector Byte 61), 200, 0, 254, 0x80, 7⟩
  dmp := ⟨0x700E, 2, 0xA1, 0, 1, 4⟩

/-- The registers after INIT 3, by V20. -/
def regs3 : FieldRegs where
  root := ⟨0x0010, 0, magic, 0x7071, 4, Vector.replicate 16 0⟩
  frame := ⟨0x705B, 2, Vector.replicate 64 0, 100, 0, 0, 0, 1⟩
  dmp := ⟨0x700E, 2, 0xA1, 0, 1, 4⟩

/-- Reset with the 129-byte packet `m` in place, as a command that answered OK leaves it. -/
def withPacket (l : Lifecycle) (m : List Byte) : State :=
  (State.reset.newPacket l 129 (Memory.ofBytes 0 m)).setResp ⟨.ok, 129, []⟩

/-- The state after INIT 3, by V20. -/
def built3 : State := withPacket (.initialized regs3) img3

/-- The state after LOAD <IMGA>, by V23 and V60. -/
def loadedA : State := withPacket (.parsed regsA) imgA

/-! ### WellFormed: an ill-formed term for each payload command, which the check refuses -/

theorem refused_of_length {i : Instr} {n : Nat} (h : i.payload.length = n) (hn : 65536 ≤ n) : i.wellFormed = false := by
  rw [Instr.wellFormed, h]; exact decide_eq_false (Nat.not_lt.mpr hn)

theorem accepted_of_length {i : Instr} {n : Nat} (h : i.payload.length = n) (hn : n < 65536) : i.wellFormed = true := by
  rw [Instr.wellFormed, h]; exact decide_eq_true hn

theorem test_illformed_load : (Instr.load (List.replicate 65536 0)).wellFormed = false :=
  refused_of_length (List.length_replicate (n := 65536)) (Nat.le_refl _)

theorem test_illformed_setcid : (Instr.setcid (List.replicate 65536 0)).wellFormed = false :=
  refused_of_length (List.length_replicate (n := 65536)) (Nat.le_refl _)

theorem test_illformed_setname : (Instr.setname (List.replicate 65536 0)).wellFormed = false :=
  refused_of_length (List.length_replicate (n := 65536)) (Nat.le_refl _)

theorem test_illformed_setslots : (Instr.setslots (List.replicate 65536 0)).wellFormed = false :=
  refused_of_length (List.length_replicate (n := 65536)) (Nat.le_refl _)

theorem test_wellformed_longest : (Instr.load (List.replicate 65535 0)).wellFormed = true :=
  accepted_of_length (List.length_replicate (n := 65535)) (Nat.lt_succ_self _)

/-! ### Decoding: words written out from spec/30_encoding.md (V30), one or more per command -/

theorem test_decode_init_parse :
    decode ⟨0x01000003, []⟩ = .ok (.init 3) ∧
    decode ⟨0x01000200, []⟩ = .ok (.init 512) ∧
    decode ⟨0x03000000, []⟩ = .ok (.parse) ∧
    decode ⟨0x04000000, []⟩ = .ok (.getstate) := by
  decide

theorem test_encode_init_parse :
    encode (.init 3) = ⟨0x01000003, []⟩ ∧
    encode (.init 512) = ⟨0x01000200, []⟩ ∧
    encode (.parse) = ⟨0x03000000, []⟩ ∧
    encode (.getstate) = ⟨0x04000000, []⟩ := by
  decide

theorem test_decode_payload :
    decode ⟨0x02000003, [1, 2, 3]⟩ = .ok (.load [1, 2, 3]) ∧
    decode ⟨0x31000002, [7, 8]⟩ = .ok (.setcid [7, 8]) ∧
    decode ⟨0x32000003, [0x61, 0x62, 0x63]⟩ = .ok (.setname [0x61, 0x62, 0x63]) ∧
    decode ⟨0x37000003, [0x0A, 0x14, 0x1E]⟩ = .ok (.setslots [0x0A, 0x14, 0x1E]) ∧
    decode ⟨0x32000000, []⟩ = .ok (.setname []) := by
  decide

theorem test_encode_payload :
    encode (.load [1, 2, 3]) = ⟨0x02000003, [1, 2, 3]⟩ ∧
    encode (.setcid [7, 8]) = ⟨0x31000002, [7, 8]⟩ ∧
    encode (.setname [0x61, 0x62, 0x63]) = ⟨0x32000003, [0x61, 0x62, 0x63]⟩ ∧
    encode (.setslots [0x0A, 0x14, 0x1E]) = ⟨0x37000003, [0x0A, 0x14, 0x1E]⟩ ∧
    encode (.setname []) = ⟨0x32000000, []⟩ := by
  decide

theorem test_decode_buffer :
    decode ⟨0x08007D00, []⟩ = .ok (.bufrd 125) ∧
    decode ⟨0x08FFFF00, []⟩ = .ok (.bufrd 65535) ∧
    decode ⟨0x09007503, []⟩ = .ok (.bufwr 117 0x03) := by
  decide

theorem test_encode_buffer :
    encode (.bufrd 125) = ⟨0x08007D00, []⟩ ∧
    encode (.bufrd 65535) = ⟨0x08FFFF00, []⟩ ∧
    encode (.bufwr 117 0x03) = ⟨0x09007503, []⟩ := by
  decide

theorem test_decode_judge :
    decode ⟨0x10000000, []⟩ = .ok (.validate) ∧
    decode ⟨0x180000FF, []⟩ = .ok (.discard 255) ∧
    decode ⟨0x19000000, []⟩ = .ok (.classify) ∧
    decode ⟨0x1A000000, []⟩ = .ok (.incseq) := by
  decide

theorem test_encode_judge :
    encode (.validate) = ⟨0x10000000, []⟩ ∧
    encode (.discard 255) = ⟨0x180000FF, []⟩ ∧
    encode (.classify) = ⟨0x19000000, []⟩ ∧
    encode (.incseq) = ⟨0x1A000000, []⟩ := by
  decide

theorem test_decode_read :
    decode ⟨0x2000000A, []⟩ = .ok (.getfld .univ) ∧
    decode ⟨0x20000010, []⟩ = .ok (.getfld .pvc) ∧
    decode ⟨0x21000000, []⟩ = .ok (.getcid) ∧
    decode ⟨0x22000000, []⟩ = .ok (.getname) ∧
    decode ⟨0x23000000, []⟩ = .ok (.getprio) ∧
    decode ⟨0x24000000, []⟩ = .ok (.getseq) ∧
    decode ⟨0x25000700, []⟩ = .ok (.getopt 7) ∧
    decode ⟨0x26000000, []⟩ = .ok (.getuniv) ∧
    decode ⟨0x27000000, []⟩ = .ok (.getslots) ∧
    decode ⟨0x28000000, []⟩ = .ok (.getpid) := by
  decide

theorem test_encode_read :
    encode (.getfld .univ) = ⟨0x2000000A, []⟩ ∧
    encode (.getfld .pvc) = ⟨0x20000010, []⟩ ∧
    encode (.getcid) = ⟨0x21000000, []⟩ ∧
    encode (.getname) = ⟨0x22000000, []⟩ ∧
    encode (.getprio) = ⟨0x23000000, []⟩ ∧
    encode (.getseq) = ⟨0x24000000, []⟩ ∧
    encode (.getopt 7) = ⟨0x25000700, []⟩ ∧
    encode (.getuniv) = ⟨0x26000000, []⟩ ∧
    encode (.getslots) = ⟨0x27000000, []⟩ ∧
    encode (.getpid) = ⟨0x28000000, []⟩ := by
  decide

theorem test_decode_write :
    decode ⟨0x33000064, []⟩ = .ok (.setprio 100) ∧
    decode ⟨0x340000FE, []⟩ = .ok (.setseq 254) ∧
    decode ⟨0x35000701, []⟩ = .ok (.setopt 7 true) ∧
    decode ⟨0x35000600, []⟩ = .ok (.setopt 6 false) ∧
    decode ⟨0x3600F9FF, []⟩ = .ok (.setuniv 63999) := by
  decide

theorem test_encode_write :
    encode (.setprio 100) = ⟨0x33000064, []⟩ ∧
    encode (.setseq 254) = ⟨0x340000FE, []⟩ ∧
    encode (.setopt 7 true) = ⟨0x35000701, []⟩ ∧
    encode (.setopt 6 false) = ⟨0x35000600, []⟩ ∧
    encode (.setuniv 63999) = ⟨0x3600F9FF, []⟩ := by
  decide

/-- Illegal words (V31). -/
theorem test_illegal_words :
    decode ⟨0x00000000, []⟩ = .error .noSuchOpcode ∧
    decode ⟨0xFFFFFFFF, []⟩ = .error .noSuchOpcode ∧
    decode ⟨0x05000000, []⟩ = .error .noSuchOpcode ∧
    decode ⟨0x30000000, []⟩ = .error .noSuchOpcode ∧
    decode ⟨0x29000000, []⟩ = .error .noSuchOpcode ∧
    decode ⟨0x38000000, []⟩ = .error .noSuchOpcode ∧
    decode ⟨0x1B000000, []⟩ = .error .noSuchOpcode ∧
    decode ⟨0x11000000, []⟩ = .error .noSuchOpcode ∧
    decode ⟨0x01010003, []⟩ = .error .reservedBits ∧
    decode ⟨0x03000001, []⟩ = .error .reservedBits ∧
    decode ⟨0x18000113, []⟩ = .error .reservedBits ∧
    decode ⟨0x0800FFFF, []⟩ = .error .reservedBits ∧
    decode ⟨0x08007D01, []⟩ = .error .reservedBits ∧
    decode ⟨0x25000701, []⟩ = .error .reservedBits ∧
    decode ⟨0x25000800, []⟩ = .error .reservedBits ∧
    decode ⟨0x35000703, []⟩ = .error .reservedBits ∧
    decode ⟨0x35010701, []⟩ = .error .reservedBits ∧
    decode ⟨0x20000020, []⟩ = .error .reservedBits ∧
    decode ⟨0x36010000, []⟩ = .error .reservedBits ∧
    decode ⟨0x20000011, []⟩ = .error .reservedFieldId ∧
    decode ⟨0x2000001F, []⟩ = .error .reservedFieldId := by
  decide

/-- LOAD with W[16] set takes 129 payload bytes and is illegal (V31, R74). -/
theorem test_illegal_load_takes_payload :
    decode ⟨0x02010081, imgA⟩ = .error .reservedBits ∧ payloadLenOf 0x02010081 = 129 := by
  decide +kernel

/-- The 26 rows of spec/opcode_table.json with every operand bit 0: decodeTableWord gives the row's command. -/
theorem test_table_words :
    ∀ r ∈ opcodeTable, (decodeTableWord 32 r.pattern.toNat).map Instr.mnemonic = some r.mnemonic := by
  decide

/-- A step runs the word presented as the first command after reset: INIT 3 (V20). -/
theorem test_step_presented_word :
    stateOf (step (State.reset.withFetchWord 32 0x01000003)) = built3 := by
  decide +kernel

/-- An illegal word answers ERR_ILLEGAL and changes nothing else (V31). -/
theorem test_step_illegal_word :
    stateOf (step (built3.setCmds [⟨0x05000000, []⟩])) = built3.setResp ⟨.errIllegal, 0, []⟩ := by
  decide +kernel

/-! ### Codes (R141, R145, R146, R24) -/

theorem test_codes :
    [Status.ok, .errIllegal, .errState, .errSlotCount, .errSize, .errRange, .errCap, .errAddr, .errLen].map Status.code =
      [0, 1, 2, 3, 4, 5, 6, 7, 8] ∧
    [Validation.none, .rootLayerInvalid, .frameLayerInvalid, .dmpLayerInvalid].map Validation.code = [0, 1, 2, 3] ∧
    [PacketClass.accepted, .outOfOrder, .invalid].map PacketClass.code = [0, 1, 2] ∧
    [PState.uninit, .initialized, .parsed].map PState.code = [0, 1, 2] := by
  decide

/-! ### One step of each command -/

/-- INIT 3 leaves IMG3 and its registers (V20). -/
theorem test_init_image :
    stateOf (exec (.init 3) State.reset) = built3 := by
  decide +kernel

/-- INIT 512 and the illegal counts (V21). -/
theorem test_init_extremes :
    answerAfter State.reset [] (.init 512) = some ⟨.ok, 638, []⟩ ∧
    ([0, 513, 65535].map fun n => answerAfter State.reset [] (.init n)) = List.replicate 3 (some ⟨.errSlotCount, 0, []⟩) := by
  decide +kernel

/-- LOAD <IMGA> loads the registers of V60 (V23). -/
theorem test_load_registers :
    stateOf (exec (.load imgA) State.reset) = loadedA := by
  decide +kernel

/-- LOAD of 125, 126, 638 and 639 bytes (V23, V6). -/
theorem test_load_lengths :
    ([125, 126, 638, 639].map fun n => (answerAfter State.reset [] (.load (List.replicate n 0))).map Response.status) =
      [some .errSize, some .ok, some .ok, some .errCap] := by
  decide +kernel

/-- PARSE picks up a poked DMP vector (V5). -/
theorem test_parse_after_poke :
    answerAfter loadedA [.bufwr 117 3] .parse = some ⟨.ok, 0, []⟩ ∧
    answerAfter loadedA [.bufwr 117 3, .parse] .validate = some ⟨.ok, 3, []⟩ := by
  decide +kernel

/-- GETSTATE (V25). -/
theorem test_getstate :
    answerAfter State.reset [] .getstate = some ⟨.ok, 0, []⟩ ∧ answerAfter built3 [] .getstate = some ⟨.ok, 0x00010081, []⟩ ∧
    answerAfter loadedA [] .getstate = some ⟨.ok, 0x00020081, []⟩ := by
  decide +kernel

/-- BUFRD (V24). -/
theorem test_bufrd :
    answerAfter built3 [] (.bufrd 16) = some ⟨.ok, 0x70, []⟩ ∧ answerAfter built3 [] (.bufrd 128) = some ⟨.ok, 0, []⟩ ∧
    answerAfter built3 [] (.bufrd 129) = some ⟨.errAddr, 0, []⟩ ∧ answerAfter State.reset [] (.bufrd 0) = some ⟨.errState, 0, []⟩ := by
  decide +kernel

/-- BUFWR (V24). -/
theorem test_bufwr :
    answerAfter built3 [] (.bufwr 129 1) = some ⟨.errAddr, 0, []⟩ ∧
    answerAfter built3 [.bufwr 128 0xAA] .getslots = some ⟨.ok, 3, [0, 0, 0xAA]⟩ := by
  decide +kernel

/-- VALIDATE (V40). -/
theorem test_validate_layers :
    ([[(4, 0x61)], [(18, 1)], [(40, 0x80)], [(119, 1)], [(43, 3), (117, 3)]].map fun cs =>
      (answerAfter State.reset [.load (imgAWith cs)] .validate).map Response.value) = [some 1, some 1, some 2, some 3, some 2] := by
  decide +kernel

/-- VALIDATE checks no other field (V40). -/
theorem test_validate_unchecked :
    ([[(0, 0xFF), (2, 0x12), (16, 0)], [(30, 9), (108, 0xFF), (109, 0xAB)], [(112, 0x3F), (114, 0), (124, 0), (125, 0xDD)]].map
      fun cs => (answerAfter State.reset [.load (imgAWith cs)] .validate).map Response.value) =
      List.replicate 3 (some 0) := by
  decide +kernel

/-- ShouldDiscard (V50). -/
theorem test_discard_pairs :
    ([(0, 0), (0, 19), (0, 20), (1, 0), (0, 255), (255, 0), (5, 250), (250, 5), (0, 1), (236, 255), (235, 255), (19, 0),
      (10, 29), (10, 30)].map fun (q : Byte × Byte) => shouldDiscard q.1 q.2) =
      [true, true, false, false, false, false, false, false, true, true, false, false, true, false] := by
  decide

/-- DISCARD on the boundaries of the window (V2). -/
theorem test_discard :
    ([100, 119, 120, 99].map fun l => answerAfter built3 [.setseq 100] (.discard l)) =
      [some ⟨.ok, 1, []⟩, some ⟨.ok, 1, []⟩, some ⟨.ok, 0, []⟩, some ⟨.ok, 0, []⟩] := by
  decide +kernel

/-- CLASSIFY, first sight and repeat (V52). -/
theorem test_classify_first_sight :
    answerAfter loadedA [] .classify = some ⟨.ok, 0, []⟩ ∧ (after loadedA [.classify]).trk = [(7, 254)] ∧
    answerAfter loadedA [.classify] .classify = some ⟨.ok, 1, []⟩ := by
  decide +kernel

/-- CLASSIFY of an invalid packet leaves the tracker alone (V52). -/
theorem test_classify_invalid :
    ([[(4, 0)], [(43, 3)], [(117, 3)]].map fun cs => answerAfter State.reset [.load (imgAWith cs)] .classify) =
      [some ⟨.ok, 0x0102, []⟩, some ⟨.ok, 0x0202, []⟩, some ⟨.ok, 0x0302, []⟩] ∧
    (after State.reset [.load (imgAWith [(4, 0)]), .classify]).trk = [] := by
  decide +kernel

/-- INCSEQ (V53). -/
theorem test_incseq :
    answerAfter loadedA [] .incseq = some ⟨.ok, 255, []⟩ ∧
    answerAfter loadedA [.incseq] .incseq = some ⟨.ok, 0, []⟩ := by
  decide +kernel

/-- INCSEQ takes the register, not the buffer (V53). -/
theorem test_incseq_stale :
    answerAfter built3 [.bufwr 111 5] .incseq = some ⟨.ok, 1, []⟩ ∧
    (after built3 [.bufwr 111 5, .incseq]).buf.read 111 = some 1 := by
  decide +kernel

/-- GETFLD of all 17 registers (V60). -/
theorem test_getfld :
    ([FieldId.pre, .post, .rflen, .rvec, .fflen, .fvec, .prio, .rsvd, .seq, .opts, .univ, .dflen, .dvec, .dtype, .faddr,
      .ainc, .pvc].map fun f => (answerAfter loadedA [] (.getfld f)).map Response.value) =
      [some 0x10, some 0, some 0x7071, some 4, some 0x705B, some 2, some 200, some 0, some 254, some 0x80, some 7,
       some 0x700E, some 2, some 0xA1, some 0, some 1, some 4] := by
  decide +kernel

/-- GETCID (V60). -/
theorem test_getcid :
    answerAfter loadedA [] .getcid = some ⟨.ok, 0, [0, 1, 2, 3, 4, 5, 6, 7, 8, 9, 10, 11, 12, 13, 14, 15]⟩ := by
  decide +kernel

/-- GETNAME (V60). -/
theorem test_getname :
    answerAfter loadedA [] .getname = some ⟨.ok, 0, [0x61, 0x62, 0x63] ++ List.replicate 61 0⟩ := by
  decide +kernel

/-- GETPRIO, GETSEQ, GETUNIV (V60). -/
theorem test_getprio_getseq_getuniv :
    answerAfter loadedA [] .getprio = some ⟨.ok, 200, []⟩ ∧ answerAfter loadedA [] .getseq = some ⟨.ok, 254, []⟩ ∧
    answerAfter loadedA [] .getuniv = some ⟨.ok, 7, []⟩ := by
  decide +kernel

/-- GETOPT (V60). -/
theorem test_getopt :
    ([7, 6, 0].map fun b => answerAfter loadedA [] (.getopt b)) =
      [some ⟨.ok, 1, []⟩, some ⟨.ok, 0, []⟩, some ⟨.ok, 0, []⟩] := by
  decide +kernel

/-- GETSLOTS ignores PVC (V60, V61). -/
theorem test_getslots :
    answerAfter loadedA [] .getslots = some ⟨.ok, 3, [0x0A, 0x14, 0x1E]⟩ ∧
    answerAfter State.reset [.load (imgAWith [(124, 0)])] .getslots = some ⟨.ok, 3, [0x0A, 0x14, 0x1E]⟩ := by
  decide +kernel

/-- GETPID (V60). -/
theorem test_getpid :
    answerAfter loadedA [] .getpid =
      some ⟨.ok, 0, [0x41, 0x53, 0x43, 0x2D, 0x45, 0x31, 0x2E, 0x31, 0x37, 0, 0, 0]⟩ := by
  decide +kernel

/-- SETCID (V70). -/
theorem test_setcid :
    answerAfter built3 [.setcid (List.replicate 16 5)] .getcid = some ⟨.ok, 0, List.replicate 16 5⟩ ∧
    ([15, 17, 0].map fun n => answerAfter built3 [] (.setcid (List.replicate n 5))) =
      List.replicate 3 (some ⟨.errLen, 0, []⟩) := by
  decide +kernel

/-- SETNAME pads with zeros (V71). -/
theorem test_setname_pads :
    (after built3 [.setname [0x61, 0x62, 0x63]]).buf.readBytes 44 64 = some ([0x61, 0x62, 0x63] ++ List.replicate 61 0) := by
  decide +kernel

/-- SETNAME drops what is beyond 64 bytes and leaves the priority (V71). -/
theorem test_setname_truncates :
    (after built3 [.setname (List.replicate 70 0x41)]).buf.readBytes 44 65 = some (List.replicate 64 0x41 ++ [0x64]) := by
  decide +kernel

/-- SETPRIO and SETSEQ (V72). -/
theorem test_setprio_setseq :
    (after built3 [.setprio 255]).buf.read 108 = some 255 ∧ answerAfter built3 [.setprio 255] .getprio = some ⟨.ok, 255, []⟩ ∧
    (after built3 [.setseq 254]).buf.read 111 = some 254 := by
  decide +kernel

/-- SETOPT (V73). -/
theorem test_setopt_chain :
    (after built3 [.setopt 7 true, .setopt 6 true]).buf.read 112 = some 0xC0 ∧
    (after built3 [.setopt 7 true, .setopt 6 true, .setopt 7 false]).buf.read 112 = some 0x40 := by
  decide +kernel

/-- SETOPT takes the old options from the register (V73). -/
theorem test_setopt_stale :
    (after built3 [.bufwr 112 0x3F, .setopt 7 true]).buf.read 112 = some 0x80 := by
  decide +kernel

/-- SETUNIV (V3, V74). -/
theorem test_setuniv :
    ([0, 1, 63999, 64000, 65535].map fun u => (answerAfter built3 [] (.setuniv u)).map Response.status) =
      [some .errRange, some .ok, some .ok, some .errRange, some .errRange] ∧
    (after built3 [.setuniv 63999]).buf.readBytes 113 2 = some [0xF9, 0xFF] := by
  decide +kernel

/-- SETSLOTS after INIT 3 (V75). -/
theorem test_setslots :
    answerAfter built3 [.setslots [0x0A, 0x14, 0x1E, 0x28]] .getslots = some ⟨.ok, 3, [0x0A, 0x14, 0x1E]⟩ ∧
    (after built3 [.setslots [0x0A, 0x14, 0x1E, 0x28]]).buf.read 125 = some 0 := by
  decide +kernel

/-- SETSLOTS on packets with another PVC (V75). -/
theorem test_setslots_pvc :
    answerAfter State.reset [.load (imgAWith [(124, 0)]), .setslots [0xEE, 0xEE]] .getslots = some ⟨.ok, 3, [0x0A, 0x14, 0x1E]⟩ ∧
    answerAfter State.reset [.load (imgAWith [(123, 2), (124, 0x58)]), .setslots [1, 2, 3, 4, 5]] .getslots = some ⟨.ok, 3, [1, 2, 3]⟩ ∧
    answerAfter State.reset [.load (imgAWith [(124, 2)]), .setslots [9, 8, 7]] .getslots = some ⟨.ok, 3, [9, 0x14, 0x1E]⟩ := by
  decide +kernel

/-- From reset every command but INIT, LOAD and GETSTATE answers ERR_STATE (R143). -/
theorem test_errState_from_reset :
    ∀ i ∈ [Instr.parse, .bufrd 0, .bufwr 0 0, .validate, .discard 0, .classify, .incseq, .getfld .pre, .getcid, .getname,
      .getprio, .getseq, .getopt 0, .getuniv, .getslots, .getpid, .setcid [], .setname [], .setprio 0, .setseq 0,
      .setopt 0 true, .setuniv 0, .setslots []], answer (exec i State.reset) = some ⟨.errState, 0, []⟩ := by
  decide +kernel

/-- The multicast groups of V4. -/
theorem test_platform :
    multicastGroup 1 = some (239, 255, 0, 1) ∧ multicastGroup 63999 = some (239, 255, 249, 255) ∧
    multicastGroup 256 = some (239, 255, 1, 0) ∧ multicastGroup 0 = none ∧ multicastGroup 64000 = none := by
  decide

/-- The written form of R75. -/
theorem test_written_form :
    String.ofList (commandText (.setslots [0x0A, 0x14, 0x1E])) = "SETSLOTS <0A 14 1E>" ∧
    String.ofList (commandText (.bufwr 117 3)) = "BUFWR 117, 3" ∧
    String.ofList (responseText ⟨.ok, 3, [0x0A]⟩) = "-> OK, 3, <0A>" := by
  decide +kernel

/-- RECV classifies only what LOAD took (R76). -/
theorem test_pseudo_recv :
    answer (execPseudo (.recv imgA) State.reset) = some ⟨.ok, 0, []⟩ ∧
    answer (execPseudo (.recv []) State.reset) = some ⟨.errSize, 0, []⟩ := by
  decide +kernel

/-! ### Witnesses: for every obligation with hypotheses, values that meet them together -/

/-- The response of a command is OK, a Bool for `decide`. -/
def answersOk (r : Result) : Bool := (answer r).map Response.status == some .ok

theorem reset_inv : State.reset.Inv where
  cfgValid := by decide
  trkCanonical := rfl
  trkKeys := by decide
  noPacket := fun _ => ⟨rfl, rfl⟩
  packetLen := fun h => absurd rfl h
  packetBytes := fun h => absurd rfl h

theorem built3_inv : built3.Inv where
  cfgValid := by decide +kernel
  trkCanonical := by decide +kernel
  trkKeys := by decide +kernel
  noPacket := fun h => absurd h (by decide +kernel)
  packetLen := fun _ => by decide +kernel
  packetBytes := fun _ => by decide +kernel

theorem loadedA_inv : loadedA.Inv where
  cfgValid := by decide +kernel
  trkCanonical := by decide +kernel
  trkKeys := by decide +kernel
  noPacket := fun h => absurd h (by decide +kernel)
  packetLen := fun _ => by decide +kernel
  packetBytes := fun _ => by decide +kernel

theorem built3_regs : built3.fieldRegs = some regs3 := rfl

theorem loadedA_regs : loadedA.fieldRegs = some regsA := rfl

theorem built3_packet : built3.pstate ≠ .uninit := nofun

theorem built3_built : built3.Built 3 regs3 where
  slots := by decide
  life := rfl
  len := by decide +kernel
  pre := rfl
  post := rfl
  pid := rfl
  rflen := by decide
  rvec := rfl
  fflen := by decide
  fvec := rfl
  rsvd := rfl
  univ := by decide
  dflen := by decide
  dvec := rfl
  dtype := rfl
  faddr := rfl
  ainc := rfl
  pvc := by decide
  current := by decide +kernel
  valid := by decide +kernel

theorem built3_current : built3.Current := by
  have h : parseRoot built3.buf = some regs3.root ∧ parseFrame built3.buf = some regs3.frame ∧
      parseDmp built3.buf = some regs3.dmp := by decide +kernel
  refine ⟨fun f hf => ?_, fun f hf => ?_, fun f hf => ?_⟩ <;> rw [built3_regs] at hf <;> cases hf
  · exact h.1
  · exact h.2.1
  · exact h.2.2

/-- A PARSE pending on the built packet. -/
def pendingParse : State := built3.setCmds [⟨0x03000000, []⟩]

/-- A word with no opcode pending, and a GETFLD of field id 17. -/
def pendingIllegal : State := built3.setCmds [⟨0x05000000, []⟩, ⟨0x20000011, []⟩]

theorem test_witness_DecodeOfEncode :
    (Instr.load imgA).wellFormed = true ∧ (Instr.setopt 7 true).wellFormed = true := by decide +kernel

theorem test_witness_EncodeOfDecode : decode ⟨0x35000701, []⟩ = .ok (.setopt 7 true) := by decide

theorem test_witness_LegalWordsAreTheTableRows :
    (∃ r ∈ opcodeTable, r.selects 0x20000010 = true ∧ (r.mnemonic = "GETFLD" → (fidOf 0x20000010).toNat ≤ 16)) ∧
    decodeWord 0x20000010 [] = .ok (.getfld .pvc) :=
  ⟨⟨⟨"GETFLD", 0x20000000, 0xFFFFFFE0⟩, by decide, by decide, fun _ => by decide⟩, by decide⟩

theorem test_witness_OperandsAreFieldsOfTheWord :
    decode ⟨0x01008001, []⟩ = .ok (.init 0x8001) ∧ decode ⟨0x3600FFFE, []⟩ = .ok (.setuniv 0xFFFE) ∧
    decode ⟨0x08FF0100, []⟩ = .ok (.bufrd 0xFF01) ∧ decode ⟨0x09FF0180, []⟩ = .ok (.bufwr 0xFF01 0x80) ∧
    decode ⟨0x18000080, []⟩ = .ok (.discard 0x80) ∧ decode ⟨0x33000001, []⟩ = .ok (.setprio 1) ∧
    decode ⟨0x340000FE, []⟩ = .ok (.setseq 0xFE) ∧ decode ⟨0x25000100, []⟩ = .ok (.getopt 1) ∧
    decode ⟨0x35000401, []⟩ = .ok (.setopt 4 true) ∧ decode ⟨0x35000700, []⟩ = .ok (.setopt 7 false) ∧
    decode ⟨0x20000010, []⟩ = .ok (.getfld .pvc) ∧ decode ⟨0x02000001, [9]⟩ = .ok (.load [9]) ∧
    decode ⟨0x31000002, [9, 8]⟩ = .ok (.setcid [9, 8]) ∧ decode ⟨0x32000000, []⟩ = .ok (.setname []) ∧
    decode ⟨0x37000001, [7]⟩ = .ok (.setslots [7]) := by decide

theorem test_witness_StepRunsTheDecodedCommand :
    pendingParse.cmds = ⟨0x03000000, []⟩ :: [] ∧ decode ⟨0x03000000, []⟩ = .ok .parse := ⟨rfl, by decide⟩

theorem test_witness_PresentedWordRunsNext : decodeTableWord 32 0x180000FF = some (.discard 255) := by decide

theorem test_witness_IllegalWordAnswersErrIllegal :
    pendingIllegal.cmds = ⟨0x05000000, []⟩ :: [⟨0x20000011, []⟩] ∧
    ([] : List Byte).length = payloadLenOf 0x05000000 ∧ ([] : List Byte).length = payloadLenOf 0x20000011 ∧
    (∀ r ∈ opcodeTable, r.selects 0x05000000 = true → r.mnemonic = "GETFLD" ∧ 16 < (fidOf 0x05000000).toNat) ∧
    (∀ r ∈ opcodeTable, r.selects 0x20000011 = true → r.mnemonic = "GETFLD" ∧ 16 < (fidOf 0x20000011).toNat) := by
  refine ⟨rfl, ?_, ?_, ?_, ?_⟩ <;> decide

theorem test_witness_MisframedPairIsRefused :
    (State.reset.setCmds [⟨0x31000010, [1]⟩]).cmds = ⟨0x31000010, [1]⟩ :: [] ∧
    ([1] : List Byte).length ≠ payloadLenOf 0x31000010 := ⟨rfl, by decide⟩

theorem test_witness_IdleBlockKeepsAllState : State.reset.cmds = [] := rfl

/-- Parameters at the other end of their ranges. -/
def otherParams : Config.Params := ⟨65535, 63999, [(0, 0), (65535, 255)]⟩

theorem test_witness_ResetLeaves : Config.Params.default.valid = true ∧ otherParams.valid = true := by decide

theorem test_witness_ResetMeetsInvariant : Config.Params.default.valid = true ∧ otherParams.valid = true := by decide

theorem test_witness_StepKeepsInvariant : pendingParse.Inv ∧ step pendingParse = .next (stateOf (step pendingParse)) :=
  ⟨⟨built3_inv.1, built3_inv.2, built3_inv.3, built3_inv.4, built3_inv.5, built3_inv.6⟩,
   next_of_ended (by decide +kernel)⟩

theorem test_witness_EveryCommandIsAnswered : pendingParse.Inv ∧ pendingParse.Framed ∧ pendingParse.cmds ≠ [] := by
  refine ⟨⟨built3_inv.1, built3_inv.2, built3_inv.3, built3_inv.4, built3_inv.5, built3_inv.6⟩, ?_, by decide⟩
  intro c rest h
  cases h
  decide

theorem test_witness_ErrStateExactlyInUninit :
    State.reset.Inv ∧ needsNoPacket .parse = false ∧ State.reset.pstate = .uninit ∧ built3.pstate ≠ .uninit ∧
    exec .getslots built3 = .next (stateOf (exec .getslots built3)) ∧
    (stateOf (exec .getslots built3)).resp = some ⟨.ok, 3, [0, 0, 0]⟩ :=
  ⟨reset_inv, rfl, rfl, built3_packet, next_of_ended (by decide +kernel), by decide +kernel⟩

theorem test_witness_FailedCommandChangesNothing :
    pendingIllegal.cmds = ⟨0x05000000, []⟩ :: [⟨0x20000011, []⟩] ∧
    step pendingIllegal = .next (stateOf (step pendingIllegal)) ∧
    (stateOf (step pendingIllegal)).resp = some ⟨.errIllegal, 0, []⟩ ∧ Status.errIllegal ≠ .ok :=
  ⟨rfl, next_of_ended (by decide +kernel), by decide +kernel, by decide⟩

/-- One command for each error status of exec, and the state it fails in. -/
theorem test_witness_ErrorsOnlyOnTheirConditions :
    answer (exec .parse State.reset) = some ⟨.errState, 0, []⟩ ∧
    answer (exec (.init 0) State.reset) = some ⟨.errSlotCount, 0, []⟩ ∧
    answer (exec (.init 513) State.reset) = some ⟨.errSlotCount, 0, []⟩ ∧
    answer (exec (.load (List.replicate 125 0)) State.reset) = some ⟨.errSize, 0, []⟩ ∧
    answer (exec (.load (List.replicate 639 0)) State.reset) = some ⟨.errCap, 0, []⟩ ∧
    answer (exec (.setuniv 0) built3) = some ⟨.errRange, 0, []⟩ ∧
    answer (exec (.setuniv 64000) built3) = some ⟨.errRange, 0, []⟩ ∧
    answer (exec (.bufrd 129) built3) = some ⟨.errAddr, 0, []⟩ ∧
    answer (exec (.bufwr 129 0) built3) = some ⟨.errAddr, 0, []⟩ ∧
    answer (exec (.setcid []) built3) = some ⟨.errLen, 0, []⟩ := by decide +kernel

theorem test_witness_PstateTransitions :
    answersOk (exec (.init 3) loadedA) = true ∧ answersOk (exec (.load imgA) built3) = true ∧
    answersOk (exec (.init 0) built3) = false ∧ exec .parse built3 = .next (stateOf (exec .parse built3)) :=
  ⟨by decide +kernel, by decide +kernel, by decide +kernel, next_of_ended (by decide +kernel)⟩

theorem test_witness_LenWrittenOnlyByInitAndLoad :
    State.reset.cfg.valid = true ∧ exec (.init 1) State.reset = .next (stateOf (exec (.init 1) State.reset)) ∧
    (stateOf (exec (.init 1) State.reset)).len ≠ State.reset.len ∧
    exec (.load imgA) State.reset = .next (stateOf (exec (.load imgA) State.reset)) ∧
    (stateOf (exec (.load imgA) State.reset)).len ≠ State.reset.len :=
  ⟨by decide, next_of_ended (by decide +kernel), by decide +kernel, next_of_ended (by decide +kernel), by decide +kernel⟩

theorem test_witness_TrackerWrittenOnlyOnAccept :
    exec .classify loadedA = .next (stateOf (exec .classify loadedA)) ∧
    (stateOf (exec .classify loadedA)).trkAt 7 ≠ loadedA.trkAt 7 ∧
    exec .parse loadedA = .next (stateOf (exec .parse loadedA)) :=
  ⟨next_of_ended (by decide +kernel), by decide +kernel, next_of_ended (by decide +kernel)⟩

theorem test_witness_ParametersNeverChange : step pendingParse = .next (stateOf (step pendingParse)) :=
  next_of_ended (by decide +kernel)

theorem test_witness_CommandsNeverReadThePort : exec .incseq pendingParse = .next (stateOf (exec .incseq pendingParse)) :=
  next_of_ended (by decide +kernel)

/-- GETSEQ reads the Framing Layer alone: two register files that differ elsewhere. -/
theorem test_witness_AnswersSeeOnlyTheLayersRead :
    (∀ l ∈ layersRead .getseq, sameLayer regsA { regsA with root := regs3.root } l) ∧ regsA.root ≠ regs3.root := by
  refine ⟨fun l hl => ?_, by decide⟩
  simp [layersRead] at hl
  subst hl
  rfl

theorem test_witness_RegistersCurrentAfterParse :
    exec .parse built3 = .next (stateOf (exec .parse built3)) ∧
    (stateOf (exec .parse built3)).resp = some ⟨.ok, 0, []⟩ ∧
    exec (.init 1) built3 = .next (stateOf (exec (.init 1) built3)) ∧
    (stateOf (exec (.init 1) built3)).resp = some ⟨.ok, 127, []⟩ ∧
    exec (.load imgA) built3 = .next (stateOf (exec (.load imgA) built3)) ∧
    (stateOf (exec (.load imgA) built3)).resp = some ⟨.ok, 129, []⟩ :=
  ⟨next_of_ended (by decide +kernel), by decide +kernel, next_of_ended (by decide +kernel), by decide +kernel,
   next_of_ended (by decide +kernel), by decide +kernel⟩

/-- An edit of each layer that succeeds, and one that fails. -/
theorem test_witness_EditsRederiveTheirLayerOnly :
    built3.fieldRegs = some regs3 ∧ editLayer (.setcid (List.replicate 16 1)) = some .root ∧
    editLayer (.setprio 7) = some .frame ∧ editLayer (.setslots [1]) = some .dmp ∧ editLayer (.setuniv 0) = some .frame ∧
    answersOk (exec (.setcid (List.replicate 16 1)) built3) = true ∧ answersOk (exec (.setprio 7) built3) = true ∧
    answersOk (exec (.setslots [1]) built3) = true ∧ answer (exec (.setuniv 0) built3) = some ⟨.errRange, 0, []⟩ :=
  ⟨built3_regs, rfl, rfl, rfl, rfl, by decide +kernel, by decide +kernel, by decide +kernel, by decide +kernel⟩

theorem test_witness_OnlyBufwrMakesRegistersStale :
    pendingParse.Current ∧ (∀ c rest a b, pendingParse.cmds = c :: rest → decode c ≠ .ok (.bufwr a b)) ∧
    step pendingParse = .next (stateOf (step pendingParse)) := by
  refine ⟨built3_current, fun c rest a b h => ?_, next_of_ended (by decide +kernel)⟩
  cases h
  rw [show decode ⟨0x03000000, []⟩ = .ok .parse by decide]
  intro h
  cases h

/-- A BUFWR of a Root Layer byte leaves the DMP Layer current; one of the start code leaves the DMP Layer current. -/
theorem test_witness_BufwrStalesOneLayerAtMost :
    exec (.bufwr 37 1) built3 = .next (stateOf (exec (.bufwr 37 1) built3)) ∧ Layer.dmp ≠ layerAt (37 : BitVec 16).toNat ∧
    built3.LayerCurrent .dmp ∧ exec (.bufwr 125 1) built3 = .next (stateOf (exec (.bufwr 125 1) built3)) ∧
    125 ≤ (125 : BitVec 16).toNat ∧ Layer.dmp = layerAt (125 : BitVec 16).toNat :=
  ⟨next_of_ended (by decide +kernel), by decide, built3_current.2.2, next_of_ended (by decide +kernel), by decide, by decide⟩

theorem test_witness_StaleRegistersAfterBufwr :
    exec (.bufwr 117 3) built3 = .next (stateOf (exec (.bufwr 117 3) built3)) ∧ answersFromRegisters .validate = true :=
  ⟨next_of_ended (by decide +kernel), rfl⟩

theorem test_witness_BufferIntegersAreBigEndian :
    Memory.read16 [(4, 1), (5, 2), (6, 3), (7, 4)] 4 = some 0x0102 ∧
    Memory.read32 [(4, 1), (5, 2), (6, 3), (7, 4)] 4 = some 0x01020304 ∧ 3 < 4 ∧ 4 + 4 ≤ 8 := by decide

theorem test_witness_InitBuildsThePacket :
    State.reset.cfg.valid = true ∧ 1 ≤ (1 : BitVec 16).toNat ∧ (512 : BitVec 16).toNat ≤ 512 ∧ (0 : BitVec 16).toNat < 1 ∧
    512 < (513 : BitVec 16).toNat := by decide

theorem test_witness_LoadStoresTheDatagram :
    State.reset.cfg.valid = true ∧ (List.replicate 125 (0 : Byte)).length < 126 ∧
    State.reset.cfg.bufCap < (List.replicate 639 (0 : Byte)).length ∧ 126 ≤ (List.replicate 126 (0 : Byte)).length ∧
    (List.replicate 638 (0 : Byte)).length ≤ State.reset.cfg.bufCap := by decide +kernel

theorem test_witness_ParserLoadsEveryField : ∀ a, a ≤ 124 → (built3.buf.read a).isSome := by
  have h : ∀ a ∈ List.range 125, (built3.buf.read a).isSome = true := by decide +kernel
  exact fun a ha => h a (by simp; omega)

theorem test_witness_ParseRederivesAllRegisters : State.reset.pstate = .uninit ∧ built3.Inv ∧ built3.pstate ≠ .uninit :=
  ⟨rfl, built3_inv, built3_packet⟩

theorem test_witness_BufrdReadsTheBuffer :
    State.reset.pstate = .uninit ∧ built3.Inv ∧ built3.pstate ≠ .uninit ∧ (128 : BitVec 16).toNat < built3.len.toNat ∧
    built3.len.toNat ≤ (129 : BitVec 16).toNat :=
  ⟨rfl, built3_inv, built3_packet, by decide +kernel, by decide +kernel⟩

theorem test_witness_BufwrStoresOneByte :
    State.reset.pstate = .uninit ∧ built3.pstate ≠ .uninit ∧ (128 : BitVec 16).toNat < built3.len.toNat ∧
    built3.len.toNat ≤ (129 : BitVec 16).toNat :=
  ⟨rfl, built3_packet, by decide +kernel, by decide +kernel⟩

theorem test_witness_ReadersChangeOnlyTheResponse :
    writesNothing .getname = true ∧ exec .getname built3 = .next (stateOf (exec .getname built3)) :=
  ⟨rfl, next_of_ended (by decide +kernel)⟩

/-- Registers that fall under each of the four outcomes. -/
theorem test_witness_ValidateReportsTheFirstInvalidLayer :
    State.reset.pstate = .uninit ∧ built3.fieldRegs = some regs3 ∧ validation regs3 = .none ∧
    validation { regs3 with root := { regs3.root with rvec := 5 } } = .rootLayerInvalid ∧
    validation { regs3 with frame := { regs3.frame with fvec := 3 } } = .frameLayerInvalid ∧
    validation { regs3 with dmp := { regs3.dmp with ainc := 2 } } = .dmpLayerInvalid :=
  ⟨rfl, built3_regs, by decide, by decide, by decide, by decide⟩

theorem test_witness_DiscardJudgesTheIntegerDifference : State.reset.pstate = .uninit ∧ loadedA.fieldRegs = some regsA :=
  ⟨rfl, loadedA_regs⟩

/-- An invalid packet; and a valid one at first sight, inside the window, and just outside it. -/
theorem test_witness_ClassifyFollowsValidationThenTracker :
    State.reset.pstate = .uninit ∧ (after State.reset [.load (imgAWith [(4, 0)])]).fieldRegs.map validation = some .rootLayerInvalid ∧
    loadedA.fieldRegs = some regsA ∧ validation regsA = .none ∧ loadedA.trkAt regsA.frame.univ = none ∧
    (loadedA.setTrk 7 255).trkAt regsA.frame.univ = some 255 ∧
    (-20 < (regsA.frame.seq.toNat : Int) - ((255 : Byte).toNat : Int) ∧
      (regsA.frame.seq.toNat : Int) - ((255 : Byte).toNat : Int) ≤ 0) ∧
    (loadedA.setTrk 7 253).trkAt regsA.frame.univ = some 253 ∧
    ¬ (-20 < (regsA.frame.seq.toNat : Int) - ((253 : Byte).toNat : Int) ∧
      (regsA.frame.seq.toNat : Int) - ((253 : Byte).toNat : Int) ≤ 0) :=
  ⟨rfl, by decide +kernel, loadedA_regs, by decide, by decide +kernel, by decide +kernel, by decide, by decide +kernel,
   by decide⟩

theorem test_witness_ClassifyHasFiveValues :
    exec .classify loadedA = .next (stateOf (exec .classify loadedA)) ∧
    (stateOf (exec .classify loadedA)).resp = some ⟨.ok, 0, []⟩ ∧ loadedA.Inv :=
  ⟨next_of_ended (by decide +kernel), by decide +kernel, loadedA_inv⟩

theorem test_witness_TrackerLaws :
    step (pendingParse.setTrk 7 9) = .next (stateOf (step (pendingParse.setTrk 7 9))) ∧
    (pendingParse.setTrk 7 9).trkAt 7 = some 9 ∧ loadedA.fieldRegs = some regsA ∧
    exec .classify loadedA = .next (stateOf (exec .classify loadedA)) ∧ (8 : BitVec 16) ≠ regsA.frame.univ :=
  ⟨next_of_ended (by decide +kernel), by decide +kernel, loadedA_regs, next_of_ended (by decide +kernel), by decide⟩

theorem test_witness_IncseqStoresTheSuccessor : State.reset.pstate = .uninit ∧ loadedA.Inv ∧ loadedA.fieldRegs = some regsA :=
  ⟨rfl, loadedA_inv, loadedA_regs⟩

theorem test_witness_IncseqRunsThroughAllValues : loadedA.Inv ∧ loadedA.fieldRegs = some regsA :=
  ⟨loadedA_inv, loadedA_regs⟩

theorem test_witness_GetfldAnswersTheRegister :
    scalarFields[0]? = some .pre ∧ scalarFields[16]? = some .pvc ∧ State.reset.pstate = .uninit ∧ loadedA.fieldRegs = some regsA ∧
    (built3.setCmds [⟨0x20000011, []⟩]).cmds = ⟨0x20000011, []⟩ :: [] ∧ (opcodeOf 0x20000011).toNat = 0x20 ∧
    17 ≤ (fidOf 0x20000011).toNat ∧ 17 ≤ (fidOf 0x2000001F).toNat :=
  ⟨rfl, rfl, rfl, loadedA_regs, rfl, by decide, by decide, by decide⟩

theorem test_witness_RegisterReadersAnswerTheirRegister : State.reset.pstate = .uninit ∧ loadedA.fieldRegs = some regsA :=
  ⟨rfl, loadedA_regs⟩

theorem test_witness_GetslotsReadsTheSlots :
    State.reset.pstate = .uninit ∧ built3.Inv ∧ built3.pstate ≠ .uninit ∧ 2 < built3.len.toNat - 126 :=
  ⟨rfl, built3_inv, built3_packet, by decide +kernel⟩

theorem test_witness_SetcidStoresSixteenBytes :
    State.reset.pstate = .uninit ∧ built3.Inv ∧ built3.fieldRegs = some regs3 ∧ (List.replicate 16 (1 : Byte)).length = 16 ∧
    (List.replicate 15 (1 : Byte)).length ≠ 16 :=
  ⟨rfl, built3_inv, built3_regs, by decide, by decide⟩

/-- A name shorter than the field, and one longer. -/
theorem test_witness_SetnamePadsAndTruncates :
    State.reset.pstate = .uninit ∧ built3.Inv ∧ built3.fieldRegs = some regs3 ∧ 0 < min (List.replicate 70 (1 : Byte)).length 64 ∧
    min ([] : List Byte).length 64 ≤ 63 :=
  ⟨rfl, built3_inv, built3_regs, by decide, by decide⟩

theorem test_witness_SetprioAndSetseqStoreTheirByte :
    State.reset.pstate = .uninit ∧ built3.Inv ∧ built3.fieldRegs = some regs3 := ⟨rfl, built3_inv, built3_regs⟩

theorem test_witness_SetoptChangesOneBit : State.reset.pstate = .uninit ∧ loadedA.Inv ∧ loadedA.fieldRegs = some regsA :=
  ⟨rfl, loadedA_inv, loadedA_regs⟩

theorem test_witness_SetunivStoresLegalUniverses :
    State.reset.pstate = .uninit ∧ built3.Inv ∧ built3.fieldRegs = some regs3 ∧ (0 : BitVec 16).toNat < 1 ∧
    63999 < (64000 : BitVec 16).toNat ∧ 1 ≤ (1 : BitVec 16).toNat ∧ (63999 : BitVec 16).toNat ≤ 63999 :=
  ⟨rfl, built3_inv, built3_regs, by decide, by decide, by decide, by decide⟩

/-- A payload longer than the packet's slots, and a PVC of 0 that lets nothing be copied (V75). -/
theorem test_witness_SetslotsCopiesTheClampedCount :
    State.reset.pstate = .uninit ∧ built3.Inv ∧ built3.fieldRegs = some regs3 ∧
    ((3 : Nat) : Int) = max 0 (min ((4 : Nat) : Int) (min ((regs3.dmp.pvc.toNat : Int) - 1) ((built3.len.toNat : Int) - 126))) ∧
    ((0 : Nat) : Int) = max 0 (min ((2 : Nat) : Int) (min (((0 : BitVec 16).toNat : Int) - 1) ((129 : Int) - 126))) :=
  ⟨rfl, built3_inv, built3_regs, by decide +kernel, by decide⟩

theorem test_witness_BuiltPacketStaysBuilt :
    built3.Built 3 regs3 ∧ exec (.setuniv 63999) built3 = .next (stateOf (exec (.setuniv 63999) built3)) :=
  ⟨built3_built, next_of_ended (by decide +kernel)⟩

theorem test_witness_BuiltAndEditedPacketsValidate :
    State.reset.Inv ∧ 1 ≤ (512 : BitVec 16).toNat ∧ (512 : BitVec 16).toNat ≤ 512 ∧
    ∀ i ∈ [Instr.setprio 7, .incseq, .setslots [1, 2]], (editLayer i).isSome = true :=
  ⟨reset_inv, by decide, by decide, by decide⟩

theorem test_witness_RoundTripReturnsTheSlots :
    State.reset.Inv ∧ 1 ≤ (3 : BitVec 16).toNat ∧ (3 : BitVec 16).toNat ≤ 512 ∧
    ([0x0A, 0x14, 0x1E] : List Byte).length = (3 : BitVec 16).toNat ∧ built3.Inv :=
  ⟨reset_inv, by decide, by decide, by decide, built3_inv⟩

theorem test_witness_ReceivedDataNeverFails :
    State.reset.Inv ∧ 126 ≤ imgA.length ∧ imgA.length ≤ State.reset.cfg.bufCap ∧ isFieldReader .getslots = true :=
  ⟨reset_inv, by decide +kernel, by decide +kernel, rfl⟩

theorem test_witness_PseudoCommandsExpand :
    ([] : List Byte).length < 126 ∧ 126 ≤ imgA.length ∧ imgA.length ≤ State.reset.cfg.bufCap := by decide +kernel

theorem test_witness_PlatformFunctions :
    1 ≤ (1 : BitVec 16).toNat ∧ (63999 : BitVec 16).toNat ≤ 63999 ∧ (0 : BitVec 16).toNat < 1 ∧
    63999 < (64000 : BitVec 16).toNat := by decide

end Sys2Proof.Tests
end

section
/-! SUPPORT. Which commands move PSTATE (spec/10_state.md R25), read off the one case analysis of `exec_effect`. -/

namespace Sys2Proof.Machine

/-- The only way PSTATE can move: an INIT or a LOAD that answers OK. -/
theorem exec_pstate_eq_or {i : Instr} {s t : State} (h : exec i s = .next t) :
    t.pstate = s.pstate ∨
      ((∃ v, t.resp = some ⟨.ok, v, []⟩) ∧ ((∃ n, i = .init n) ∨ ∃ p, i = .load p)) := by
  cases exec_effect h with
  | response r _ _ result => exact .inl (by simp [result])
  | build n f command _ _ result => exact .inr ⟨⟨_, congrArg State.resp result⟩, .inl ⟨n, command⟩⟩
  | take p f command _ _ _ result => exact .inr ⟨⟨_, congrArg State.resp result⟩, .inr ⟨p, command⟩⟩
  | reparse f g _ _ _ result => exact .inl (by simp [result])
  | poke a b _ _ _ result => exact .inl (by simp [result])
  | track f _ _ _ _ result => exact .inl (by simp [result])
  | edit l f g m v _ _ _ _ _ _ _ result => exact .inl (by simp [result])

theorem exec_pstate_of_ne_init_load {i : Instr} {s t : State} (h : exec i s = .next t)
    (hinit : ∀ n, i ≠ .init n) (hload : ∀ p, i ≠ .load p) : t.pstate = s.pstate := by
  rcases exec_pstate_eq_or h with hkeep | ⟨_, ⟨n, hi⟩ | ⟨p, hi⟩⟩
  · exact hkeep
  · exact absurd hi (hinit n)
  · exact absurd hi (hload p)

theorem exec_pstate_of_status_ne_ok {i : Instr} {s t : State} {r : Response} (h : exec i s = .next t)
    (hr : t.resp = some r) (hfail : r.status ≠ .ok) : t.pstate = s.pstate := by
  rcases exec_pstate_eq_or h with hkeep | ⟨⟨v, hok⟩, _⟩
  · exact hkeep
  · obtain rfl : r = ⟨.ok, v, []⟩ := Option.some.inj (hr.symm.trans hok)
    exact absurd rfl hfail

theorem exec_init_pstate_of_status_ok {n : Half} {s t : State} {r : Response} (h : exec (.init n) s = .next t)
    (hr : t.resp = some r) (hok : r.status = .ok) : t.pstate = .initialized := by
  rcases (execInit_eq_next_iff n s t).mp h with ⟨_, rfl⟩ | ⟨_, f, _, rfl⟩
  · cases hr
    cases hok
  · simp

theorem exec_load_pstate_of_status_ok {p : List Byte} {s t : State} {r : Response} (h : exec (.load p) s = .next t)
    (hr : t.resp = some r) (hok : r.status = .ok) : t.pstate = .parsed := by
  rcases (execLoad_eq_next_iff p s t).mp h with ⟨_, rfl⟩ | ⟨_, _, rfl⟩ | ⟨_, _, f, _, rfl⟩
  · cases hr
    cases hok
  · cases hr
    cases hok
  · simp

/-- Settles O17: INIT and LOAD by their own inversion lemmas, every other command and every failed one by
`exec_pstate_eq_or`. -/
theorem pstateTransitions : Obligations.PstateTransitions := by
  intro i s t h
  obtain ⟨r, hr⟩ := exec_resp h
  refine ⟨r, hr, fun hok => ⟨?_, ?_⟩, exec_pstate_of_ne_init_load h, exec_pstate_of_status_ne_ok h hr⟩
  · rintro n rfl
    exact exec_init_pstate_of_status_ok h hr hok
  · rintro p rfl
    exact exec_load_pstate_of_status_ok h hr hok

end Sys2Proof.Machine
end

section
/-! SUPPORT. The platform functions (spec/20_memory.md R57): the two bytes of a 16-bit value as numbers, and
`multicastGroup` on each side of its range. -/

namespace Sys2Proof.Machine

theorem toNat_extract_highByte (u : BitVec 16) : (u.extractLsb' 8 8).toNat = u.toNat / 256 := by
  have hquot : u.toNat / 256 < 256 := by omega
  simp [BitVec.extractLsb'_toNat, Nat.shiftRight_eq_div_pow, Nat.mod_eq_of_lt hquot]

theorem toNat_extract_lowByte (u : BitVec 16) : (u.extractLsb' 0 8).toNat = u.toNat % 256 := by
  simp [BitVec.extractLsb'_toNat]

theorem multicastGroup_of_inRange {u : BitVec 16} (hlo : 1 ≤ u.toNat) (hhi : u.toNat ≤ 63999) :
    multicastGroup u = some (239, 255, u.extractLsb' 8 8, u.extractLsb' 0 8) :=
  if_pos ⟨hlo, hhi⟩

theorem multicastGroup_eq_none_iff (u : BitVec 16) :
    multicastGroup u = none ↔ u.toNat < 1 ∨ 63999 < u.toNat := by
  have hrange : ¬ (1 ≤ u.toNat ∧ u.toNat ≤ 63999) ↔ u.toNat < 1 ∨ 63999 < u.toNat := by omega
  rw [← hrange]
  simp only [multicastGroup, ite_eq_right_iff, reduceCtorEq, imp_false]

/-- Settles O59: the group's last two bytes are the high and the low byte of the universe. -/
theorem platformFunctions : Obligations.PlatformFunctions := by
  refine ⟨fun u hlo hhi => ?inRange, fun u => (multicastGroup_eq_none_iff u).mpr, ?defaultPort, fun p => ?suppliedPort⟩
  case inRange =>
    exact ⟨_, _, multicastGroup_of_inRange hlo hhi, toNat_extract_highByte u, toNat_extract_lowByte u⟩
  case defaultPort => rfl
  case suppliedPort => rfl

end Sys2Proof.Machine
end

section
/-! SUPPORT. Legal and illegal words (spec/30_encoding.md R61, R68, R69): a word whose reserved bits are clear is the word
its format builds; so a framed word that decodes is the command word of the command it decodes to, and selects that
command's row. -/

namespace Sys2Proof

/-! ### A word with clear reserved bits is the word its format builds (R61) -/

section
variable {w : Word} {op : Byte}

theorem wordZ_eq_of_clear (hop : (opcodeOf w).toNat = op.toNat) (h : zReservedClear w = true) : wordZ op = w := by
  obtain rfl := BitVec.eq_of_toNat_eq hop
  obtain ⟨op, b2, b1, b0, rfl⟩ := exists_wordOf w
  rw [zReservedClear_wordOf, beq_iff_eq] at h
  obtain ⟨h21, rfl⟩ := (append_eq_iff (n := 16) (m := 8) (b2 ++ b1) b0 0#24).mp h
  obtain ⟨rfl, rfl⟩ := (append_eq_iff (n := 8) (m := 8) b2 b1 _).mp h21
  rw [opcodeOf_wordOf]
  rfl

theorem word16_eq_of_clear (hop : (opcodeOf w).toNat = op.toNat) (h : i16ReservedClear w = true) :
    word16 op (imm16Of w) = w := by
  obtain rfl := BitVec.eq_of_toNat_eq hop
  obtain ⟨op, b2, b1, b0, rfl⟩ := exists_wordOf w
  obtain rfl : b2 = 0#8 := by simpa [i16ReservedClear_wordOf] using h
  simp [word16, hiByte, loByte, extract_append_high b1 b0, extract_append_low b1 b0]

theorem word8_eq_of_clear (hop : (opcodeOf w).toNat = op.toNat) (h : i8ReservedClear w = true) :
    word8 op (imm8Of w) = w := by
  obtain rfl := BitVec.eq_of_toNat_eq hop
  obtain ⟨op, b2, b1, b0, rfl⟩ := exists_wordOf w
  rw [i8ReservedClear_wordOf, beq_iff_eq] at h
  obtain ⟨rfl, rfl⟩ := (append_eq_iff (n := 8) (m := 8) b2 b1 0#16).mp h
  simp [word8]

/-- Format A has no reserved bits. -/
theorem wordA_eq (hop : (opcodeOf w).toNat = op.toNat) : wordA op (addr16Of w) (imm8Of w) = w := by
  obtain rfl := BitVec.eq_of_toNat_eq hop
  obtain ⟨op, b2, b1, b0, rfl⟩ := exists_wordOf w
  simp [wordA, hiByte, loByte, extract_append_high b2 b1, extract_append_low b2 b1]

theorem wordB_eq_of_clear (hop : (opcodeOf w).toNat = op.toNat) (h : bReservedClear w = true) :
    wordB op (bitOf w) (onOf w) = w := by
  obtain rfl := BitVec.eq_of_toNat_eq hop
  obtain ⟨op, b2, b1, b0, rfl⟩ := exists_wordOf w
  simp only [bReservedClear_wordOf, Bool.and_eq_true, beq_iff_eq] at h
  obtain ⟨hbit, hon⟩ := h
  obtain ⟨rfl, hb1⟩ := (append_eq_iff (n := 8) (m := 5) b2 _ 0#13).mp hbit
  have hcol1 : 0#5 ++ b1.extractLsb' 0 3 = b1 := (append_eq_iff (n := 5) (m := 3) _ _ b1).mpr ⟨hb1.symm, rfl⟩
  have hlow : BitVec.ofBool (b0.getLsbD 0) = b0.extractLsb' 0 1 := by
    ext i hi
    obtain rfl : i = 0 := by omega
    simp
  have hcol0 : 0#7 ++ BitVec.ofBool (b0.getLsbD 0) = b0 :=
    (append_eq_iff (n := 7) (m := 1) _ _ b0).mpr ⟨hon.symm, hlow⟩
  rw [wordB, opcodeOf_wordOf, bitOf_wordOf, onOf_wordOf, hcol1, hcol0]
  rfl

theorem wordF_eq_of_clear (hop : (opcodeOf w).toNat = op.toNat) (h : fReservedClear w = true) :
    wordF op (fidOf w) = w := by
  obtain rfl := BitVec.eq_of_toNat_eq hop
  obtain ⟨op, b2, b1, b0, rfl⟩ := exists_wordOf w
  rw [fReservedClear_wordOf, beq_iff_eq] at h
  obtain ⟨h21, hb0⟩ := (append_eq_iff (n := 16) (m := 3) (b2 ++ b1) _ 0#19).mp h
  obtain ⟨rfl, rfl⟩ := (append_eq_iff (n := 8) (m := 8) b2 b1 _).mp h21
  have hcol0 : 0#3 ++ b0.extractLsb' 0 5 = b0 := (append_eq_iff (n := 3) (m := 5) _ _ b0).mpr ⟨hb0.symm, rfl⟩
  simp [wordF, fidOf_wordOf, hcol0]

end

/-! ### A word that decodes is the command word of its command -/

/-- The id of the register a field id names is that id (R120). -/
theorem idOfField_of_fieldOfId : ∀ fid : BitVec 5, ∀ f ∈ fieldOfId fid, idOfField f = fid := by decide

theorem idOfField_le (f : FieldId) : (idOfField f).toNat ≤ 16 := by cases f <;> decide

theorem imm16Of_eq_ofNat_length {w : Word} {p : List Byte} (hframe : p.length = payloadLenOf w)
    (hop : isPayloadOpcode (opcodeOf w) = true) : imm16Of w = BitVec.ofNat 16 p.length := by
  simp [hframe, payloadLenOf, hop]

section
variable {w : Word} {p : List Byte} {i j : Instr} {clear : Bool}

/-- A payload command's format, with the length of the payload presented with it (R64, R74). -/
theorem word16_length_eq_of_clear {op : Byte} (hframe : p.length = payloadLenOf w)
    (hop : (opcodeOf w).toNat = op.toNat) (hpayload : isPayloadOpcode op = true) (h : i16ReservedClear w = true) :
    word16 op (BitVec.ofNat 16 p.length) = w := by
  rw [← imm16Of_eq_ofNat_length hframe (BitVec.eq_of_toNat_eq hop ▸ hpayload)]
  exact word16_eq_of_clear hop h

theorem encodeWord_of_legalIf (h : legalIf clear i = .ok j) (hword : clear = true → encodeWord i = w) :
    encodeWord j = w := by
  obtain ⟨hclear, rfl⟩ := (legalIf_eq_ok_iff clear i j).mp h
  exact hword hclear

theorem encodeWord_of_decodeFieldId (hop : (opcodeOf w).toNat = 0x20) (h : decodeFieldId w = .ok i) :
    encodeWord i = w := by
  unfold decodeFieldId at h
  split at h
  next f hf =>
    refine encodeWord_of_legalIf h fun hclear => ?_
    rw [encodeWord, idOfField_of_fieldOfId _ f hf]
    exact wordF_eq_of_clear hop hclear
  next => split at h <;> cases h

/-- The opcodes of one format share one argument. -/
theorem encodeWord_of_decodeWord (hframe : p.length = payloadLenOf w) (h : decodeWord w p = .ok i) :
    encodeWord i = w := by
  unfold decodeWord at h
  split at h
  -- format Z
  case h_3 hop | h_4 hop | h_7 hop | h_9 hop | h_10 hop | h_12 hop | h_13 hop | h_14 hop | h_15 hop | h_17 hop
      | h_18 hop | h_19 hop => exact encodeWord_of_legalIf h (wordZ_eq_of_clear hop)
  -- format I16: INIT, SETUNIV
  case h_1 hop | h_25 hop => exact encodeWord_of_legalIf h (word16_eq_of_clear hop)
  -- format P: LOAD, SETCID, SETNAME, SETSLOTS
  case h_2 hop | h_20 hop | h_21 hop | h_26 hop =>
    exact encodeWord_of_legalIf h (word16_length_eq_of_clear hframe hop rfl)
  -- format I8: DISCARD, SETPRIO, SETSEQ
  case h_8 hop | h_22 hop | h_23 hop => exact encodeWord_of_legalIf h (word8_eq_of_clear hop)
  -- format A: BUFRD, whose low byte is 0, and BUFWR
  case h_5 hop =>
    refine encodeWord_of_legalIf h fun hclear => ?_
    have hlow : imm8Of w = 0#8 := beq_iff_eq.mp hclear
    exact (congrArg (wordA 0x08 (addr16Of w)) hlow).symm.trans (wordA_eq hop)
  case h_6 hop =>
    cases h
    exact wordA_eq hop
  -- format F: GETFLD
  case h_11 hop => exact encodeWord_of_decodeFieldId hop h
  -- format B: GETOPT, whose on bit is 0, and SETOPT
  case h_16 hop =>
    refine encodeWord_of_legalIf h fun hclear => ?_
    obtain ⟨hreserved, hoff⟩ : bReservedClear w = true ∧ onOf w = false := by simpa using hclear
    exact (congrArg (wordB 0x25 (bitOf w)) hoff).symm.trans (wordB_eq_of_clear hop hreserved)
  case h_24 hop => exact encodeWord_of_legalIf h (wordB_eq_of_clear hop)
  -- no opcode
  case h_27 => cases h

end

/-! ### The row of a command -/

/-- Every command's word selects its row of R68. -/
theorem encodeWord_selects_row : (i : Instr) → Laws.TableRow.Statement i
  | .init n => Laws.TableRow.init n
  | .load p => Laws.TableRow.load p
  | .parse => Laws.TableRow.parse
  | .getstate => Laws.TableRow.getstate
  | .bufrd a => Laws.TableRow.bufrd a
  | .bufwr a b => Laws.TableRow.bufwr a b
  | .validate => Laws.TableRow.validate
  | .discard l => Laws.TableRow.discard l
  | .classify => Laws.TableRow.classify
  | .incseq => Laws.TableRow.incseq
  | .getfld f => Laws.TableRow.getfld f
  | .getcid => Laws.TableRow.getcid
  | .getname => Laws.TableRow.getname
  | .getprio => Laws.TableRow.getprio
  | .getseq => Laws.TableRow.getseq
  | .getopt b => Laws.TableRow.getopt b
  | .getuniv => Laws.TableRow.getuniv
  | .getslots => Laws.TableRow.getslots
  | .getpid => Laws.TableRow.getpid
  | .setcid p => Laws.TableRow.setcid p
  | .setname p => Laws.TableRow.setname p
  | .setprio p => Laws.TableRow.setprio p
  | .setseq n => Laws.TableRow.setseq n
  | .setopt b on => Laws.TableRow.setopt b on
  | .setuniv u => Laws.TableRow.setuniv u
  | .setslots p => Laws.TableRow.setslots p

theorem mnemonic_eq_getfld_iff (i : Instr) : i.mnemonic = "GETFLD" ↔ ∃ f, i = .getfld f := by
  cases i <;> simp [Instr.mnemonic]

/-- The word of a GETFLD carries its register's id, which is at most 16 (R69, R120). -/
theorem fidOf_encodeWord_getfld_le (f : FieldId) : (fidOf (encodeWord (.getfld f))).toNat ≤ 16 := by
  have hfid : fidOf (encodeWord (.getfld f)) = idOfField f := by
    rw [encodeWord, wordF, fidOf_wordOf]
    exact extract_append_low 0#3 (idOfField f)
  exact hfid ▸ idOfField_le f

/-- A framed word that decodes selects its command's row, with a field id of at most 16 where that row is GETFLD
(R68, R69). -/
theorem decodeWord_selects_row {w : Word} {p : List Byte} {i : Instr} (hframe : p.length = payloadLenOf w)
    (h : decodeWord w p = .ok i) :
    ∃ r ∈ opcodeTable, r.mnemonic = i.mnemonic ∧ r.selects w = true ∧
      (r.mnemonic = "GETFLD" → (fidOf w).toNat ≤ 16) := by
  obtain rfl := encodeWord_of_decodeWord hframe h
  obtain ⟨r, hr, hname, hsel⟩ := encodeWord_selects_row i
  refine ⟨r, hr, hname, hsel, fun hgetfld => ?_⟩
  obtain ⟨f, rfl⟩ := (mnemonic_eq_getfld_iff i).mp (hname.symm.trans hgetfld)
  exact fidOf_encodeWord_getfld_le f

/-! ### Words that do not decode -/

theorem legalIf_ne_payloadMismatch (clear : Bool) (i : Instr) : legalIf clear i ≠ .error .payloadMismatch := by
  cases clear <;> simp [legalIf]

theorem decodeFieldId_ne_payloadMismatch (w : Word) : decodeFieldId w ≠ .error .payloadMismatch := by
  unfold decodeFieldId
  split
  · exact legalIf_ne_payloadMismatch _ _
  · split <;> simp

/-- The word alone never makes a misframed pair (R74). -/
theorem decodeWord_ne_payloadMismatch (w : Word) (p : List Byte) : decodeWord w p ≠ .error .payloadMismatch := by
  unfold decodeWord
  split
  case h_6 => simp
  case h_11 => exact decodeFieldId_ne_payloadMismatch w
  case h_27 => simp
  all_goals exact legalIf_ne_payloadMismatch _ _

theorem decode_of_framed {c : Command} (hframe : c.payload.length = payloadLenOf c.word) :
    decode c = decodeWord c.word c.payload :=
  if_pos hframe

/-- A framed pair whose word selects no row, GETFLD with a field id above 16 apart, is an illegal word (R69). -/
theorem decode_error_of_no_row {c : Command} (hframe : c.payload.length = payloadLenOf c.word)
    (hno : ∀ r ∈ opcodeTable, r.selects c.word = true → r.mnemonic = "GETFLD" ∧ 16 < (fidOf c.word).toNat) :
    ∃ e, decode c = .error e ∧ e ≠ .payloadMismatch := by
  rw [decode_of_framed hframe]
  cases hd : decodeWord c.word c.payload with
  | error e =>
    refine ⟨e, rfl, ?_⟩
    rintro rfl
    exact decodeWord_ne_payloadMismatch _ _ hd
  | ok i =>
    obtain ⟨r, hr, _, hsel, hfid⟩ := decodeWord_selects_row hframe hd
    obtain ⟨hgetfld, habove⟩ := hno r hr hsel
    exact absurd (hfid hgetfld) (Nat.not_le.mpr habove)

namespace Machine

/-- Settles O7: such a word is no encoding of a command, so the step ends in the decoder's error, which `reject` answers
ERR_ILLEGAL. -/
theorem illegalWordAnswersErrIllegal : Obligations.IllegalWordAnswersErrIllegal := by
  intro s c rest hcmds hframe hno
  obtain ⟨e, herror, hframed⟩ := decode_error_of_no_row hframe hno
  exact (step_eq_next_iff s _).mpr (.inr ⟨c, rest, hcmds, .inl ⟨e, herror, hframed, rfl⟩⟩)

end Machine
end Sys2Proof
end

section
/-! SUPPORT. Sequences of commands (spec/30_encoding.md R75, R76): what `andThen` and `execAll` do, when LOAD answers OK,
and RECV in both cases. -/

namespace Sys2Proof.Machine

/-! ### Sequencing -/

theorem andThen_next (r : Result) : andThen r Host.Outcome.next = r := by
  cases r <;> rfl

/-- The second command matters only from the state the first one leaves. -/
theorem andThen_congr {r : Result} {k k' : State → Result} (h : ∀ t, r = .next t → k t = k' t) :
    andThen r k = andThen r k' := by
  cases r with
  | next t => exact h t rfl
  | fault e => rfl
  | refused e => rfl

theorem execAll_singleton (i : Instr) (s : State) : execAll [i] s = exec i s := andThen_next (exec i s)

theorem execAll_pair (i j : Instr) (s : State) : execAll [i, j] s = andThen (exec i s) (exec j) :=
  andThen_congr fun t _ => execAll_singleton j t

/-! ### RECV -/

/-- A LOAD that completes answers OK exactly for a datagram of 126 to BUF_CAP bytes (R83). -/
theorem exec_load_status_ok_iff {p : List Byte} {s t : State} (h : exec (.load p) s = .next t) :
    t.resp.map Response.status = some .ok ↔ 126 ≤ p.length ∧ p.length ≤ s.cfg.bufCap := by
  rcases (execLoad_eq_next_iff p s t).mp h with ⟨hshort, rfl⟩ | ⟨_, hlong, rfl⟩ | ⟨hmin, hmax, f, _, rfl⟩
  · simp [Nat.not_le.mpr hshort]
  · simp [Nat.not_le.mpr hlong]
  · simp [hmin, hmax]

theorem execPseudo_recv_of_load_fails {p : List Byte} {s : State} (h : p.length < 126 ∨ s.cfg.bufCap < p.length) :
    execPseudo (.recv p) s = exec (.load p) s := by
  have hskip : ∀ t, exec (.load p) s = .next t → ifOk .classify t = .next t := fun t ht =>
    if_neg fun hok => by
      obtain ⟨hmin, hmax⟩ := (exec_load_status_ok_iff ht).mp hok
      omega
  exact (andThen_congr hskip).trans (andThen_next _)

theorem execPseudo_recv_of_load_takes {p : List Byte} {s : State} (hmin : 126 ≤ p.length)
    (hmax : p.length ≤ s.cfg.bufCap) :
    execPseudo (.recv p) s = andThen (exec (.load p) s) (exec .classify) :=
  andThen_congr fun _ ht => if_pos ((exec_load_status_ok_iff ht).mpr ⟨hmin, hmax⟩)

/-- Settles O58: RECV by whether LOAD takes the datagram, POKE as a pair of commands, every other one as a single
command. -/
theorem pseudoCommandsExpand : Obligations.PseudoCommandsExpand := by
  intro s
  refine ⟨fun p => execPseudo_recv_of_load_fails, fun p => execPseudo_recv_of_load_takes, fun a b => ?poke,
    fun on => ⟨?setpreview, ?setterm⟩, ?getpreview, ?getterm, ?getstart, fun b => ?setstart, ?sent⟩
  case poke => exact execAll_pair (.bufwr a b) .parse s
  all_goals exact execAll_singleton _ s

end Sys2Proof.Machine
end

section
/-! SUPPORT. The packet family (spec/40_packet.md): INIT, LOAD, PARSE, GETSTATE, BUFRD and BUFWR, each at the state its
rule gives. -/

namespace Sys2Proof.Machine

/-- A number that fits its width keeps its value. -/
theorem toNat_ofNat_of_lt {w x : Nat} (h : x < 2 ^ w) : (BitVec.ofNat w x).toNat = x :=
  (BitVec.toNat_ofNat x w).trans (Nat.mod_eq_of_lt h)

/-! ### GETSTATE (R86) -/

theorem PState.code_toNat_le (p : PState) : p.code.toNat ≤ 2 := by
  cases p <;> decide

/-- Settles O33: PSTATE is at most 2, so the value fits the response's 32 bits. -/
theorem getstateAnswersPstateAndLen : Obligations.GetstateAnswersPstateAndLen := by
  refine ⟨rfl, rfl, rfl, fun s => ⟨_, ?value, (execGetstate_eq_next_iff s _).mpr rfl⟩⟩
  have hcode := s.pstate.code_toNat_le
  have hlen := s.len.isLt
  exact toNat_ofNat_of_lt (by omega)

/-! ### BUFRD and BUFWR (R88, R90) -/

/-- Settles O34: under the invariant a byte below LEN has a value, so BUFRD has one to answer. -/
theorem bufrdReadsTheBuffer : Obligations.BufrdReadsTheBuffer := by
  refine ⟨fun a s hp => (execBufrd_eq_next_iff a s _).mpr (.inl ⟨hp, rfl⟩),
    fun s a hinv hp => ⟨fun hbeyond => ?beyond, fun hbelow => ?below⟩⟩
  case beyond => exact (execBufrd_eq_next_iff a s _).mpr (.inr (.inl ⟨hp, hbeyond, rfl⟩))
  case below =>
    obtain ⟨b, hb⟩ := Option.isSome_iff_exists.mp ((hinv.read_isSome_iff hp a.toNat).mpr hbelow)
    exact ⟨b, hb, (execBufrd_eq_next_iff a s _).mpr (.inr (.inr ⟨hp, hbelow, b, hb, rfl⟩))⟩

theorem keptByEdit_write (s : State) (a : Nat) (b : Byte) (r : Response) :
    KeptByEdit a 1 s ((s.setBuf (s.buf.write a b)).setResp r) where
  cfg := rfl
  pstate := rfl
  len := rfl
  trk _ := rfl
  cmds := rfl
  buf _ hx := Memory.read_write_other s.buf b (by omega)

/-- Settles O35: the next state differs from the one before in the response and by one write to the buffer. -/
theorem bufwrStoresOneByte : Obligations.BufwrStoresOneByte := by
  refine ⟨fun a b s hp => (execBufwr_eq_next_iff a b s _).mpr (.inl ⟨hp, rfl⟩),
    fun s a b hp => ⟨fun hbeyond => ?beyond, fun hbelow => ?below⟩⟩
  case beyond => exact (execBufwr_eq_next_iff a b s _).mpr (.inr (.inl ⟨hp, hbeyond, rfl⟩))
  case below =>
    exact ⟨_, (execBufwr_eq_next_iff a b s _).mpr (.inr (.inr ⟨hp, hbelow, rfl⟩)), rfl,
      Memory.read_write_same s.buf a.toNat b, rfl, keptByEdit_write s a.toNat b _⟩

/-! ### The parser and PARSE (R84, R85) -/

/-- Settles O31: the parse succeeds by `parseAll_isSome`, and each layer's inversion lemma says what it loaded. -/
theorem parserLoadsEveryField : Obligations.ParserLoadsEveryField := by
  intro m hm
  obtain ⟨f, hf⟩ := parseAll_isSome hm
  obtain ⟨hroot, hframe, hdmp⟩ := (parseAll_eq_some_iff m f).mp hf
  obtain ⟨hpre, hpost, hpid, hrflen, hrvec, hcid⟩ := (parseRoot_eq_some_iff m f.root).mp hroot
  obtain ⟨hfflen, hfvec, hname, hframeRest⟩ := (parseFrame_eq_some_iff m f.frame).mp hframe
  obtain ⟨hprio, hrsvd, hseq, hopts, huniv⟩ := hframeRest
  exact ⟨f, hf, hpre, hpost, (Memory.readVec_eq_some_iff m 4 12 _).mp hpid, hrflen, hrvec,
    (Memory.readVec_eq_some_iff m 22 16 _).mp hcid, hfflen, hfvec, (Memory.readVec_eq_some_iff m 44 64 _).mp hname,
    hprio, hrsvd, hseq, hopts, huniv, (parseDmp_eq_some_iff m f.dmp).mp hdmp⟩

theorem exec_parse_of_parseAll {s : State} {g : FieldRegs} (hp : s.pstate ≠ .uninit) (hg : parseAll s.buf = some g) :
    exec .parse s = .next ((s.setRegs g).setResp ⟨.ok, 0, []⟩) := by
  obtain ⟨f, hf⟩ := State.exists_fieldRegs hp
  exact (execParse_eq_next_iff s _).mpr (.inr ⟨f, g, hf, hg, rfl⟩)

/-- PARSE where it has just been performed: the registers it loads are those that stand there (R85). -/
theorem exec_parse_after_parse {s : State} {g : FieldRegs} (hp : s.pstate ≠ .uninit) (hg : parseAll s.buf = some g) :
    exec .parse ((s.setRegs g).setResp ⟨.ok, 0, []⟩) = .next ((s.setRegs g).setResp ⟨.ok, 0, []⟩) := by
  have hp' : ((s.setRegs g).setResp ⟨.ok, 0, []⟩).pstate ≠ .uninit := by simpa using hp
  have hsame : ((s.setRegs g).setRegs g).setResp ⟨.ok, 0, []⟩ = (s.setRegs g).setResp ⟨.ok, 0, []⟩ := by
    rw [State.setRegs_setRegs]
  exact (exec_parse_of_parseAll hp' hg).trans (congrArg Host.Outcome.next hsame)

/-- Settles O32: under the invariant a packet has the bytes the parser reads. -/
theorem parseRederivesAllRegisters : Obligations.ParseRederivesAllRegisters := by
  refine ⟨fun s hp => (execParse_eq_next_iff s _).mpr (.inl ⟨hp, rfl⟩), fun s hinv hp => ?_⟩
  obtain ⟨g, hg⟩ := parseAll_of_keys (hinv.packetLen hp).1 (hinv.packetBytes hp)
  exact ⟨g, hg, exec_parse_of_parseAll hp hg, exec_parse_after_parse hp hg⟩

/-! ### LOAD (R83) -/

theorem parseAll_ofBytes {p : List Byte} (hmin : 126 ≤ p.length) : ∃ f, parseAll (Memory.ofBytes 0 p) = some f :=
  parseAll_of_keys hmin (by rw [Memory.keys_ofBytes, List.range_eq_range'])

/-- Settles O30: BUF_CAP is at least 638, so the two size errors exclude each other, and at most 65535, so the length of
a packet that is taken fits LEN. -/
theorem loadStoresTheDatagram : Obligations.LoadStoresTheDatagram := by
  intro s p hcfg
  obtain ⟨hcap, -⟩ := (Params.valid_iff s.cfg).mp hcfg
  refine ⟨fun hshort => ?short, fun hlong => ?long, fun hmin hmax => ?taken⟩
  case short => exact (execLoad_eq_next_iff p s _).mpr (.inl ⟨hshort, rfl⟩)
  case long => exact (execLoad_eq_next_iff p s _).mpr (.inr (.inl ⟨by omega, hlong, rfl⟩))
  case taken =>
    obtain ⟨f, hf⟩ := parseAll_ofBytes hmin
    have hlen : (BitVec.ofNat 16 p.length).toNat = p.length := toNat_ofNat_of_lt (by omega)
    have hbytes (a : Nat) : (Memory.ofBytes 0 p).read a = p[a]? := by simp [Memory.read_ofBytes]
    exact ⟨_, f, (execLoad_eq_next_iff p s _).mpr (.inr (.inr ⟨hmin, hmax, f, hf, rfl⟩)), rfl, rfl, hf, hlen,
      fun a _ => hbytes a, rfl, rfl, rfl⟩

/-! ### INIT (R81) -/

theorem exec_init_of_legal (s : State) {n : BitVec 16} (hlegal : slotCountLegal n = true) :
    exec (.init n) s = .next ((s.newPacket (.initialized (builtRegs n.toNat s.cfg.defaultUniverse))
      (BitVec.ofNat 16 (126 + n.toNat)) (builtBuffer n.toNat s.cfg.defaultUniverse)).setResp
        ⟨.ok, BitVec.ofNat 32 (126 + n.toNat), []⟩) :=
  (execInit_eq_next_iff n s _).mpr (.inr ⟨hlegal, _, parseAll_builtBuffer _ _, rfl⟩)

theorem validation_builtRegs (n : Nat) (u : BitVec 16) : validation (builtRegs n u) = .none :=
  (validation_eq_none_iff _).mpr ⟨⟨rfl, rfl⟩, rfl, rfl, rfl, rfl, rfl⟩

/-- A state with the buffer and registers INIT builds meets R38. -/
theorem built_of_builtBuffer {t : State} {n : Nat} {u : BitVec 16} (hn : 1 ≤ n ∧ n ≤ 512)
    (hu : 1 ≤ u.toNat ∧ u.toNat ≤ 63999) (hlife : t.life = .initialized (builtRegs n u))
    (hlen : t.len = BitVec.ofNat 16 (126 + n)) (hbuf : t.buf = builtBuffer n u) : t.Built n (builtRegs n u) where
  slots := hn
  life := hlife
  len := hlen ▸ toNat_ofNat_of_lt (by omega)
  pre := rfl
  post := rfl
  pid := rfl
  rflen := (flength_toNat (by omega)).trans (by omega)
  rvec := rfl
  fflen := (flength_toNat (by omega)).trans (by omega)
  fvec := rfl
  rsvd := rfl
  univ := hu
  dflen := (flength_toNat (by omega)).trans (by omega)
  dvec := rfl
  dtype := rfl
  faddr := rfl
  ainc := rfl
  pvc := toNat_ofNat_of_lt (by omega)
  current := hbuf ▸ parseAll_builtBuffer n u
  valid := validation_builtRegs n u

/-- INIT's writes end below byte 125: start code and slots are zero (R81). -/
theorem read_builtBuffer_slots {n a : Nat} (u : BitVec 16) (ha : 125 ≤ a) (ha' : a < 126 + n) :
    (builtBuffer n u).read a = some 0 := by
  have hne : ∀ k, k < 125 → (a = k) = False := fun k hk => by simp; omega
  simp [read_builtBuffer, hne, ha', show ¬ a < 16 by omega]

/-- Settles O29: a legal INIT leaves `builtBuffer` and `builtRegs`. -/
theorem initBuildsThePacket : Obligations.InitBuildsThePacket := by
  refine ⟨fun s n hcfg hlo hhi => ?legal, fun s n hn => ?illegal⟩
  case legal =>
    obtain ⟨-, hu, -⟩ := (Params.valid_iff s.cfg).mp hcfg
    exact ⟨_, _, exec_init_of_legal s ((slotCountLegal_iff n).mpr ⟨hlo, hhi⟩), rfl,
      built_of_builtBuffer ⟨hlo, hhi⟩ hu rfl rfl (by simp), Vector.toList_replicate, Vector.toList_replicate,
      rfl, rfl, rfl, rfl, fun a ha ha' => by simpa using read_builtBuffer_slots _ ha ha', rfl, rfl, rfl⟩
  case illegal =>
    have hillegal : slotCountLegal n = false :=
      Bool.eq_false_iff.mpr fun hlegal => by
        obtain ⟨hlo, hhi⟩ := (slotCountLegal_iff n).mp hlegal
        omega
    exact (execInit_eq_next_iff n s _).mpr (.inl ⟨hillegal, rfl⟩)

end Sys2Proof.Machine
end

section
/-! SUPPORT. The validator (spec/41_validate.md): each layer predicate as the equations of its rule, and the code of the
first invalid layer as the number VALIDATE answers. -/

namespace Sys2Proof.Machine

/-! ### The layer predicates (R101 to R103) -/

theorem magic_toList :
    magic.toList = [0x41, 0x53, 0x43, 0x2D, 0x45, 0x31, 0x2E, 0x31, 0x37, 0x00, 0x00, 0x00] := rfl

theorem rootValid_iff (f : FieldRegs) :
    rootValid f = true ↔
      f.root.pid.toList = [0x41, 0x53, 0x43, 0x2D, 0x45, 0x31, 0x2E, 0x31, 0x37, 0x00, 0x00, 0x00] ∧
        f.root.rvec = 0x00000004 := by
  rw [← magic_toList, Vector.toList_inj, rootValid, Bool.and_eq_true, decide_eq_true_iff, decide_eq_true_iff]

theorem frameValid_iff (f : FieldRegs) : frameValid f = true ↔ f.frame.fvec = 0x00000002 :=
  decide_eq_true_iff

theorem dmpValid_iff (f : FieldRegs) :
    dmpValid f = true ↔
      f.dmp.dvec = 0x02 ∧ f.dmp.dtype = 0xA1 ∧ f.dmp.faddr = 0x0000 ∧ f.dmp.ainc = 0x0001 := by
  simp only [dmpValid, Bool.and_eq_true, decide_eq_true_iff, and_assoc]

/-! ### VALIDATE (R104) -/

/-- The codes of R145, in the order in which `Validate()` tests the layers. -/
theorem ofNat_validation_code (f : FieldRegs) :
    BitVec.ofNat 32 (validation f).code =
      if ¬ rootValid f = true then 1
      else if ¬ frameValid f = true then 2
      else if ¬ dmpValid f = true then 3
      else 0 := by
  unfold validation
  cases rootValid f with
  | false => rfl
  | true =>
    cases frameValid f with
    | false => rfl
    | true => cases dmpValid f <;> rfl

theorem exec_validate_of_fieldRegs {s : State} {f : FieldRegs} (hf : s.fieldRegs = some f) :
    exec .validate s = .next (s.setResp ⟨.ok, BitVec.ofNat 32 (validation f).code, []⟩) :=
  (execValidate_eq_next_iff s _).mpr (.inr ⟨f, hf, rfl⟩)

/-- Settles O37: the code of the first invalid layer, each layer judged by the equations of its rule. -/
theorem validateReportsTheFirstInvalidLayer : Obligations.ValidateReportsTheFirstInvalidLayer := by
  refine ⟨fun s hp => (execValidate_eq_next_iff s _).mpr (.inl ⟨hp, rfl⟩), fun s f hf => ?packet⟩
  case packet =>
    simp only [exec_validate_of_fieldRegs hf, ofNat_validation_code, rootValid_iff, frameValid_iff, dmpValid_iff]

end Sys2Proof.Machine
end

section
/-! SUPPORT. The sequence family (spec/42_sequence.md): DISCARD, CLASSIFY and INCSEQ. What the discard window and the
8-bit increment come to as numbers, and each command at the state its rule gives. -/

namespace Sys2Proof.Machine

/-! ### The window and the increment (R112, R116) -/

theorem shouldDiscard_iff (s l : Byte) :
    shouldDiscard s l = true ↔ -20 < (s.toNat : Int) - (l.toNat : Int) ∧ (s.toNat : Int) - (l.toNat : Int) ≤ 0 :=
  decide_eq_true_iff

/-- A first sight is accepted (the spec's decision D11, R113). -/
theorem sequenceClass_none (s : Byte) : sequenceClass none s = .accepted := rfl

theorem sequenceClass_some_of_shouldDiscard {s l : Byte} (h : shouldDiscard s l = true) :
    sequenceClass (some l) s = .outOfOrder := if_pos h

theorem sequenceClass_some_of_not_shouldDiscard {s l : Byte} (h : ¬ shouldDiscard s l = true) :
    sequenceClass (some l) s = .accepted := if_neg h

theorem nextSequence_toNat (s : Byte) : (nextSequence s).toNat = (s.toNat + 1) % 256 :=
  toNat_ofNat_of_lt (Nat.mod_lt _ (by decide))

/-! ### DISCARD (R111) -/

/-- Settles O38: the answer of DISCARD is the window, written out over the integers. -/
theorem discardJudgesTheIntegerDifference : Obligations.DiscardJudgesTheIntegerDifference := by
  refine ⟨fun l s hp => (execDiscard_eq_next_iff l s _).mpr (.inl ⟨hp, rfl⟩), fun s f last hf => ?packet⟩
  case packet =>
    simp only [← shouldDiscard_iff]
    exact (execDiscard_eq_next_iff last s _).mpr (.inr ⟨f, hf, rfl⟩)

/-! ### CLASSIFY (R113) -/

section
variable {s : State} {f : FieldRegs} (hf : s.fieldRegs = some f)
include hf

theorem exec_classify_of_invalid (hinvalid : validation f ≠ .none) :
    exec .classify s = .next (s.setResp ⟨.ok, BitVec.ofNat 32 (2 + 256 * (validation f).code), []⟩) :=
  (execClassify_eq_next_iff s _).mpr (.inr ⟨f, hf, .inl ⟨hinvalid, rfl⟩⟩)

theorem exec_classify_of_outOfOrder (hvalid : validation f = .none)
    (hclass : sequenceClass (s.trkAt f.frame.univ) f.frame.seq = .outOfOrder) :
    exec .classify s = .next (s.setResp ⟨.ok, 1, []⟩) :=
  (execClassify_eq_next_iff s _).mpr (.inr ⟨f, hf, .inr (.inl ⟨hvalid, hclass, rfl⟩)⟩)

theorem exec_classify_of_accepted (hvalid : validation f = .none)
    (hclass : sequenceClass (s.trkAt f.frame.univ) f.frame.seq = .accepted) :
    exec .classify s = .next ((s.setTrk f.frame.univ f.frame.seq).setResp ⟨.ok, 0, []⟩) :=
  (execClassify_eq_next_iff s _).mpr (.inr ⟨f, hf, .inr (.inr ⟨hvalid, hclass, rfl⟩)⟩)

end

/-- Settles O40: each clause names the class its hypotheses give the packet, and CLASSIFY follows the class. -/
theorem classifyFollowsValidationThenTracker : Obligations.ClassifyFollowsValidationThenTracker := by
  refine ⟨fun s hp => (execClassify_eq_next_iff s _).mpr (.inl ⟨hp, rfl⟩), fun s f hf =>
    ⟨exec_classify_of_invalid hf, fun hvalid => ⟨fun hnone => ?firstSight, fun l hl =>
      ⟨fun hin => ?inWindow, fun hout => ?outsideWindow⟩⟩⟩⟩
  case firstSight =>
    exact exec_classify_of_accepted hf hvalid (hnone ▸ sequenceClass_none _)
  case inWindow =>
    rw [← shouldDiscard_iff] at hin
    exact exec_classify_of_outOfOrder hf hvalid (hl ▸ sequenceClass_some_of_shouldDiscard hin)
  case outsideWindow =>
    rw [← shouldDiscard_iff] at hout
    exact exec_classify_of_accepted hf hvalid (hl ▸ sequenceClass_some_of_not_shouldDiscard hout)

/-! ### INCSEQ (R116) -/

/-- A byte written and a layer's registers loaded anew: what an edit of one byte keeps. -/
theorem keptByEdit_write_setRegs (s : State) (a : Nat) (b : Byte) (g : FieldRegs) (r : Response) :
    KeptByEdit a 1 s (((s.setBuf (s.buf.write a b)).setRegs g).setResp r) :=
  { keptByEdit_write s a b r with pstate := State.setRegs_pstate g _ }

/-- Under the invariant `ParseFrame()` succeeds after a write of a byte below LEN. -/
theorem State.Inv.parseFrame_write {s : State} (h : s.Inv) (hp : s.pstate ≠ .uninit) {a : Nat}
    (ha : a < s.len.toNat) (b : Byte) : ∃ g, parseFrame (s.buf.write a b) = some g :=
  parseFrame_of_keys (h.packetLen hp).1 (Memory.keys_range_write (h.packetBytes hp) ha b)

/-- Settles O43: byte 111 is below LEN, so the Framing Layer parses after the write, and the parser's own equation for
SEQ says that the register is the byte just written. -/
theorem incseqStoresTheSuccessor : Obligations.IncseqStoresTheSuccessor := by
  refine ⟨fun s hp => (execIncseq_eq_next_iff s _).mpr (.inl ⟨hp, rfl⟩), fun s f hinv hf => ?packet⟩
  case packet =>
    have hp := State.pstate_of_fieldRegs hf
    have hlen := (hinv.packetLen hp).1
    have hbyte := Memory.read_write_same s.buf 111 (nextSequence f.frame.seq)
    obtain ⟨g, hg⟩ := hinv.parseFrame_write hp (by omega : 111 < s.len.toNat) (nextSequence f.frame.seq)
    obtain ⟨-, -, -, -, -, hseq, -⟩ := (parseFrame_eq_some_iff _ g).mp hg
    exact ⟨_, g, nextSequence f.frame.seq, (execIncseq_eq_next_iff s _).mpr (.inr ⟨f, g, hf, hg, rfl⟩),
      nextSequence_toNat _, rfl, hbyte, keptByEdit_write_setRegs s 111 _ _ _, State.setRegs_fieldRegs hf _, hg,
      Option.some.inj (hseq.symm.trans hbyte)⟩

end Sys2Proof.Machine
end

section
/-! SUPPORT. The field readers (spec/43_field_read.md): which words are a GETFLD, and GETFLD, the readers of one register
and GETSLOTS at the state each rule gives. -/

namespace Sys2Proof

/-! ### The words of GETFLD (R69, R120) -/

@[simp] theorem fieldOfId_idOfField (f : FieldId) : fieldOfId (idOfField f) = some f := by
  cases f <;> rfl

theorem fieldOfId_eq_none_of_le : ∀ fid : BitVec 5, 17 ≤ fid.toNat → fieldOfId fid = none := by decide

theorem decode_of_getfld_opcode {w : Word} (hop : (opcodeOf w).toNat = 0x20) : decode ⟨w, []⟩ = decodeFieldId w := by
  have hframe : payloadLenOf w = 0 := if_neg (by simp [isPayloadOpcode_iff, hop])
  rw [decode_of_framed (c := ⟨w, []⟩) hframe.symm]
  simp only [decodeWord, hop]

theorem decode_encodeWord_getfld (f : FieldId) : decode ⟨encodeWord (.getfld f), []⟩ = .ok (.getfld f) := by
  have hop : opcodeOf (encodeWord (.getfld f)) = 0x20 := opcodeOf_wordOf _ _ _ _
  have hfid : fidOf (encodeWord (.getfld f)) = idOfField f :=
    (fidOf_wordOf _ _ _ _).trans (extract_append_low 0#3 (idOfField f))
  have hclear : fReservedClear (encodeWord (.getfld f)) = true := by cases f <;> rfl
  rw [decode_of_getfld_opcode (congrArg BitVec.toNat hop), decodeFieldId, hfid, fieldOfId_idOfField]
  exact if_pos hclear

/-- A GETFLD word with a field id of 17 to 31 is illegal, whether or not its reserved bits are clear. -/
theorem decode_error_of_reserved_fieldId {w : Word} (hop : (opcodeOf w).toNat = 0x20) (hfid : 17 ≤ (fidOf w).toNat) :
    ∃ e, decode ⟨w, []⟩ = .error e ∧ e ≠ .payloadMismatch := by
  rw [decode_of_getfld_opcode hop, decodeFieldId, fieldOfId_eq_none_of_le _ hfid]
  cases fReservedClear w with
  | false => exact ⟨.reservedBits, rfl, by decide⟩
  | true => exact ⟨.reservedFieldId, rfl, by decide⟩

namespace Machine

/-- The ids 0 to 16 name the registers in the order of R120's list. -/
theorem encodeWord_getfld_scalarFields : ∀ k : Fin scalarFields.length,
    encodeWord (.getfld scalarFields[k]) = BitVec.ofNat 32 (0x20000000 + k) := by decide

/-! ### GETFLD (R120) -/

theorem exec_getfld_of_fieldRegs {s : State} {f : FieldRegs} (hf : s.fieldRegs = some f) (fid : FieldId) :
    exec (.getfld fid) s = .next (s.setResp ⟨.ok, fieldValue f fid, []⟩) :=
  (execGetfld_eq_next_iff fid s _).mpr (.inr ⟨f, hf, rfl⟩)

/-- Settles O45: the k-th word is the encoding of the k-th register, a reserved id is a decoder's error, and the answer
is `fieldValue`, read off register by register. -/
theorem getfldAnswersTheRegister : Obligations.GetfldAnswersTheRegister := by
  refine ⟨fun k fid hk => ?word, fun s w rest hcmds hop hfid => ?reserved,
    fun fid s hp => (execGetfld_eq_next_iff fid s _).mpr (.inl ⟨hp, rfl⟩), fun s f hf => ?packet⟩
  case word =>
    obtain ⟨hlt, rfl⟩ := List.getElem?_eq_some_iff.mp hk
    have hword := encodeWord_getfld_scalarFields ⟨k, hlt⟩
    exact hword ▸ decode_encodeWord_getfld scalarFields[k]
  case reserved =>
    obtain ⟨e, herror, hframed⟩ := decode_error_of_reserved_fieldId hop hfid
    exact (step_eq_next_iff s _).mpr (.inr ⟨_, rest, hcmds, .inl ⟨e, herror, hframed, rfl⟩⟩)
  case packet =>
    have hread := exec_getfld_of_fieldRegs hf
    exact ⟨hread .pre, hread .post, hread .rflen, hread .rvec, hread .fflen, hread .fvec, hread .prio, hread .rsvd,
      hread .seq, hread .opts, hread .univ, hread .dflen, hread .dvec, hread .dtype, hread .faddr, hread .ainc,
      hread .pvc⟩

/-! ### The readers of one register (R121 to R127) -/

/-- Settles O46: each command's inversion lemma, at UNINIT and at a packet's registers. -/
theorem registerReadersAnswerTheirRegister : Obligations.RegisterReadersAnswerTheirRegister := by
  refine ⟨⟨fun s hp => ?_, fun s hp => ?_, fun s hp => ?_, fun s hp => ?_, fun s hp => ?_, fun b s hp => ?_,
    fun s hp => ?_⟩, fun s f hf => ?packet⟩
  · exact (execGetpid_eq_next_iff s _).mpr (.inl ⟨hp, rfl⟩)
  · exact (execGetcid_eq_next_iff s _).mpr (.inl ⟨hp, rfl⟩)
  · exact (execGetname_eq_next_iff s _).mpr (.inl ⟨hp, rfl⟩)
  · exact (execGetprio_eq_next_iff s _).mpr (.inl ⟨hp, rfl⟩)
  · exact (execGetseq_eq_next_iff s _).mpr (.inl ⟨hp, rfl⟩)
  · exact (execGetopt_eq_next_iff b s _).mpr (.inl ⟨hp, rfl⟩)
  · exact (execGetuniv_eq_next_iff s _).mpr (.inl ⟨hp, rfl⟩)
  case packet =>
    exact ⟨(execGetpid_eq_next_iff s _).mpr (.inr ⟨f, hf, rfl⟩), (execGetcid_eq_next_iff s _).mpr (.inr ⟨f, hf, rfl⟩),
      (execGetname_eq_next_iff s _).mpr (.inr ⟨f, hf, rfl⟩), (execGetprio_eq_next_iff s _).mpr (.inr ⟨f, hf, rfl⟩),
      (execGetseq_eq_next_iff s _).mpr (.inr ⟨f, hf, rfl⟩), (execGetuniv_eq_next_iff s _).mpr (.inr ⟨f, hf, rfl⟩),
      fun b => (execGetopt_eq_next_iff b s _).mpr (.inr ⟨f, hf, rfl⟩)⟩

/-! ### GETSLOTS (R128) -/

/-- Under the invariant the buffer has all `NSLOTS` bytes from offset 126 on, the data GETSLOTS answers. -/
theorem State.Inv.exists_slots {s : State} (h : s.Inv) (hp : s.pstate ≠ .uninit) :
    ∃ d, s.buf.readBytes 126 s.nslots = some d :=
  Memory.readBytes_isSome _ fun k (hk : k < s.len.toNat - 126) => (h.read_isSome_iff hp (126 + k)).mpr (by omega)

/-- Settles O47: what is read are exactly the bytes from 126 on, LEN - 126 of them. -/
theorem getslotsReadsTheSlots : Obligations.GetslotsReadsTheSlots := by
  refine ⟨fun s hp => (execGetslots_eq_next_iff s _).mpr (.inl ⟨hp, rfl⟩), fun s hinv hp => ?packet⟩
  case packet =>
    obtain ⟨f, hf⟩ := State.exists_fieldRegs hp
    obtain ⟨d, hd⟩ := hinv.exists_slots hp
    obtain ⟨hlength, hbytes⟩ := (Memory.readBytes_eq_some_iff _ _ _ d).mp hd
    exact ⟨d, (execGetslots_eq_next_iff s _).mpr (.inr ⟨f, d, hf, hd, rfl⟩), hlength, hbytes⟩

end Machine
end Sys2Proof
end

section
/-! SUPPORT. The field writers (spec/44_field_write.md): what a string of bytes written from an offset leaves there,
what the padded name, the options byte and the clamped count come to, and each command at the state its rule gives. -/

namespace Sys2Proof.Machine

/-! ### Bytes and registers after an edit -/

theorem Memory.read_writeBytes_add (m : Memory) (a : Nat) {p : List Byte} {i : Nat} (hi : i < p.length) :
    (m.writeBytes a p).read (a + i) = p[i]? := by
  rw [Memory.read_writeBytes_inside m p (by omega) (by omega), Nat.add_sub_cancel_left]

/-- A byte-string register loaded from where the bytes `p` stand is `p` (R27). -/
theorem Memory.toList_of_readVec {m : Memory} {a n : Nat} {v : Vector Byte n} {p : List Byte}
    (hv : m.readVec a n = some v) (hlen : p.length = n) (hp : ∀ i, i < n → m.read (a + i) = p[i]?) : v.toList = p := by
  refine List.ext_getElem (by simp [hlen]) fun i hi hi' => ?_
  have hin : i < n := hlen ▸ hi'
  have hread := ((Memory.readVec_eq_some_iff m a n v).mp hv i hin).symm.trans (hp i hin)
  simpa [List.getElem?_eq_getElem hi'] using hread

/-- What a mutator keeps, from the bytes its new buffer leaves alone (R130). -/
theorem keptByEdit_setBuf_setRegs {s : State} {a n : Nat} {m : Memory}
    (hout : ∀ x, x < a ∨ a + n ≤ x → m.read x = s.buf.read x) (g : FieldRegs) (r : Response) :
    KeptByEdit a n s (((s.setBuf m).setRegs g).setResp r) where
  cfg := rfl
  pstate := State.setRegs_pstate g _
  len := rfl
  trk _ := rfl
  cmds := rfl
  buf := hout

theorem keptByEdit_writeBytes_setRegs (s : State) (a : Nat) {n : Nat} {p : List Byte} (hlen : p.length = n)
    (g : FieldRegs) (r : Response) : KeptByEdit a n s (((s.setBuf (s.buf.writeBytes a p)).setRegs g).setResp r) :=
  keptByEdit_setBuf_setRegs (fun _ hx => Memory.read_writeBytes_outside s.buf p (hlen ▸ hx)) g r

theorem keptByEdit_write16_setRegs (s : State) (a : Nat) (v : BitVec 16) (g : FieldRegs) (r : Response) :
    KeptByEdit a 2 s (((s.setBuf (s.buf.write16 a v)).setRegs g).setResp r) :=
  keptByEdit_setBuf_setRegs
    (fun x hx => by rw [Memory.read_write16, if_neg (by omega : x ≠ a), if_neg (by omega : x ≠ a + 1)]) g r

/-- Under the invariant a string of bytes written below LEN keeps exactly the bytes below LEN written. -/
theorem State.Inv.keys_writeBytes {s : State} (h : s.Inv) (hp : s.pstate ≠ .uninit) {a : Nat} {p : List Byte}
    (ha : a + p.length ≤ s.len.toNat) : (s.buf.writeBytes a p).map Prod.fst = List.range s.len.toNat :=
  Memory.keys_range_writeBytes (h.packetBytes hp) ha

/-! ### SETCID (R131) -/

/-- Settles O48: the payload lies in bytes 22 to 37, from where `ParseRoot()` loads CID. -/
theorem setcidStoresSixteenBytes : Obligations.SetcidStoresSixteenBytes := by
  refine ⟨fun p s hp => (execSetcid_eq_next_iff p s _).mpr (.inl ⟨hp, rfl⟩),
    fun s f p hinv hf => ⟨fun hbad => ?otherLength, fun hlen => ?sixteen⟩⟩
  case otherLength =>
    exact (execSetcid_eq_next_iff p s _).mpr (.inr (.inl ⟨State.pstate_of_fieldRegs hf, hbad, rfl⟩))
  case sixteen =>
    have hp := State.pstate_of_fieldRegs hf
    have hmin := (hinv.packetLen hp).1
    have hbytes : ∀ i, i < 16 → (s.buf.writeBytes 22 p).read (22 + i) = p[i]? := fun i hi =>
      Memory.read_writeBytes_add s.buf 22 (hlen ▸ hi)
    obtain ⟨g, hg⟩ := parseRoot_of_keys hmin (hinv.keys_writeBytes hp (by omega : 22 + p.length ≤ s.len.toNat))
    obtain ⟨-, -, -, -, -, hcid⟩ := (parseRoot_eq_some_iff _ g).mp hg
    exact ⟨_, g, (execSetcid_eq_next_iff p s _).mpr (.inr (.inr ⟨hlen, f, g, hf, hg, rfl⟩)), rfl, hbytes,
      keptByEdit_writeBytes_setRegs s 22 hlen _ _, State.setRegs_fieldRegs hf _, hg,
      Memory.toList_of_readVec hcid hlen hbytes⟩

/-! ### SETNAME (R132) -/

theorem paddedName_getElem?_of_lt {p : List Byte} {i : Nat} (hi : i < min p.length 64) :
    (paddedName p)[i]? = p[i]? := by
  rw [paddedName, List.getElem?_append_left (by rw [List.length_take]; omega), List.getElem?_take_of_lt (by omega)]

theorem paddedName_getElem?_of_ge {p : List Byte} {i : Nat} (hi : min p.length 64 ≤ i) (hi' : i < 64) :
    (paddedName p)[i]? = some 0 := by
  have htake : (p.take 64).length = p.length := by rw [List.length_take]; omega
  rw [paddedName, List.getElem?_append_right (by omega), List.getElem?_replicate, if_pos (by omega)]

/-- Settles O49: what is written is always the 64 bytes of `paddedName`, so no byte of an older name stays. -/
theorem setnamePadsAndTruncates : Obligations.SetnamePadsAndTruncates := by
  refine ⟨fun p s hp => (execSetname_eq_next_iff p s _).mpr (.inl ⟨hp, rfl⟩), fun s f p hinv hf => ?packet⟩
  case packet =>
    have hp := State.pstate_of_fieldRegs hf
    have hmin := (hinv.packetLen hp).1
    have hlen := paddedName_length p
    have hbytes : ∀ i, i < 64 → (s.buf.writeBytes 44 (paddedName p)).read (44 + i) = (paddedName p)[i]? := fun i hi =>
      Memory.read_writeBytes_add s.buf 44 (hlen.symm ▸ hi)
    obtain ⟨g, hg⟩ := parseFrame_of_keys hmin
      (hinv.keys_writeBytes hp (by omega : 44 + (paddedName p).length ≤ s.len.toNat))
    exact ⟨_, g, (execSetname_eq_next_iff p s _).mpr (.inr ⟨f, g, hf, hg, rfl⟩), rfl,
      fun i hi => (hbytes i (by omega)).trans (paddedName_getElem?_of_lt hi),
      fun i hi hi' => (hbytes i hi').trans (paddedName_getElem?_of_ge hi hi'),
      keptByEdit_writeBytes_setRegs s 44 hlen _ _, State.setRegs_fieldRegs hf _, hg⟩

/-! ### SETPRIO, SETSEQ and SETOPT (R133 to R135): one byte of the Framing Layer -/

/-- The edit the three commands share: one byte below LEN written, and the Framing Layer re-derived. -/
theorem rederiveFrame_write_eq_next {s : State} {f : FieldRegs} (hinv : s.Inv) (hf : s.fieldRegs = some f) {a : Nat}
    (ha : a < 126) (b : Byte) :
    ∃ (t : State) (g : FrameRegs), rederiveFrame f 0 (s.setBuf (s.buf.write a b)) = .next t ∧
      t.resp = some ⟨.ok, 0, []⟩ ∧ t.buf.read a = some b ∧ KeptByEdit a 1 s t ∧
      t.fieldRegs = some { f with frame := g } ∧ parseFrame t.buf = some g := by
  have hp := State.pstate_of_fieldRegs hf
  have hmin := (hinv.packetLen hp).1
  obtain ⟨g, hg⟩ := hinv.parseFrame_write hp (by omega : a < s.len.toNat) b
  exact ⟨_, g, (rederiveFrame_eq_next_iff f 0 _ _).mpr ⟨g, hg, rfl⟩, rfl, Memory.read_write_same s.buf a b,
    keptByEdit_write_setRegs s a b _ _, State.setRegs_fieldRegs hf _, hg⟩

/-- Settles O50: the parser's equations for PRIO and SEQ say that the register is the byte just written. -/
theorem setprioAndSetseqStoreTheirByte : Obligations.SetprioAndSetseqStoreTheirByte := by
  refine ⟨fun b => ⟨fun s hp => (execSetprio_eq_next_iff b s _).mpr (.inl ⟨hp, rfl⟩),
    fun s hp => (execSetseq_eq_next_iff b s _).mpr (.inl ⟨hp, rfl⟩)⟩, fun s f b hinv hf => ⟨?prio, ?seq⟩⟩
  case prio =>
    obtain ⟨t, g, hrun, hresp, hbyte, hkept, hregs, hg⟩ := rederiveFrame_write_eq_next hinv hf (by decide : 108 < 126) b
    obtain ⟨-, -, -, hprio, -⟩ := (parseFrame_eq_some_iff _ g).mp hg
    exact ⟨t, g, (withRegs_some hf _).trans hrun, hresp, hbyte, hkept, hregs, hg,
      Option.some.inj (hprio.symm.trans hbyte)⟩
  case seq =>
    obtain ⟨t, g, hrun, hresp, hbyte, hkept, hregs, hg⟩ := rederiveFrame_write_eq_next hinv hf (by decide : 111 < 126) b
    obtain ⟨-, -, -, -, -, hseq, -⟩ := (parseFrame_eq_some_iff _ g).mp hg
    exact ⟨t, g, (withRegs_some hf _).trans hrun, hresp, hbyte, hkept, hregs, hg,
      Option.some.inj (hseq.symm.trans hbyte)⟩

/-- `2^bit` is the byte with that one bit set (R135). -/
theorem ofNat_two_pow_bit (bit : BitVec 3) (j : Nat) :
    (BitVec.ofNat 8 (2 ^ bit.toNat)).getLsbD j = decide (j = bit.toNat) := by
  have hbit := bit.isLt
  rw [BitVec.getLsbD_ofNat, Nat.testBit_two_pow, ← Bool.decide_and, decide_eq_decide]
  omega

/-- SETOPT's new options byte, bit by bit (R135). -/
theorem optionSet_getLsbD (opts : Byte) (bit : BitVec 3) (on : Bool) {j : Nat} (hj : j < 8) :
    (optionSet opts bit on).getLsbD j = if j = bit.toNat then on else opts.getLsbD j := by
  cases on with
  | true =>
    rw [optionSet, if_pos rfl, BitVec.getLsbD_or, ofNat_two_pow_bit]
    by_cases h : j = bit.toNat <;> simp [h]
  | false =>
    have hones : (0xFF : Byte) = BitVec.allOnes 8 := rfl
    rw [optionSet, if_neg Bool.false_ne_true, hones, BitVec.allOnes_sub_eq_not, BitVec.getLsbD_and,
      BitVec.getLsbD_not, ofNat_two_pow_bit, decide_eq_true hj, Bool.true_and]
    by_cases h : j = bit.toNat <;> simp [h]

/-- Settles O51: the byte stored is `optionSet` of the OPTS register. -/
theorem setoptChangesOneBit : Obligations.SetoptChangesOneBit := by
  refine ⟨fun b on s hp => (execSetopt_eq_next_iff b on s _).mpr (.inl ⟨hp, rfl⟩), fun s f b on hinv hf => ?packet⟩
  case packet =>
    obtain ⟨t, g, hrun, hresp, hbyte, hkept, hregs, hg⟩ :=
      rederiveFrame_write_eq_next hinv hf (by decide : 112 < 126) (optionSet f.frame.opts b on)
    obtain ⟨-, -, -, -, -, -, hopts, -⟩ := (parseFrame_eq_some_iff _ g).mp hg
    exact ⟨t, g, _, (withRegs_some hf _).trans hrun, hresp, fun j => optionSet_getLsbD f.frame.opts b on, hbyte, hkept,
      hregs, hg, Option.some.inj (hopts.symm.trans hbyte)⟩

/-! ### SETUNIV (R136) -/

theorem universeLegal_eq_false_iff (u : BitVec 16) : universeLegal u = false ↔ u.toNat < 1 ∨ 63999 < u.toNat := by
  rw [Bool.eq_false_iff, ne_eq, universeLegal_iff]
  omega

/-- Settles O52: bytes 113 and 114 are the high and the low byte of the universe, which the parser's 16-bit read puts
together again. -/
theorem setunivStoresLegalUniverses : Obligations.SetunivStoresLegalUniverses := by
  refine ⟨fun u s hp => (execSetuniv_eq_next_iff u s _).mpr (.inl ⟨hp, rfl⟩),
    fun s f u hinv hf => ⟨fun hout => ?outOfRange, fun hlo hhi => ?legal⟩⟩
  case outOfRange =>
    exact (execSetuniv_eq_next_iff u s _).mpr
      (.inr (.inl ⟨State.pstate_of_fieldRegs hf, (universeLegal_eq_false_iff u).mpr hout, rfl⟩))
  case legal =>
    have hp := State.pstate_of_fieldRegs hf
    have hmin := (hinv.packetLen hp).1
    have hread := Memory.read16_write16_same s.buf 113 u
    obtain ⟨hhigh, hlow⟩ := (Memory.read16_eq_some_iff _ 113 u).mp hread
    have hvalue : u.toNat = (u.extractLsb' 8 8).toNat * 256 + (u.extractLsb' 0 8).toNat := by
      rw [toNat_extract_highByte, toNat_extract_lowByte]; omega
    obtain ⟨g, hg⟩ := parseFrame_of_keys hmin
      (Memory.keys_range_write16 (hinv.packetBytes hp) (by omega : 113 + 2 ≤ s.len.toNat) u)
    obtain ⟨-, -, -, -, -, -, -, huniv⟩ := (parseFrame_eq_some_iff _ g).mp hg
    exact ⟨_, g, _, _, (execSetuniv_eq_next_iff u s _).mpr
        (.inr (.inr ⟨(universeLegal_iff u).mpr ⟨hlo, hhi⟩, f, g, hf, hg, rfl⟩)), rfl, hhigh, hlow, hvalue,
      keptByEdit_write16_setRegs s 113 u _ _, State.setRegs_fieldRegs hf _, hg,
      Option.some.inj (huniv.symm.trans hread)⟩

/-! ### SETSLOTS (R137) -/

theorem slotCopyCount_le_len16 (len16 : Nat) (pvc len : BitVec 16) : slotCopyCount len16 pvc len ≤ len16 := by
  simp only [slotCopyCount]; omega

/-- Settles O53: the number the integer clamp determines is `slotCopyCount`, so the bytes written are the first `k` of
the payload and end at or below LEN. -/
theorem setslotsCopiesTheClampedCount : Obligations.SetslotsCopiesTheClampedCount := by
  refine ⟨fun p s hp => (execSetslots_eq_next_iff p s _).mpr (.inl ⟨hp, rfl⟩), fun s f p k hinv hf hk => ?packet⟩
  case packet =>
    obtain rfl : slotCopyCount p.length f.dmp.pvc s.len = k := by rw [slotCopyCount, ← hk, Int.toNat_natCast]
    have hp := State.pstate_of_fieldRegs hf
    have hmin := (hinv.packetLen hp).1
    have hfits := slotCopyCount_le p.length f.dmp.pvc s.len
    have hlen := List.length_take_of_le (slotCopyCount_le_len16 p.length f.dmp.pvc s.len)
    obtain ⟨g, hg⟩ := parseDmp_of_keys hmin (hinv.keys_writeBytes hp (a := 126) (by rw [hlen]; omega))
    exact ⟨_, g, (execSetslots_eq_next_iff p s _).mpr (.inr ⟨f, g, hf, hg, rfl⟩), rfl,
      fun i hi => (Memory.read_writeBytes_add s.buf 126 (hlen.symm ▸ hi)).trans (List.getElem?_take_of_lt hi),
      keptByEdit_writeBytes_setRegs s 126 hlen _ _, State.setRegs_fieldRegs hf _, hg⟩

end Sys2Proof.Machine
end

section
/-! SUPPORT. The exceptions (spec/60_exceptions.md): which results answer ERR_STATE (R143), what a failed command leaves
(R150), and the values CLASSIFY answers (R146), each with a state that answers it. -/

namespace Sys2Proof.Machine

/-! ### ERR_STATE (R143) -/

theorem exec_errState_of_uninit {i : Instr} (hi : needsNoPacket i = false) : ErrStateWithoutPacket i := by
  intro s hp
  cases i with
  | init | load | getstate => cases hi
  | _ => exact withRegs_uninit hp _

/-- The result's answer, if it has one, is not ERR_STATE. -/
def NoErrState (r : Result) : Prop := ∀ q, answer r = some q → q.status ≠ .errState

/-! One rule for each operation a meaning is written from. -/

theorem NoErrState.respond {st : Status} (h : st ≠ .errState) {v : BitVec 32} {d : List Byte} {s : State} :
    NoErrState (respond st v d s) := by
  intro q hq
  obtain rfl := Option.some.inj hq
  exact h

theorem NoErrState.ite {c : Prop} [Decidable c] {a b : Result} (ha : NoErrState a) (hb : NoErrState b) :
    NoErrState (if c then a else b) := by
  split
  · exact ha
  · exact hb

theorem NoErrState.orUnwritten {α : Type} {o : Option α} {k : α → Result} (h : ∀ x, NoErrState (k x)) :
    NoErrState (orUnwritten o k) := by
  cases o with
  | none => nofun
  | some x => exact h x

/-- With a packet the state test is passed. -/
theorem NoErrState.withRegs {s : State} (hp : s.pstate ≠ .uninit) {k : FieldRegs → Result}
    (h : ∀ f, NoErrState (k f)) : NoErrState (withRegs s k) := by
  obtain ⟨f, hf⟩ := State.exists_fieldRegs hp
  rw [withRegs_some hf]
  exact h f

/-- The commands by the shape of their meaning: a test of the operands where there is one, the buffer bytes used, and
the response. -/
theorem exec_noErrState {s : State} (hp : s.pstate ≠ .uninit) (i : Instr) : NoErrState (exec i s) := by
  cases i with
  | getstate => exact .respond (by decide)
  | init => exact .ite (.orUnwritten fun _ => .respond (by decide)) (.respond (by decide))
  | load =>
    exact .ite (.respond (by decide)) (.ite (.respond (by decide)) (.orUnwritten fun _ => .respond (by decide)))
  | validate | discard | getfld | getcid | getname | getprio | getseq | getopt | getuniv | getpid =>
    exact .withRegs hp fun _ => .respond (by decide)
  | parse | getslots | incseq | setname | setprio | setseq | setopt | setslots =>
    exact .withRegs hp fun _ => .orUnwritten fun _ => .respond (by decide)
  | bufrd | setcid =>
    exact .withRegs hp fun _ => .ite (.respond (by decide)) (.orUnwritten fun _ => .respond (by decide))
  | setuniv =>
    exact .withRegs hp fun _ => .ite (.orUnwritten fun _ => .respond (by decide)) (.respond (by decide))
  | bufwr => exact .withRegs hp fun _ => .ite (.respond (by decide)) (.respond (by decide))
  | classify =>
    refine .withRegs hp fun _ => .ite (.respond (by decide)) ?_
    split <;> exact .respond (by decide)

/-- Settles O14: the invariant gives LEN, the state test gives the answer in UNINIT, and with a packet no operation after
the state test answers ERR_STATE. -/
theorem errStateExactlyInUninit : Obligations.ErrStateExactlyInUninit := by
  refine ⟨fun s hinv hp => ⟨?noRegs, (hinv.noPacket hp).1⟩, fun i => exec_errState_of_uninit,
    fun i s t r hp h hr => exec_noErrState hp i r (by rw [h]; exact hr)⟩
  case noRegs =>
    exact Option.not_isSome_iff_eq_none.mp fun hsome => s.fieldRegs_isSome_iff.mp hsome hp

/-! ### Failed commands (R150) -/

theorem status_of_eq_setResp {u t : State} {st : Status} {v : BitVec 32} {d : List Byte} {r : Response}
    (result : t = u.setResp ⟨st, v, d⟩) (hr : t.resp = some r) : r.status = st := by
  subst result
  obtain rfl := Option.some.inj hr
  rfl

/-- Of all effects a command can have, only the bare response goes with a status other than OK. -/
theorem exec_of_status_ne_ok {i : Instr} {s t : State} {r : Response} (h : exec i s = .next t)
    (hr : t.resp = some r) (hfail : r.status ≠ .ok) : t = s.setResp r ∧ r.value = 0 ∧ r.data = [] := by
  cases exec_effect h with
  | response q status _ result =>
    obtain rfl : q = r := Option.some.inj ((congrArg State.resp result).symm.trans hr)
    exact ⟨result, status hfail⟩
  | build | take | reparse | poke | track | edit =>
    rename_i result
    exact absurd (status_of_eq_setResp result hr) hfail

/-- Settles O15: the pair is an illegal word, answered ERR_ILLEGAL and nothing else, or a command that fails. -/
theorem failedCommandChangesNothing : Obligations.FailedCommandChangesNothing := by
  intro s t c rest r hcmds hstep hr hfail
  rcases (step_eq_next_iff s t).mp hstep with ⟨hnil, _⟩ | ⟨c', rest', hcons, hpair⟩
  · cases hcmds.symm.trans hnil
  · cases hcmds.symm.trans hcons
    rcases hpair with ⟨_, _, _, rfl⟩ | ⟨i, _, hexec⟩
    · obtain rfl := Option.some.inj hr
      exact ⟨rfl, rfl, rfl⟩
    · exact exec_of_status_ne_ok hexec hr hfail

/-! ### The values of CLASSIFY (R146) -/

theorem classifyValue_invalid {v : Validation} (h : v ≠ .none) :
    classifyValue .invalid v = 0x0102 ∨ classifyValue .invalid v = 0x0202 ∨ classifyValue .invalid v = 0x0302 := by
  cases v with
  | none => exact absurd rfl h
  | rootLayerInvalid => exact .inl rfl
  | frameLayerInvalid => exact .inr (.inl rfl)
  | dmpLayerInvalid => exact .inr (.inr rfl)

theorem exec_classify_value {s t : State} {r : Response} (h : exec .classify s = .next t) (hr : t.resp = some r)
    (hok : r.status = .ok) :
    r.value = 0x0000 ∨ r.value = 0x0001 ∨ r.value = 0x0102 ∨ r.value = 0x0202 ∨ r.value = 0x0302 := by
  rcases (execClassify_eq_next_iff s t).mp h with
    ⟨_, rfl⟩ | ⟨f, _, ⟨hinvalid, rfl⟩ | ⟨_, _, rfl⟩ | ⟨_, _, rfl⟩⟩ <;> obtain rfl := Option.some.inj hr
  · cases hok
  · exact .inr (.inr (classifyValue_invalid hinvalid))
  · exact .inr (.inl rfl)
  · exact .inl rfl

/-- A packet of one slot in the buffer, the registers `f`, and 0 as the tracker's entry of universe 1. -/
def oneSlotState (f : FieldRegs) : State :=
  (State.reset.setTrk 1 0).newPacket (.initialized f) 127 (builtBuffer 1 1)

theorem oneSlotState_inv (f : FieldRegs) : (oneSlotState f).Inv where
  cfgValid := (by decide : Config.Params.default.valid = true)
  trkCanonical := Memory.wf_write Memory.wf_nil _ _
  trkKeys := (by decide : ∀ c ∈ Memory.write [] 1 0, c.1 < 65536)
  noPacket := nofun
  packetLen := fun _ => (by decide : 126 ≤ 127 ∧ 127 ≤ 638)
  packetBytes := fun _ => keys_builtBuffer 1 1

/-- The registers INIT 1 loads, with four of them as given: the sequence number, which CLASSIFY judges, and one register
of each layer that the validator reads. -/
def oneSlotRegs (seq : Byte) (rvec fvec : BitVec 32) (dvec : Byte) : FieldRegs :=
  let f := builtRegs 1 1
  ⟨{ f.root with rvec := rvec }, { f.frame with seq := seq, fvec := fvec }, { f.dmp with dvec := dvec }⟩

/-- Settles O41: the five values are met after INIT 1 with TRK[1] = 0, by the sequence numbers 1 and 0, and by a wrong
vector in the Root, the Framing and the DMP Layer. -/
theorem classifyHasFiveValues : Obligations.ClassifyHasFiveValues := by
  refine ⟨fun s t r => exec_classify_value, ?occurs⟩
  rintro v (rfl | rfl | rfl | rfl | rfl)
  · exact ⟨_, oneSlotState_inv (oneSlotRegs 1 4 2 2), rfl⟩
  · exact ⟨_, oneSlotState_inv (oneSlotRegs 0 4 2 2), rfl⟩
  · exact ⟨_, oneSlotState_inv (oneSlotRegs 0 0 2 2), rfl⟩
  · exact ⟨_, oneSlotState_inv (oneSlotRegs 0 4 0 2), rfl⟩
  · exact ⟨_, oneSlotState_inv (oneSlotRegs 0 4 2 0), rfl⟩

end Sys2Proof.Machine
end

section
/-! SUPPORT. The round trip of the encoding (spec/30_encoding.md sections 1 to 3): the fields of the word each format
builds, the command a command's own word decodes to, and what of a pair the decoded command keeps. -/

namespace Sys2Proof

/-! ### The fields of the words the formats build (R61, R62) -/

section
variable (op : Byte)

@[simp] theorem opcodeOf_wordZ : opcodeOf (wordZ op) = op := opcodeOf_wordOf ..
@[simp] theorem opcodeOf_word16 (h : Half) : opcodeOf (word16 op h) = op := opcodeOf_wordOf ..
@[simp] theorem opcodeOf_word8 (b : Byte) : opcodeOf (word8 op b) = op := opcodeOf_wordOf ..
@[simp] theorem opcodeOf_wordA (a : Half) (b : Byte) : opcodeOf (wordA op a b) = op := opcodeOf_wordOf ..
@[simp] theorem opcodeOf_wordB (bit : BitVec 3) (on : Bool) : opcodeOf (wordB op bit on) = op := opcodeOf_wordOf ..
@[simp] theorem opcodeOf_wordF (fid : BitVec 5) : opcodeOf (wordF op fid) = op := opcodeOf_wordOf ..

@[simp] theorem imm16Of_word16 (h : Half) : imm16Of (word16 op h) = h := by
  rw [word16, imm16Of_wordOf, hiByte_append_loByte]

@[simp] theorem imm8Of_word8 (b : Byte) : imm8Of (word8 op b) = b := imm8Of_wordOf ..

@[simp] theorem imm8Of_wordA (a : Half) (b : Byte) : imm8Of (wordA op a b) = b := imm8Of_wordOf ..

@[simp] theorem addr16Of_wordA (a : Half) (b : Byte) : addr16Of (wordA op a b) = a := by
  rw [wordA, addr16Of_wordOf, hiByte_append_loByte]

@[simp] theorem bitOf_wordB (bit : BitVec 3) (on : Bool) : bitOf (wordB op bit on) = bit := by
  rw [wordB, bitOf_wordOf]
  exact extract_append_low 0#5 bit

@[simp] theorem onOf_wordB (bit : BitVec 3) (on : Bool) : onOf (wordB op bit on) = on := by
  rw [wordB, onOf_wordOf]
  cases on <;> rfl

@[simp] theorem fidOf_wordF (fid : BitVec 5) : fidOf (wordF op fid) = fid := by
  rw [wordF, fidOf_wordOf]
  exact extract_append_low 0#3 fid

@[simp] theorem zReservedClear_wordZ : zReservedClear (wordZ op) = true := by
  rw [wordZ, zReservedClear_wordOf]
  rfl

@[simp] theorem i16ReservedClear_word16 (h : Half) : i16ReservedClear (word16 op h) = true := by
  rw [word16, i16ReservedClear_wordOf]
  rfl

@[simp] theorem i8ReservedClear_word8 (b : Byte) : i8ReservedClear (word8 op b) = true := by
  rw [word8, i8ReservedClear_wordOf]
  rfl

@[simp] theorem bReservedClear_wordB (bit : BitVec 3) (on : Bool) : bReservedClear (wordB op bit on) = true := by
  rw [wordB, bReservedClear_wordOf, extract_append_high 0#5 bit, extract_append_high 0#7 (BitVec.ofBool on)]
  rfl

@[simp] theorem fReservedClear_wordF (fid : BitVec 5) : fReservedClear (wordF op fid) = true := by
  rw [wordF, fReservedClear_wordOf, extract_append_high 0#3 fid]
  rfl

end

/-! ### Decoding the word of a command -/

/-- The command with `p` as its payload, where its format has one (R60). -/
def Instr.withPayload (p : List Byte) : Instr → Instr
  | .load _ => .load p
  | .setcid _ => .setcid p
  | .setname _ => .setname p
  | .setslots _ => .setslots p
  | i => i

@[simp] theorem withPayload_payload (i : Instr) : i.withPayload i.payload = i := by
  cases i <;> rfl

@[simp] theorem mnemonic_withPayload (p : List Byte) (i : Instr) : (i.withPayload p).mnemonic = i.mnemonic := by
  cases i <;> rfl

/-- The word of a command decodes to it, with the payload presented. -/
theorem decodeWord_encodeWord (i : Instr) (p : List Byte) : decodeWord (encodeWord i) p = .ok (i.withPayload p) := by
  cases i <;> simp [encodeWord, decodeWord, decodeFieldId, legalIf, Instr.withPayload]

/-- The word of a well-formed command announces its payload's length (R64). -/
theorem payloadLenOf_encodeWord {i : Instr} (h : i.wellFormed = true) :
    payloadLenOf (encodeWord i) = i.payload.length := by
  have hlen : i.payload.length < 65536 := of_decide_eq_true h
  cases i with
  | load p | setcid p | setname p | setslots p =>
    have hmod : p.length % 65536 = p.length := Nat.mod_eq_of_lt hlen
    simp [payloadLenOf, isPayloadOpcode, encodeWord, Instr.payload, hmod]
  | _ => simp [payloadLenOf, isPayloadOpcode, encodeWord, Instr.payload]

/-- Settles O1: the pair of a well-formed command is framed, and its word decodes to the command with that payload. -/
theorem decodeOfEncode : Obligations.DecodeOfEncode := by
  intro i hwf
  have hframe : (encode i).payload.length = payloadLenOf (encode i).word := (payloadLenOf_encodeWord hwf).symm
  rw [decode_of_framed hframe, encode, decodeWord_encodeWord, withPayload_payload]

/-! ### The pair of a decoded command -/

theorem payloadLenOf_lt (w : Word) : payloadLenOf w < 65536 := by
  unfold payloadLenOf
  split
  · exact (imm16Of w).isLt
  · decide

/-- A framed payload is the payload of the command it is presented with: a command without one is presented with none. -/
theorem payload_withPayload_of_framed {i : Instr} {p : List Byte} (hframe : p.length = payloadLenOf (encodeWord i)) :
    (i.withPayload p).payload = p := by
  cases i with
  | load | setcid | setname | setslots => rfl
  | _ =>
    have hlen : p.length = 0 := by simpa [payloadLenOf, isPayloadOpcode, encodeWord] using hframe
    exact (List.length_eq_zero_iff.mp hlen).symm

theorem decode_eq_ok_iff (c : Command) (i : Instr) :
    decode c = .ok i ↔ c.payload.length = payloadLenOf c.word ∧ decodeWord c.word c.payload = .ok i := by
  unfold decode
  split <;> simp [*]

/-- The pair of a decoded command is rebuilt from it: its word by its format, its payload as it was presented. -/
theorem encode_of_decode {c : Command} {i : Instr} (h : decode c = .ok i) : encode i = c := by
  obtain ⟨hframe, hword⟩ := (decode_eq_ok_iff c i).mp h
  obtain ⟨w, p⟩ := c
  obtain rfl : encodeWord i = w := encodeWord_of_decodeWord hframe hword
  have hsame : i.withPayload p = i := Except.ok.inj ((decodeWord_encodeWord i p).symm.trans hword)
  have hpayload : i.payload = p := (congrArg Instr.payload hsame).symm.trans (payload_withPayload_of_framed hframe)
  rw [encode, hpayload]

theorem wellFormed_of_decode {c : Command} {i : Instr} (h : decode c = .ok i) : i.wellFormed = true := by
  obtain ⟨hframe, -⟩ := (decode_eq_ok_iff c i).mp h
  obtain rfl := encode_of_decode h
  exact decide_eq_true (hframe ▸ payloadLenOf_lt _ : i.payload.length < 65536)

/-- Settles O2: the payload is framed and the word is the one its format builds, so the pair is the command's. -/
theorem encodeOfDecode : Obligations.EncodeOfDecode :=
  fun _ _ h => ⟨wellFormed_of_decode h, encode_of_decode h⟩

/-! ### Operands (R62) -/

theorem scalarFields_idOfField (f : FieldId) : Machine.scalarFields[(idOfField f).toNat]? = some f := by
  cases f <;> rfl

/-- Each format carries its operands where R62 says. -/
theorem operandsAre_encode {i : Instr} (h : i.wellFormed = true) :
    Machine.OperandsAre (encodeWord i) i.payload i := by
  have hlen : i.payload.length < 65536 := of_decide_eq_true h
  cases i with
  | init n | setuniv n => simp [Machine.OperandsAre, encodeWord, ← imm16Of_toNat]
  | load p | setcid p | setname p | setslots p =>
    have hmod : p.length = p.length % 65536 := (Nat.mod_eq_of_lt hlen).symm
    simpa [Machine.OperandsAre, encodeWord, Instr.payload, ← imm16Of_toNat] using hmod
  | bufrd a => simp [Machine.OperandsAre, encodeWord, ← addr16Of_toNat]
  | bufwr a b => simp [Machine.OperandsAre, encodeWord, ← addr16Of_toNat, ← imm8Of_toNat]
  | discard b | setprio b | setseq b => simp [Machine.OperandsAre, encodeWord, ← imm8Of_toNat]
  | getfld f => simp [Machine.OperandsAre, encodeWord, ← fidOf_toNat, scalarFields_idOfField]
  | getopt bit => simp [Machine.OperandsAre, encodeWord, ← bitOf_toNat]
  | setopt bit on => simp [Machine.OperandsAre, encodeWord, ← bitOf_toNat, ← onOf_iff]
  | _ => trivial

/-- Settles O60: the pair is the encoding of the command, and the encoding carries the operands. -/
theorem operandsAreFieldsOfTheWord : Obligations.OperandsAreFieldsOfTheWord := by
  intro c i h
  obtain rfl := encode_of_decode h
  exact operandsAre_encode (wellFormed_of_decode h)

/-! ### The rows of the opcode table (R68) -/

theorem legalIf_eq_map {i j : Instr} {f : Instr → Instr} (clear : Bool) (h : f i = j) :
    legalIf clear j = (legalIf clear i).map f := by
  subst h
  cases clear <;> rfl

theorem decodeFieldId_map_withPayload (w : Word) (p : List Byte) :
    (decodeFieldId w).map (Instr.withPayload p) = decodeFieldId w := by
  unfold decodeFieldId
  split
  · exact (legalIf_eq_map _ rfl).symm
  · split <;> rfl

/-- Presenting another payload with a word changes the decoded command in its payload only. -/
theorem decodeWord_payload (w : Word) (p q : List Byte) :
    decodeWord w q = (decodeWord w p).map (Instr.withPayload q) := by
  unfold decodeWord
  split
  case h_11 => exact (decodeFieldId_map_withPayload w q).symm
  case h_6 | h_27 => rfl
  all_goals exact legalIf_eq_map _ rfl

/-- A word whose bits the row fixes are its pattern's, byte by byte. -/
theorem selects_wordOf_iff (name : String) (p3 p2 p1 p0 m3 m2 m1 m0 op b2 b1 b0 : Byte) :
    OpcodeRow.selects ⟨name, wordOf p3 p2 p1 p0, wordOf m3 m2 m1 m0⟩ (wordOf op b2 b1 b0) = true ↔
      op &&& m3 = p3 ∧ b2 &&& m2 = p2 ∧ b1 &&& m1 = p1 ∧ b0 &&& m0 = p0 := by
  rw [OpcodeRow.selects, beq_iff_eq, wordOf_and, wordOf_eq_iff]

@[simp] theorem and_ff (b : Byte) : b &&& 0xFF = b := BitVec.and_allOnes

theorem eq_bit_column : ∀ b : Byte, b &&& 0xF8 = 0 → 0#5 ++ b.extractLsb' 0 3 = b := by decide +kernel

theorem eq_on_column : ∀ b : Byte, b &&& 0xFE = 0 → 0#7 ++ BitVec.ofBool (b.getLsbD 0) = b := by decide +kernel

theorem exists_idOfField_of_le : ∀ fid : BitVec 5, fid.toNat ≤ 16 → ∃ f ∈ Machine.scalarFields, idOfField f = fid := by
  decide

theorem eq_fid_column : ∀ b : Byte, b &&& 0xE0 = 0 → 0#3 ++ b.extractLsb' 0 5 = b := by decide +kernel

/-! A row's mask leaves the operands of its format free, and nothing else (R61). -/

section
variable {w : Word} {name : String} {op : Byte}

theorem eq_wordZ_of_selects (h : OpcodeRow.selects ⟨name, wordZ op, 0xFFFFFFFF⟩ w = true) : wordZ op = w := by
  obtain ⟨o, b2, b1, b0, rfl⟩ := exists_wordOf w
  have hbytes := (selects_wordOf_iff name op 0 0 0 0xFF 0xFF 0xFF 0xFF o b2 b1 b0).mp h
  simp only [and_ff] at hbytes
  obtain ⟨rfl, rfl, rfl, rfl⟩ := hbytes
  rfl

theorem eq_word16_of_selects (h : OpcodeRow.selects ⟨name, wordZ op, 0xFFFF0000⟩ w = true) :
    word16 op (imm16Of w) = w := by
  obtain ⟨o, b2, b1, b0, rfl⟩ := exists_wordOf w
  obtain ⟨ho, h2, -, -⟩ := (selects_wordOf_iff name op 0 0 0 0xFF 0xFF 0 0 o b2 b1 b0).mp h
  rw [and_ff] at ho h2
  subst ho h2
  exact word16_eq_of_clear (by simp) (by simp [i16ReservedClear_wordOf])

theorem eq_word8_of_selects (h : OpcodeRow.selects ⟨name, wordZ op, 0xFFFFFF00⟩ w = true) :
    word8 op (imm8Of w) = w := by
  obtain ⟨o, b2, b1, b0, rfl⟩ := exists_wordOf w
  obtain ⟨ho, h2, h1, -⟩ := (selects_wordOf_iff name op 0 0 0 0xFF 0xFF 0xFF 0 o b2 b1 b0).mp h
  rw [and_ff] at ho h2 h1
  subst ho h2 h1
  rw [imm8Of_wordOf]
  rfl

theorem eq_wordA_of_selects (h : OpcodeRow.selects ⟨name, wordZ op, 0xFF000000⟩ w = true) :
    wordA op (addr16Of w) (imm8Of w) = w := by
  obtain ⟨o, b2, b1, b0, rfl⟩ := exists_wordOf w
  obtain ⟨ho, -, -, -⟩ := (selects_wordOf_iff name op 0 0 0 0xFF 0 0 0 o b2 b1 b0).mp h
  rw [and_ff] at ho
  subst ho
  exact wordA_eq (by simp)

theorem eq_wordA_zero_of_selects (h : OpcodeRow.selects ⟨name, wordZ op, 0xFF0000FF⟩ w = true) :
    wordA op (addr16Of w) 0 = w := by
  obtain ⟨o, b2, b1, b0, rfl⟩ := exists_wordOf w
  obtain ⟨ho, -, -, h0⟩ := (selects_wordOf_iff name op 0 0 0 0xFF 0 0 0xFF o b2 b1 b0).mp h
  rw [and_ff] at ho h0
  subst ho h0
  simpa using wordA_eq (w := wordOf o b2 b1 0) (op := o) (by simp)

theorem eq_wordB_of_selects (h : OpcodeRow.selects ⟨name, wordZ op, 0xFFFFF8FE⟩ w = true) :
    wordB op (bitOf w) (onOf w) = w := by
  obtain ⟨o, b2, b1, b0, rfl⟩ := exists_wordOf w
  obtain ⟨ho, h2, h1, h0⟩ := (selects_wordOf_iff name op 0 0 0 0xFF 0xFF 0xF8 0xFE o b2 b1 b0).mp h
  rw [and_ff] at ho h2
  subst ho h2
  rw [wordB, bitOf_wordOf, onOf_wordOf, eq_bit_column b1 h1, eq_on_column b0 h0]

theorem eq_wordB_off_of_selects (h : OpcodeRow.selects ⟨name, wordZ op, 0xFFFFF8FF⟩ w = true) :
    wordB op (bitOf w) false = w := by
  obtain ⟨o, b2, b1, b0, rfl⟩ := exists_wordOf w
  obtain ⟨ho, h2, h1, h0⟩ := (selects_wordOf_iff name op 0 0 0 0xFF 0xFF 0xF8 0xFF o b2 b1 b0).mp h
  rw [and_ff] at ho h2 h0
  subst ho h2 h0
  rw [wordB, bitOf_wordOf, eq_bit_column b1 h1]
  rfl

theorem eq_wordF_of_selects (h : OpcodeRow.selects ⟨name, wordZ op, 0xFFFFFFE0⟩ w = true) :
    wordF op (fidOf w) = w := by
  obtain ⟨o, b2, b1, b0, rfl⟩ := exists_wordOf w
  obtain ⟨ho, h2, h1, h0⟩ := (selects_wordOf_iff name op 0 0 0 0xFF 0xFF 0xFF 0xE0 o b2 b1 b0).mp h
  rw [and_ff] at ho h2 h1
  subst ho h2 h1
  rw [wordF, fidOf_wordOf, eq_fid_column b0 h0]

/-- The payload of zeros has any length a payload command's word announces. -/
theorem word16_length_of_selects (h : OpcodeRow.selects ⟨name, wordZ op, 0xFFFF0000⟩ w = true) :
    word16 op (BitVec.ofNat 16 (List.replicate (imm16Of w).toNat (0 : Byte)).length) = w := by
  rw [List.length_replicate, BitVec.ofNat_toNat, BitVec.setWidth_eq]
  exact eq_word16_of_selects h

/-- `w` is the word of a command with that mnemonic. -/
def IsWordOf (w : Word) (name : String) : Prop := ∃ i : Instr, i.mnemonic = name ∧ encodeWord i = w

theorem isWordOf_of_selects_low : ∀ r ∈ opcodeTableLow, r.selects w = true → IsWordOf w r.mnemonic := by
  simp only [opcodeTableLow, List.forall_mem_cons]
  exact ⟨fun h => ⟨.init _, rfl, eq_word16_of_selects h⟩,
    fun h => ⟨.load _, rfl, word16_length_of_selects h⟩,
    fun h => ⟨.parse, rfl, eq_wordZ_of_selects h⟩,
    fun h => ⟨.getstate, rfl, eq_wordZ_of_selects h⟩,
    fun h => ⟨.bufrd _, rfl, eq_wordA_zero_of_selects h⟩,
    fun h => ⟨.bufwr _ _, rfl, eq_wordA_of_selects h⟩,
    fun h => ⟨.validate, rfl, eq_wordZ_of_selects h⟩,
    fun h => ⟨.discard _, rfl, eq_word8_of_selects h⟩,
    fun h => ⟨.classify, rfl, eq_wordZ_of_selects h⟩,
    fun h => ⟨.incseq, rfl, eq_wordZ_of_selects h⟩, nofun⟩

theorem isWordOf_of_selects_read : ∀ r ∈ opcodeTableRead, r.selects w = true →
    (r.mnemonic = "GETFLD" → (fidOf w).toNat ≤ 16) → IsWordOf w r.mnemonic := by
  simp only [opcodeTableRead, List.forall_mem_cons]
  refine ⟨fun h hfid => ?getfld,
    fun h _ => ⟨.getcid, rfl, eq_wordZ_of_selects h⟩,
    fun h _ => ⟨.getname, rfl, eq_wordZ_of_selects h⟩,
    fun h _ => ⟨.getprio, rfl, eq_wordZ_of_selects h⟩,
    fun h _ => ⟨.getseq, rfl, eq_wordZ_of_selects h⟩,
    fun h _ => ⟨.getopt _, rfl, eq_wordB_off_of_selects h⟩,
    fun h _ => ⟨.getuniv, rfl, eq_wordZ_of_selects h⟩,
    fun h _ => ⟨.getslots, rfl, eq_wordZ_of_selects h⟩,
    fun h _ => ⟨.getpid, rfl, eq_wordZ_of_selects h⟩, nofun⟩
  case getfld =>
    obtain ⟨f, -, hf⟩ := exists_idOfField_of_le (fidOf w) (hfid trivial)
    exact ⟨.getfld f, rfl, (congrArg (wordF 0x20) hf).trans (eq_wordF_of_selects h)⟩

theorem isWordOf_of_selects_write : ∀ r ∈ opcodeTableWrite, r.selects w = true → IsWordOf w r.mnemonic := by
  simp only [opcodeTableWrite, List.forall_mem_cons]
  exact ⟨fun h => ⟨.setcid _, rfl, word16_length_of_selects h⟩,
    fun h => ⟨.setname _, rfl, word16_length_of_selects h⟩,
    fun h => ⟨.setprio _, rfl, eq_word8_of_selects h⟩,
    fun h => ⟨.setseq _, rfl, eq_word8_of_selects h⟩,
    fun h => ⟨.setopt _ _, rfl, eq_wordB_of_selects h⟩,
    fun h => ⟨.setuniv _, rfl, eq_word16_of_selects h⟩,
    fun h => ⟨.setslots _, rfl, word16_length_of_selects h⟩, nofun⟩

/-- A word that selects a row is the word of a command of that row (R68), of GETFLD where its field id is one (R69). -/
theorem isWordOf_of_selects {r : OpcodeRow} (hr : r ∈ opcodeTable) (hsel : r.selects w = true)
    (hfid : r.mnemonic = "GETFLD" → (fidOf w).toNat ≤ 16) : IsWordOf w r.mnemonic := by
  rcases List.mem_append.mp hr with hr | hwrite
  · rcases List.mem_append.mp hr with hlow | hread
    · exact isWordOf_of_selects_low r hlow hsel
    · exact isWordOf_of_selects_read r hread hsel hfid
  · exact isWordOf_of_selects_write r hwrite hsel

end

/-- Legality does not hang on the payload presented, so a word that decodes does so with a framed one too. -/
theorem exists_framed_decodeWord {w : Word} {p : List Byte} {i : Instr} (h : decodeWord w p = .ok i) :
    ∃ q, q.length = payloadLenOf w ∧ decodeWord w q = .ok (i.withPayload q) :=
  ⟨List.replicate (payloadLenOf w) 0, List.length_replicate, by rw [decodeWord_payload w p, h]; rfl⟩

/-- Settles O3: a word that selects a row is a command's own word, which decodes to it; and a word that decodes, decodes
with a framed payload too, so it is a command's own word and selects its row. -/
theorem legalWordsAreTheTableRows : Obligations.LegalWordsAreTheTableRows := by
  refine fun w p => ⟨fun r hr hsel hfid => ?decodes, fun i h => ?selects⟩
  case decodes =>
    obtain ⟨i, hname, rfl⟩ := isWordOf_of_selects hr hsel hfid
    exact ⟨i.withPayload p, decodeWord_encodeWord i p, (mnemonic_withPayload p i).trans hname⟩
  case selects =>
    obtain ⟨q, hframe, hq⟩ := exists_framed_decodeWord h
    simpa using decodeWord_selects_row hframe hq

/-! ### The worked encodings (R77) -/

/-- A LOAD or SETCID of a payload whose length is the word's `len16` (R64). -/
theorem decode_payload_word {i : Instr} {w : Word} (hwf : i.wellFormed = true) (hword : encodeWord i = w) :
    decode ⟨w, i.payload⟩ = .ok i :=
  hword ▸ decodeOfEncode i hwf

/-- Settles O4: every word is written out, the payloads of LOAD and SETCID apart, of which only the length counts. -/
theorem workedEncodingsDecode : Obligations.WorkedEncodingsDecode := by
  refine ⟨by decide, by decide, by decide, by decide, by decide, fun p hp => ?load, fun p hp => ?setcid, by decide,
    by decide, by decide, by decide, by decide, by decide, by decide, by decide, by decide, by decide, by decide,
    by decide⟩
  case load =>
    exact decode_payload_word (i := .load p) (decide_eq_true (by rw [Instr.payload, hp]; decide))
      (by rw [encodeWord, hp]; rfl)
  case setcid =>
    exact decode_payload_word (i := .setcid p) (decide_eq_true (by rw [Instr.payload, hp]; decide))
      (by rw [encodeWord, hp]; rfl)

end Sys2Proof

namespace Sys2Proof.Machine

/-! ### A step on the pending pair -/

theorem step_of_decode_ok {s : State} {c : Command} {rest : List Command} {i : Instr} (hcmds : s.cmds = c :: rest)
    (hdec : decode c = .ok i) : step s = exec i (s.setCmds rest) := by
  simp only [step, fetch_cons hcmds, hdec]

/-- Settles O5: `step` fetches the pair, decodes it and runs the command. -/
theorem stepRunsTheDecodedCommand : Obligations.StepRunsTheDecodedCommand :=
  fun _ _ _ _ => step_of_decode_ok

theorem decodeTableWord_eq_some_iff (nbits w : Nat) (i : Instr) :
    decodeTableWord nbits w = some i ↔ decode (tableCommand nbits w) = .ok i := by
  unfold decodeTableWord
  cases decode (tableCommand nbits w) <;> simp

/-- Settles O6: the word presented is the first pair on the port, and taking it off leaves the port as it was. -/
theorem presentedWordRunsNext : Obligations.PresentedWordRunsNext :=
  fun _ w i h => step_of_decode_ok rfl ((decodeTableWord_eq_some_iff 32 w i).mp h)

/-- Settles O8: framing is tested first, and the pair is refused. -/
theorem misframedPairIsRefused : Obligations.MisframedPairIsRefused := by
  intro s c rest hcmds hlen
  have hdec : decode c = .error .payloadMismatch := if_neg hlen
  simp only [step, fetch_cons hcmds, hdec, reject]

/-- Settles O9: `fetch` finds nothing, and an idle block keeps its state. -/
theorem idleBlockKeepsAllState : Obligations.IdleBlockKeepsAllState := by
  intro s hcmds
  simp only [step, fetch_nil hcmds, idle]

end Sys2Proof.Machine
end

section
/-! SUPPORT. The invariant of the state (spec/10_state.md sections 3, 4, 6 and 8): reset meets it, every update of the
state keeps it under its own condition, and so does every step; and from a state that meets it every command completes. -/

namespace Sys2Proof.Machine

/-! ### Reset (R36) -/

/-- Where each key is listed once, a key reads as the byte it is listed with. -/
theorem Memory.read_eq_some_iff_mem {m : Memory} (h : m.wf = true) (a : Nat) (b : Byte) :
    m.read a = some b ↔ (a, b) ∈ m := by
  rw [Memory.wf_iff] at h
  induction m with
  | nil => simp
  | cons c m ih =>
    obtain ⟨hc, hm⟩ := List.pairwise_cons.mp h
    rw [Memory.read, List.mem_cons]
    split
    next hkey =>
      subst hkey
      have hlisted : (c.1, b) ∉ m := fun hmem => Nat.lt_irrefl c.1 (hc (c.1, b) hmem)
      simp [hlisted, Prod.ext_iff, eq_comm]
    next hkey =>
      have hother : (a, b) ≠ c := fun e => hkey (congrArg Prod.fst e).symm
      simp [ih hm, hother]

/-- Settles O10: the tracker is the preset, which lists each universe once. -/
theorem resetLeaves : Obligations.ResetLeaves := by
  intro p hp
  obtain ⟨-, -, hpreset, -⟩ := (Params.valid_iff p).mp hp
  exact ⟨rfl, rfl, fun _ => rfl, rfl, fun u v => Memory.read_eq_some_iff_mem hpreset u.toNat v⟩

theorem resetWith_inv {p : Config.Params} (hp : p.valid = true) : (State.resetWith p).Inv := by
  obtain ⟨-, -, hpreset, hkeys⟩ := (Params.valid_iff p).mp hp
  exact ⟨hp, hpreset, hkeys, fun _ => ⟨rfl, rfl⟩, fun h => absurd rfl h, fun h => absurd rfl h⟩

/-- Settles O11: the parameters' own range (R8) is all the invariant asks at reset, and the defaults lie in it. -/
theorem resetMeetsInvariant : Obligations.ResetMeetsInvariant :=
  ⟨fun _ => resetWith_inv, resetWith_inv (by decide)⟩

/-! ### What the updates of the state keep -/

theorem State.Inv.setBuf {s : State} (h : s.Inv) (hp : s.pstate ≠ .uninit) {m : Memory}
    (hm : m.map Prod.fst = List.range s.len.toNat) : (s.setBuf m).Inv :=
  { h with noPacket := fun hu => absurd hu hp, packetBytes := fun _ => hm }

theorem State.Inv.setTrk {s : State} (h : s.Inv) (u : BitVec 16) (v : Byte) : (s.setTrk u v).Inv :=
  { h with
    trkCanonical := Memory.wf_write h.trkCanonical u.toNat v
    trkKeys := fun c hc => by
      rcases Memory.mem_write hc with rfl | hc
      · exact u.isLt
      · exact h.trkKeys c hc }

theorem State.Inv.setRegs {s : State} (h : s.Inv) (f : FieldRegs) : (s.setRegs f).Inv :=
  { h with
    noPacket := by simpa using h.noPacket
    packetLen := by simpa using h.packetLen
    packetBytes := by simpa using h.packetBytes }

/-- A new packet of `n` bytes, 126 to BUF_CAP of them. -/
theorem State.Inv.newPacket {s : State} (h : s.Inv) {l : Lifecycle} {n : Nat} {m : Memory} (hl : l ≠ .uninit)
    (hmin : 126 ≤ n) (hmax : n ≤ s.cfg.bufCap) (hm : m.map Prod.fst = List.range n) :
    (s.newPacket l (BitVec.ofNat 16 n) m).Inv := by
  obtain ⟨⟨-, hcap⟩, -⟩ := (Params.valid_iff s.cfg).mp h.cfgValid
  have hlen : (BitVec.ofNat 16 n).toNat = n := toNat_ofNat_of_lt (by omega)
  have hp : (s.newPacket l (BitVec.ofNat 16 n) m).pstate ≠ .uninit := by
    cases l with
    | uninit => exact absurd rfl hl
    | initialized | parsed => nofun
  exact { h with
    noPacket := fun hu => absurd hu hp
    packetLen := fun _ => by simpa [hlen] using ⟨hmin, hmax⟩
    packetBytes := fun _ => by simpa [hlen] using hm }

/-! ### Every step keeps it -/

theorem exec_inv {i : Instr} {s t : State} (hinv : s.Inv) (h : exec i s = .next t) : t.Inv := by
  obtain ⟨⟨hcap, -⟩, -⟩ := (Params.valid_iff s.cfg).mp hinv.cfgValid
  cases exec_effect h with
  | response r _ _ result => exact result ▸ hinv.setResp r
  | build n f _ legal _ result =>
    obtain ⟨-, hmax⟩ := (slotCountLegal_iff n).mp legal
    exact result ▸ (hinv.newPacket (l := .initialized f) nofun (by omega) (by omega) (keys_builtBuffer n.toNat _)).setResp _
  | take p f _ long fits _ result =>
    have hkeys : (Memory.ofBytes 0 p).map Prod.fst = List.range p.length := by
      rw [Memory.keys_ofBytes, List.range_eq_range']
    exact result ▸ (hinv.newPacket (l := .parsed f) nofun long fits hkeys).setResp _
  | reparse f g _ _ _ result => exact result ▸ (hinv.setRegs g).setResp _
  | poke a b _ packet below result =>
    exact result ▸ (hinv.setBuf packet (Memory.keys_range_write (hinv.packetBytes packet) below b)).setResp _
  | track f _ _ _ _ result => exact result ▸ (hinv.setTrk _ _).setResp _
  | edit l f g m v _ before _ keys _ _ _ result =>
    have hp := State.pstate_of_fieldRegs before
    have hm := keys (hinv.packetLen hp).1 (hinv.packetBytes hp)
    exact result ▸ ((hinv.setBuf hp hm).setRegs g).setResp _

/-- What holds of a state and is kept by an illegal word and by the pending command, holds after a step. -/
theorem of_step {Q : State → Prop} {s t : State} (hstep : step s = .next t) (hidle : Q s)
    (hillegal : ∀ rest r, Q ((s.setCmds rest).setResp r))
    (hcommand : ∀ c rest i, s.cmds = c :: rest → decode c = .ok i → exec i (s.setCmds rest) = .next t → Q t) : Q t := by
  rcases (step_eq_next_iff s t).mp hstep with ⟨-, rfl⟩ | ⟨c, rest, hcmds, ⟨e, -, -, rfl⟩ | ⟨i, hdec, hexec⟩⟩
  · exact hidle
  · exact hillegal rest _
  · exact hcommand c rest i hcmds hdec hexec

/-- Settles O12: an illegal word touches the port alone, and every command keeps the invariant. -/
theorem stepKeepsInvariant : Obligations.StepKeepsInvariant := fun _ _ hinv hstep =>
  of_step hstep hinv (fun rest r => (hinv.setCmds rest).setResp r)
    fun _ rest _ _ _ hexec => exec_inv (hinv.setCmds rest) hexec

/-- Settles O20: an illegal word touches the port alone, and no command writes the parameters. -/
theorem parametersNeverChange : Obligations.ParametersNeverChange := fun s _ hstep =>
  of_step (Q := fun u => u.cfg = s.cfg) hstep rfl (fun _ _ => rfl)
    fun _ rest _ _ _ hexec => (exec_cfg hexec).trans (State.setCmds_cfg rest s)

/-! ### Every command completes -/

/-- The result is a next state. -/
def Completes (r : Result) : Prop := ∃ t, r = .next t

/-! One rule for each operation a meaning is written from. -/

theorem Completes.respond {st : Status} {v : BitVec 32} {d : List Byte} {s : State} : Completes (respond st v d s) :=
  ⟨_, rfl⟩

theorem Completes.ite {c : Prop} [Decidable c] {a b : Result} (ha : c → Completes a) (hb : ¬ c → Completes b) :
    Completes (if c then a else b) := by
  split
  next hc => exact ha hc
  next hc => exact hb hc

theorem Completes.orUnwritten {α : Type} {o : Option α} {k : α → Result} (ho : ∃ x, o = some x)
    (h : ∀ x, Completes (k x)) : Completes (orUnwritten o k) := by
  obtain ⟨x, rfl⟩ := ho
  exact h x

theorem Completes.withRegs {s : State} {k : FieldRegs → Result} (h : s.pstate ≠ .uninit → ∀ f, Completes (k f)) :
    Completes (withRegs s k) := by
  by_cases hp : s.pstate = .uninit
  · rw [withRegs_uninit hp]
    exact .respond
  · obtain ⟨f, hf⟩ := State.exists_fieldRegs hp
    rw [withRegs_some hf]
    exact h hp f

theorem State.Inv.exec_completes {s : State} (hinv : s.Inv) (i : Instr) : Completes (exec i s) := by
  have hmin (hp : s.pstate ≠ .uninit) := (hinv.packetLen hp).1
  have hwrite (hp : s.pstate ≠ .uninit) {a : Nat} (ha : a < 126) (b : Byte) :
      ∃ g, parseFrame (s.buf.write a b) = some g :=
    hinv.parseFrame_write hp (Nat.lt_of_lt_of_le ha (hmin hp)) b
  cases i with
  | getstate => exact .respond
  | init n => exact .ite (fun _ => .orUnwritten ⟨_, parseAll_builtBuffer _ _⟩ fun _ => .respond) fun _ => .respond
  | load p =>
    exact .ite (fun _ => .respond) fun hlong => .ite (fun _ => .respond) fun _ =>
      .orUnwritten (parseAll_ofBytes (Nat.not_lt.mp hlong)) fun _ => .respond
  | parse =>
    exact .withRegs fun hp _ =>
      .orUnwritten (parseAll_of_keys (hmin hp) (hinv.packetBytes hp)) fun _ => .respond
  | bufrd a =>
    exact .withRegs fun hp _ => .ite (fun _ => .respond) fun hbelow => .orUnwritten
      (Option.isSome_iff_exists.mp ((hinv.read_isSome_iff hp _).mpr (Nat.not_le.mp hbelow))) fun _ => .respond
  | bufwr a b => exact .withRegs fun _ _ => .ite (fun _ => .respond) fun _ => .respond
  | validate | discard | getfld | getcid | getname | getprio | getseq | getopt | getuniv | getpid =>
    exact .withRegs fun _ _ => .respond
  | classify =>
    refine .withRegs fun _ _ => .ite (fun _ => .respond) fun _ => ?_
    split <;> exact .respond
  | getslots => exact .withRegs fun hp _ => .orUnwritten (hinv.exists_slots hp) fun _ => .respond
  | incseq | setprio | setseq | setopt =>
    exact .withRegs fun hp _ => .orUnwritten (hwrite hp (by decide) _) fun _ => .respond
  | setcid p =>
    exact .withRegs fun hp _ => .ite (fun _ => .respond) fun hlen => .orUnwritten
      (parseRoot_of_keys (hmin hp) (hinv.keys_writeBytes hp (by have := hmin hp; omega))) fun _ => .respond
  | setname p =>
    exact .withRegs fun hp _ => .orUnwritten (parseFrame_of_keys (hmin hp)
      (hinv.keys_writeBytes hp (by have := hmin hp; rw [paddedName_length]; omega))) fun _ => .respond
  | setuniv u =>
    exact .withRegs fun hp _ => .ite (fun _ => .orUnwritten (parseFrame_of_keys (hmin hp)
      (Memory.keys_range_write16 (hinv.packetBytes hp) (by have := hmin hp; omega) u)) fun _ => .respond)
      fun _ => .respond
  | setslots p =>
    refine .withRegs fun hp f => .orUnwritten (parseDmp_of_keys (hmin hp) (hinv.keys_writeBytes hp ?fits))
      fun _ => .respond
    case fits =>
      have hcount := slotCopyCount_le p.length f.dmp.pvc s.len
      have := hmin hp
      rw [List.length_take]
      omega

/-- Settles O13: a framed pair decodes, or is an illegal word and answered so; and a decoded command completes. -/
theorem everyCommandIsAnswered : Obligations.EveryCommandIsAnswered := by
  intro s hinv hframed
  cases hcmds : s.cmds with
  | nil => exact ⟨s, idleBlockKeepsAllState s hcmds, fun h => absurd rfl h⟩
  | cons c rest =>
    cases hdec : decode c with
    | error e =>
      have he : e ≠ .payloadMismatch := by
        rintro rfl
        rw [decode_of_framed (hframed c rest hcmds)] at hdec
        exact decodeWord_ne_payloadMismatch _ _ hdec
      exact ⟨_, (step_eq_next_iff s _).mpr (.inr ⟨c, rest, hcmds, .inl ⟨e, hdec, he, rfl⟩⟩), fun _ => ⟨rfl, rfl⟩⟩
    | ok i =>
      obtain ⟨t, ht⟩ := (hinv.setCmds rest).exec_completes i
      obtain ⟨r, hr⟩ := exec_resp ht
      exact ⟨t, (step_of_decode_ok hcmds hdec).trans ht, fun _ => ⟨by rw [hr]; rfl, exec_cmds ht⟩⟩

end Sys2Proof.Machine
end

section
/-! SUPPORT. Registers and the buffer (spec/10_state.md R28, spec/70_reset_and_hazards.md R166), layer by layer: what a
layer's registers are parsed from, and which commands leave them equal to it. -/

namespace Sys2Proof.Machine

/-! ### One layer at a time -/

/-- A layer is current when its registers are what the parser loads from the buffer. -/
theorem layerCurrent_iff (s : State) (l : Layer) :
    s.LayerCurrent l ↔ ∀ f, s.fieldRegs = some f → layerParsed s.buf f l := by
  cases l <;> rfl

theorem current_iff (s : State) : s.Current ↔ ∀ l, s.LayerCurrent l := by
  constructor
  · rintro ⟨hroot, hframe, hdmp⟩ (_ | _ | _)
    · exact hroot
    · exact hframe
    · exact hdmp
  · intro h
    exact ⟨h .root, h .frame, h .dmp⟩

theorem parseAll_eq_some_iff_layers (m : Memory) (f : FieldRegs) :
    parseAll m = some f ↔ ∀ l, layerParsed m f l := by
  rw [parseAll_eq_some_iff]
  constructor
  · rintro ⟨hroot, hframe, hdmp⟩ (_ | _ | _)
    · exact hroot
    · exact hframe
    · exact hdmp
  · intro h
    exact ⟨h .root, h .frame, h .dmp⟩

/-- The parser of a layer reads the layer's bytes below 125 and nothing else (R42, R84). -/
theorem layerParsed_congr {m m' : Memory} {f : FieldRegs} {l : Layer}
    (h : ∀ x, layerAt x = l → x ≤ 124 → m.read x = m'.read x) : layerParsed m f l ↔ layerParsed m' f l := by
  cases l with
  | root => rw [layerParsed, layerParsed, parseRoot_congr fun a ha => h a (layerAt_root ha) (by omega)]
  | frame =>
    rw [layerParsed, layerParsed, parseFrame_congr fun a ha ha' => h a (layerAt_frame ha ha') (by omega)]
  | dmp => rw [layerParsed, layerParsed, parseDmp_congr fun a ha ha' => h a (layerAt_dmp ha) ha']

theorem layerParsed_of_sameLayer {m : Memory} {f g : FieldRegs} {l : Layer} (h : sameLayer f g l) :
    layerParsed m f l ↔ layerParsed m g l := by
  cases l <;> exact iff_of_eq (congrArg (fun r => _ = some r) h)

section
variable {s : State} {f : FieldRegs}

theorem layerCurrent_of_fieldRegs (hf : s.fieldRegs = some f) (l : Layer) :
    s.LayerCurrent l ↔ layerParsed s.buf f l := by
  rw [layerCurrent_iff]
  exact ⟨fun h => h f hf, fun h g hg => Option.some.inj (hf.symm.trans hg) ▸ h⟩

/-- A state whose registers are those the whole parse loads is current. -/
theorem current_of_parseAll (hf : s.fieldRegs = some f) (hparse : parseAll s.buf = some f) : s.Current :=
  (current_iff s).mpr fun l =>
    (layerCurrent_of_fieldRegs hf l).mpr ((parseAll_eq_some_iff_layers s.buf f).mp hparse l)

end

theorem newPacket_current {s : State} {l : Lifecycle} {n : BitVec 16} {m : Memory} {f : FieldRegs} (r : Response)
    (hf : (s.newPacket l n m).fieldRegs = some f) (hparse : parseAll m = some f) :
    ((s.newPacket l n m).setResp r).Current :=
  current_of_parseAll hf hparse

theorem setRegs_current {s : State} {f g : FieldRegs} (r : Response) (hf : s.fieldRegs = some f)
    (hparse : parseAll s.buf = some g) : ((s.setRegs g).setResp r).Current :=
  current_of_parseAll (State.setRegs_fieldRegs hf g) hparse

/-! ### Every command but BUFWR keeps the registers current (R28) -/

theorem exec_current {i : Instr} {s t : State} (hcur : s.Current) (hi : ∀ a b, i ≠ .bufwr a b)
    (h : exec i s = .next t) : t.Current := by
  cases exec_effect h with
  | response r _ _ result => exact result ▸ hcur
  | build n f _ _ regs result => exact result ▸ newPacket_current (l := .initialized f) _ rfl regs
  | take p f _ _ _ regs result => exact result ▸ newPacket_current (l := .parsed f) _ rfl regs
  | reparse f g _ before regs result => exact result ▸ setRegs_current _ before regs
  | poke a b command _ _ _ => exact absurd command (hi a b)
  | track f _ _ _ _ result => exact result ▸ hcur
  | edit l f g m v _ before outside _ parsed others _ result =>
    subst result
    have hg : (((s.setBuf m).setRegs g).setResp ⟨.ok, v, []⟩).fieldRegs = some g := State.setRegs_fieldRegs before g
    refine (current_iff _).mpr fun l' => (layerCurrent_of_fieldRegs hg l').mpr ?_
    by_cases hl : l' = l
    · exact hl ▸ parsed
    · have hold : layerParsed s.buf f l' := (layerCurrent_of_fieldRegs before l').mp ((current_iff s).mp hcur l')
      rw [← layerParsed_of_sameLayer (others l' hl)]
      exact (layerParsed_congr fun x hx _ => outside x (hx ▸ hl)).mpr hold

/-- Settles O25: an illegal word leaves registers and buffer alone, and the pending command is no BUFWR. -/
theorem onlyBufwrMakesRegistersStale : Obligations.OnlyBufwrMakesRegistersStale := fun _ _ hcur hno hstep =>
  of_step hstep hcur (fun _ _ => hcur) fun c rest _ hcmds hdec hexec =>
    exec_current (s := State.setCmds rest _) hcur (fun a b hi => hno c rest a b hcmds (hi ▸ hdec)) hexec

/-- Settles O26: the byte written is outside the bytes the layer's parser reads, and no register changes. -/
theorem bufwrStalesOneLayerAtMost : Obligations.BufwrStalesOneLayerAtMost := by
  intro s t a b l h haway hcur
  rcases (execBufwr_eq_next_iff a b s t).mp h with ⟨_, rfl⟩ | ⟨_, _, rfl⟩ | ⟨_, _, rfl⟩
  · exact (layerCurrent_iff _ l).mpr ((layerCurrent_iff s l).mp hcur)
  · exact (layerCurrent_iff _ l).mpr ((layerCurrent_iff s l).mp hcur)
  · refine (layerCurrent_iff _ l).mpr fun f hf => ?_
    have hsame : ∀ x, layerAt x = l → x ≤ 124 → (s.buf.write a.toNat b).read x = s.buf.read x := fun x hx hx' =>
      Memory.read_write_other s.buf b (by
        rintro rfl
        rcases haway with hl | hhigh
        · exact hl hx.symm
        · omega)
    exact (layerParsed_congr hsame).mpr ((layerCurrent_iff s l).mp hcur f hf)

/-- Settles O23: the parser runs last in each of the three commands. -/
theorem registersCurrentAfterParse : Obligations.RegistersCurrentAfterParse := by
  rintro i s t r (⟨n, rfl⟩ | ⟨p, rfl⟩ | rfl) h hr hok
  · rcases (execInit_eq_next_iff n s t).mp h with ⟨_, result⟩ | ⟨_, f, hf, rfl⟩
    · cases (status_of_eq_setResp result hr).symm.trans hok
    · exact newPacket_current (l := .initialized f) _ rfl hf
  · rcases (execLoad_eq_next_iff p s t).mp h with ⟨_, result⟩ | ⟨_, _, result⟩ | ⟨_, _, f, hf, rfl⟩
    · cases (status_of_eq_setResp result hr).symm.trans hok
    · cases (status_of_eq_setResp result hr).symm.trans hok
    · exact newPacket_current (l := .parsed f) _ rfl hf
  · rcases (execParse_eq_next_iff s t).mp h with ⟨_, result⟩ | ⟨f, g, hf, hg, rfl⟩
    · cases (status_of_eq_setResp result hr).symm.trans hok
    · exact setRegs_current _ hf hg

/-! ### Edits (R130) -/

/-- An edit is neither a reader nor CLASSIFY. -/
theorem not_reader_of_editLayer {i : Instr} {l : Layer} (h : editLayer i = some l) :
    ¬ (writesNothing i = true ∨ i = .classify) := by
  cases i <;> simp [editLayer, writesNothing] at h ⊢

/-- Settles O24: of the effects a command can have, a mutator or INCSEQ has an edit's or an error's. -/
theorem editsRederiveTheirLayerOnly : Obligations.EditsRederiveTheirLayerOnly := by
  intro i l s t f hi hf h
  cases exec_effect h with
  | response r status kind result =>
    have hfail : r.status ≠ .ok := fun hok => not_reader_of_editLayer hi ((kind hok).imp id And.left)
    obtain ⟨hvalue, hdata⟩ := status hfail
    exact .inr ⟨r.status, hfail, by rw [result, ← hvalue, ← hdata]⟩
  | edit l' f' g m v command before _ _ parsed others value result =>
    subst result
    obtain rfl : l' = l := Option.some.inj (command.symm.trans hi)
    obtain rfl : f' = f := Option.some.inj (before.symm.trans hf)
    have hg : (((s.setBuf m).setRegs g).setResp ⟨.ok, v, []⟩).fieldRegs = some g := State.setRegs_fieldRegs before g
    exact .inl ⟨g, _, hg, (layerCurrent_of_fieldRegs hg l').mpr parsed, others, State.setRegs_pstate g _, rfl, rfl,
      rfl, rfl, rfl, value⟩
  | build _ _ command | take _ _ command | reparse _ _ command | poke _ _ command | track _ command =>
    rw [command] at hi
    cases hi

end Sys2Proof.Machine
end

section
/-! SUPPORT. Who writes what (spec/10_state.md sections 3 and 6, spec/42_sequence.md): LEN is written by INIT and LOAD, the
tracker by an accepting CLASSIFY; and what an entry of the tracker is, over a step and over a CLASSIFY. -/

namespace Sys2Proof.Machine

/-! ### LEN (R23) -/

/-- Settles O18: of all effects only a built and a received packet write LEN, and both lengths fit its 16 bits. -/
theorem lenWrittenOnlyByInitAndLoad : Obligations.LenWrittenOnlyByInitAndLoad := by
  intro i s t hcfg h hchanged
  obtain ⟨⟨-, hcap⟩, -⟩ := (Params.valid_iff s.cfg).mp hcfg
  cases exec_effect h with
  | build n f command legal _ result =>
    obtain ⟨hlo, hhi⟩ := (slotCountLegal_iff n).mp legal
    have hlen : t.len.toNat = 126 + n.toNat := by
      rw [result]
      exact toNat_ofNat_of_lt (by omega)
    exact .inl ⟨n, command, hlen, by omega, by omega⟩
  | take p f command long fits _ result =>
    have hlen : t.len.toNat = p.length := by
      rw [result]
      exact toNat_ofNat_of_lt (by omega)
    exact .inr ⟨p, command, hlen, long, fits⟩
  | response | reparse | poke | track | edit =>
    rename_i result
    exact absurd (congrArg State.len result) hchanged

/-! ### The tracker (R30, R113) -/

theorem trkAt_setTrk (s : State) (u x : BitVec 16) (v : Byte) :
    (s.setTrk u v).trkAt x = if x = u then some v else s.trkAt x := by
  simp only [State.trkAt, State.setTrk_trk, Memory.read_write, BitVec.toNat_inj]

@[simp] theorem trkAt_setTrk_same (s : State) (u : BitVec 16) (v : Byte) : (s.setTrk u v).trkAt u = some v := by
  simp [trkAt_setTrk]

theorem trkAt_setTrk_other (s : State) {u x : BitVec 16} (v : Byte) (h : x ≠ u) :
    (s.setTrk u v).trkAt x = s.trkAt x := by
  simp [trkAt_setTrk, h]

/-- The only way the tracker can move: a CLASSIFY that answers ACCEPTED, which stores SEQ as the entry of the packet's
universe. -/
theorem exec_trk_eq_or {i : Instr} {s t : State} (h : exec i s = .next t) :
    t.trk = s.trk ∨ i = .classify ∧ t.resp = some ⟨.ok, 0, []⟩ ∧
      ∃ f, s.fieldRegs = some f ∧ t.trk = (s.setTrk f.frame.univ f.frame.seq).trk := by
  cases exec_effect h with
  | track f command before _ _ result =>
    exact .inr ⟨command, congrArg State.resp result, f, before, by rw [result, State.setResp_trk]⟩
  | response | build | take | reparse | poke | edit =>
    rename_i result
    exact .inl (by simp [result])

theorem trkAt_of_trk_eq {s t : State} (h : t.trk = s.trk) (u : BitVec 16) : t.trkAt u = s.trkAt u :=
  congrArg (Memory.read · u.toNat) h

/-- Settles O19: an entry that differs is the one the accepted packet's universe has. -/
theorem trackerWrittenOnlyOnAccept : Obligations.TrackerWrittenOnlyOnAccept := by
  intro i s t h
  rcases exec_trk_eq_or h with hsame | ⟨hi, hresp, f, hf, htrk⟩
  · exact ⟨fun _ => hsame, fun u hu => absurd (trkAt_of_trk_eq hsame u) hu⟩
  · refine ⟨fun hne => absurd hi hne, fun u hu => ?_⟩
    rw [trkAt_of_trk_eq htrk] at hu ⊢
    obtain rfl : u = f.frame.univ := by
      by_contra hother
      exact hu (trkAt_setTrk_other s _ hother)
    exact ⟨hi, hresp, f, hf, rfl, trkAt_setTrk_same s _ _⟩

theorem exec_keeps_entry {i : Instr} {s t : State} {u : BitVec 16} {v : Byte} (h : exec i s = .next t)
    (hv : s.trkAt u = some v) : ∃ v', t.trkAt u = some v' := by
  rcases exec_trk_eq_or h with hsame | ⟨-, -, f, -, htrk⟩
  · exact ⟨v, (trkAt_of_trk_eq hsame u).trans hv⟩
  · rw [trkAt_of_trk_eq htrk, trkAt_setTrk]
    split
    · exact ⟨_, rfl⟩
    · exact ⟨v, hv⟩

/-- CLASSIFY answers ACCEPTED exactly when it moves the entry of the packet's universe. -/
theorem exec_classify_tracker {s t : State} {f : FieldRegs} (hf : s.fieldRegs = some f)
    (h : exec .classify s = .next t) :
    (t.resp = some ⟨.ok, 0, []⟩ ∧ t.trk = (s.setTrk f.frame.univ f.frame.seq).trk) ∨
      (t.resp ≠ some ⟨.ok, 0, []⟩ ∧ t.trk = s.trk) := by
  cases exec_effect h with
  | response r _ kind result =>
    subst result
    refine .inr ⟨fun haccepted => ?_, rfl⟩
    obtain rfl : r = ⟨.ok, 0, []⟩ := Option.some.inj haccepted
    rcases kind rfl with hreader | ⟨-, hne⟩
    · cases hreader
    · exact hne rfl
  | track f' _ before _ _ result =>
    obtain rfl : f' = f := Option.some.inj (before.symm.trans hf)
    exact .inl ⟨congrArg State.resp result, by rw [result, State.setResp_trk]⟩
  | build _ _ command | take _ _ command | reparse _ _ command | poke _ _ command | edit _ _ _ _ _ command =>
    cases command

/-- The answer of CLASSIFY as a function of the registers and of the one entry it looks at (R113). -/
def classifyAnswer (entry : Option Byte) (f : FieldRegs) : Response :=
  if validation f ≠ .none then ⟨.ok, classifyValue .invalid (validation f), []⟩
  else ⟨.ok, classifyValue (sequenceClass entry f.frame.seq) .none, []⟩

theorem answer_classify {s : State} {f : FieldRegs} (hf : s.fieldRegs = some f) :
    answer (exec .classify s) = some (classifyAnswer (s.trkAt f.frame.univ) f) := by
  rw [exec, execClassify, withRegs_some hf, classifyAnswer]
  split
  · rfl
  · cases sequenceClass (s.trkAt f.frame.univ) f.frame.seq <;> rfl

/-- Settles O42: no effect removes an entry; CLASSIFY moves one entry or none; and it looks at one entry. -/
theorem trackerLaws : Obligations.TrackerLaws := by
  refine ⟨fun s t u v hstep hv => ?kept, fun s t f hf h => ?moved, fun s f u v hf hu => ?seen⟩
  case kept =>
    exact of_step (Q := fun t => ∃ v', t.trkAt u = some v') hstep ⟨v, hv⟩ (fun _ _ => ⟨v, hv⟩)
      fun _ rest _ _ _ hexec => exec_keeps_entry (s := s.setCmds rest) hexec hv
  case moved =>
    rcases exec_classify_tracker hf h with ⟨hresp, htrk⟩ | ⟨hresp, htrk⟩
    · refine .inl ⟨hresp, ?_, fun u hu => ?_⟩
      · rw [trkAt_of_trk_eq htrk, trkAt_setTrk_same]
      · rw [trkAt_of_trk_eq htrk, trkAt_setTrk_other s _ hu]
    · exact .inr ⟨hresp, trkAt_of_trk_eq htrk⟩
  case seen =>
    rw [answer_classify (s := s.setTrk u v) hf, answer_classify hf, trkAt_setTrk_other s v hu.symm]

end Sys2Proof.Machine
end

section
/-! SUPPORT. What a command can depend on (spec/10_state.md R20, R26, R28; spec/70_reset_and_hazards.md R166): never on the
port, and for its answer only on the layers of registers it is said to read. Both compare two runs of one command, so the
comparison has one rule for each operation a meaning is written from. -/

namespace Sys2Proof.Machine

/-! ### Two results compared -/

/-- The two results end alike, and two next states are related by `R`. -/
inductive Related (R : State → State → Prop) : Result → Result → Prop where
  | next {t t' : State} (h : R t t') : Related R (.next t) (.next t')
  | fault (e : Fault) : Related R (.fault e) (.fault e)
  | refused (e : Refusal) : Related R (.refused e) (.refused e)

section
variable {R : State → State → Prop} {s s' : State}

theorem Related.respond {st st' : Status} {v v' : BitVec 32} {d d' : List Byte}
    (h : R (s.setResp ⟨st, v, d⟩) (s'.setResp ⟨st', v', d'⟩)) : Related R (respond st v d s) (respond st' v' d' s') :=
  .next h

theorem Related.ite {c : Prop} [Decidable c] {a b a' b' : Result} (ha : Related R a a') (hb : Related R b b') :
    Related R (if c then a else b) (if c then a' else b') := by
  split
  · exact ha
  · exact hb

theorem Related.orUnwritten {α : Type} {o o' : Option α} {k k' : α → Result} (ho : o = o')
    (h : ∀ x, Related R (k x) (k' x)) : Related R (orUnwritten o k) (orUnwritten o' k') := by
  subst ho
  cases o with
  | none => exact .fault _
  | some x => exact h x

theorem Related.withRegs {k k' : FieldRegs → Result} (hp : s'.pstate = s.pstate)
    (herr : R (s.setResp ⟨.errState, 0, []⟩) (s'.setResp ⟨.errState, 0, []⟩))
    (h : ∀ f f', s.fieldRegs = some f → s'.fieldRegs = some f' → Related R (k f) (k' f')) :
    Related R (withRegs s k) (withRegs s' k') := by
  by_cases hu : s.pstate = .uninit
  · rw [withRegs_uninit hu, withRegs_uninit (hp.trans hu)]
    exact .next herr
  · obtain ⟨f, hf⟩ := State.exists_fieldRegs hu
    obtain ⟨f', hf'⟩ := State.exists_fieldRegs (hp ▸ hu)
    rw [withRegs_some hf, withRegs_some hf']
    exact h f f' hf hf'

end

/-! ### The port (R20) -/

/-- A command overwrites the last response and never looks at it. -/
theorem exec_setResp (i : Instr) (s : State) (r : Response) : exec i (s.setResp r) = exec i s := by
  cases i <;> rfl

/-- Two states that differ in the pending commands, which are `cs` in the second. -/
def DifferInCmds (cs : List Command) (s s' : State) : Prop := s' = s.setCmds cs

section
variable {s : State} {cs : List Command}

theorem related_withRegs_setCmds {k k' : FieldRegs → Result} (h : ∀ f, Related (DifferInCmds cs) (k f) (k' f)) :
    Related (DifferInCmds cs) (withRegs s k) (withRegs (s.setCmds cs) k') :=
  .withRegs rfl rfl fun f _ hf hf' => Option.some.inj (hf.symm.trans hf') ▸ h f

theorem related_newPacket_setCmds (st : Status) (v : BitVec 32) (d : List Byte) (l : Lifecycle) (n : BitVec 16)
    (m : Memory) : Related (DifferInCmds cs) (respond st v d (s.newPacket l n m))
      (respond st v d ((s.setCmds cs).newPacket l n m)) :=
  Related.respond rfl

/-- The commands by the shape of their meaning. -/
theorem exec_setCmds_related (i : Instr) : Related (DifferInCmds cs) (exec i s) (exec i (s.setCmds cs)) := by
  cases i with
  | getstate => exact .respond rfl
  | init => exact .ite (.orUnwritten rfl fun _ => related_newPacket_setCmds ..) (.respond rfl)
  | load => exact .ite (.respond rfl) (.ite (.respond rfl) (.orUnwritten rfl fun _ => related_newPacket_setCmds ..))
  | validate | discard | getfld | getcid | getname | getprio | getseq | getopt | getuniv | getpid =>
    exact related_withRegs_setCmds fun _ => .respond rfl
  | parse | getslots | incseq | setname | setprio | setseq | setopt | setslots =>
    exact related_withRegs_setCmds fun _ => .orUnwritten rfl fun _ => .respond rfl
  | bufrd | setcid =>
    exact related_withRegs_setCmds fun _ => .ite (.respond rfl) (.orUnwritten rfl fun _ => .respond rfl)
  | setuniv =>
    exact related_withRegs_setCmds fun _ => .ite (.orUnwritten rfl fun _ => .respond rfl) (.respond rfl)
  | bufwr => exact related_withRegs_setCmds fun _ => .ite (.respond rfl) (.respond rfl)
  | classify =>
    refine related_withRegs_setCmds fun f => .ite (.respond rfl) ?_
    rw [State.setCmds_trkAt]
    cases sequenceClass (s.trkAt f.frame.univ) f.frame.seq <;> exact .respond rfl

end

theorem exec_setCmds {i : Instr} {s t : State} (h : exec i s = .next t) (cs : List Command) :
    exec i (s.setCmds cs) = .next (t.setCmds cs) := by
  have hrel := exec_setCmds_related (s := s) (cs := cs) i
  generalize exec i (s.setCmds cs) = r at hrel ⊢
  rw [h] at hrel
  cases hrel with
  | next ht => exact congrArg Host.Outcome.next ht

/-- Settles O21: a command commutes with any exchange of the port's two sides. -/
theorem commandsNeverReadThePort : Obligations.CommandsNeverReadThePort :=
  fun i s r cs => ⟨exec_setResp i s r, fun _ h => ⟨exec_cmds h, exec_setCmds h cs⟩⟩

/-- Settles O36: such a command has no other effect than a response, and none sees the response it left. -/
theorem readersChangeOnlyTheResponse : Obligations.ReadersChangeOnlyTheResponse := by
  intro i s t hi h
  cases exec_effect h with
  | response r _ _ result =>
    subst result
    exact ⟨⟨rfl, rfl, rfl, fun _ => rfl, fun _ => rfl, rfl⟩, rfl, (exec_setResp i s r).trans h⟩
  | build _ _ command | take _ _ command | reparse _ _ command | poke _ _ command | track _ command =>
    rw [command] at hi
    cases hi
  | edit _ _ _ _ _ command => exact absurd (.inl hi) (not_reader_of_editLayer command)

/-! ### The registers an answer depends on (R26) -/

/-- Two states with the same response. -/
def SameResponse (s s' : State) : Prop := s.resp = s'.resp

theorem answer_eq_of_related {r r' : Result} (h : Related SameResponse r r') : answer r = answer r' := by
  cases h with
  | next h => exact h
  | fault | refused => rfl

theorem fieldValue_of_sameLayer {f g : FieldRegs} (fid : FieldId) (h : sameLayer f g (fieldLayer fid)) :
    fieldValue f fid = fieldValue g fid := by
  cases fid <;> simp_all [sameLayer, fieldLayer, fieldValue]

theorem fieldRegs_ext {f g : FieldRegs} (hroot : f.root = g.root) (hframe : f.frame = g.frame)
    (hdmp : f.dmp = g.dmp) : f = g := by
  cases f
  cases g
  simp_all

section
variable {s : State} {f g : FieldRegs}

theorem related_withRegs_setRegs {k k' : FieldRegs → Result} (h : Related SameResponse (k f) (k' g)) :
    Related SameResponse (withRegs (s.setRegs f) k) (withRegs (s.setRegs g) k') := by
  refine .withRegs (by simp) rfl fun f' g' hf' hg' => ?_
  have hp : s.pstate ≠ .uninit := by simpa using State.pstate_of_fieldRegs hf'
  obtain ⟨r, hr⟩ := State.exists_fieldRegs hp
  obtain rfl : f = f' := Option.some.inj ((State.setRegs_fieldRegs hr f).symm.trans hf')
  obtain rfl : g = g' := Option.some.inj ((State.setRegs_fieldRegs hr g).symm.trans hg')
  exact h

/-- The commands by the shape of their meaning and by what they take from the registers. -/
theorem exec_setRegs_related {i : Instr} (h : ∀ l ∈ layersRead i, sameLayer f g l) :
    Related SameResponse (exec i (s.setRegs f)) (exec i (s.setRegs g)) := by
  cases i with
  | getstate => exact Related.respond (by simp [SameResponse])
  | init => exact .ite (.orUnwritten rfl fun _ => .respond rfl) (.respond rfl)
  | load => exact .ite (.respond rfl) (.ite (.respond rfl) (.orUnwritten rfl fun _ => .respond rfl))
  | parse | getslots | setname | setprio | setseq =>
    exact related_withRegs_setRegs (.orUnwritten rfl fun _ => .respond rfl)
  | bufrd | setcid =>
    exact related_withRegs_setRegs (.ite (.respond rfl) (.orUnwritten rfl fun _ => .respond rfl))
  | setuniv => exact related_withRegs_setRegs (.ite (.orUnwritten rfl fun _ => .respond rfl) (.respond rfl))
  | bufwr => exact related_withRegs_setRegs (.ite (.respond rfl) (.respond rfl))
  | getfld fid =>
    have hvalue := fieldValue_of_sameLayer fid (h _ (List.mem_singleton.mpr rfl))
    exact related_withRegs_setRegs (.respond (by simp [SameResponse, hvalue]))
  | getcid | getpid =>
    have hroot : f.root = g.root := h .root (List.mem_singleton.mpr rfl)
    exact related_withRegs_setRegs (.respond (by simp [SameResponse, hroot]))
  | discard | getname | getprio | getseq | getopt | getuniv =>
    have hframe : f.frame = g.frame := h .frame (List.mem_singleton.mpr rfl)
    exact related_withRegs_setRegs (.respond (by simp [SameResponse, hframe]))
  | incseq | setopt =>
    have hframe : f.frame = g.frame := h .frame (List.mem_singleton.mpr rfl)
    exact related_withRegs_setRegs (.orUnwritten (by simp [hframe]) fun _ => .respond (by simp [SameResponse, hframe]))
  | setslots =>
    have hdmp : f.dmp = g.dmp := h .dmp (List.mem_singleton.mpr rfl)
    exact related_withRegs_setRegs (.orUnwritten (by simp [hdmp]) fun _ => .respond rfl)
  | validate =>
    obtain rfl : f = g := fieldRegs_ext (h .root (by decide)) (h .frame (by decide)) (h .dmp (by decide))
    exact related_withRegs_setRegs (.respond rfl)
  | classify =>
    obtain rfl : f = g := fieldRegs_ext (h .root (by decide)) (h .frame (by decide)) (h .dmp (by decide))
    refine related_withRegs_setRegs (.ite (.respond rfl) ?_)
    cases sequenceClass ((s.setRegs f).trkAt f.frame.univ) f.frame.seq <;> exact .respond rfl

end

/-- Settles O22: run on the two register files, the command takes the same values from the layers it reads. -/
theorem answersSeeOnlyTheLayersRead : Obligations.AnswersSeeOnlyTheLayersRead :=
  fun _ _ _ _ h => answer_eq_of_related (exec_setRegs_related h)

/-! ### Stale registers (R28, R166) -/

/-- Such a command never looks at the buffer. -/
theorem answer_exec_setBuf {i : Instr} (hi : answersFromRegisters i = true) (s : State) (m : Memory) :
    answer (exec i (s.setBuf m)) = answer (exec i s) := by
  have hregs {k k' : FieldRegs → Result} (h : ∀ f, Related SameResponse (k f) (k' f)) :
      answer (withRegs (s.setBuf m) k) = answer (withRegs s k') :=
    answer_eq_of_related (.withRegs rfl rfl fun f f' hf hf' => Option.some.inj (hf.symm.trans hf') ▸ h f)
  cases i with
  | getstate => rfl
  | classify =>
    refine hregs fun f => .ite (.respond rfl) ?_
    rw [State.setBuf_trkAt]
    cases sequenceClass (s.trkAt f.frame.univ) f.frame.seq <;> exact .respond rfl
  | validate | discard | getfld | getcid | getname | getprio | getseq | getopt | getuniv | getpid =>
    exact hregs fun _ => .respond rfl
  | _ => cases hi

/-- Settles O27: what a BUFWR leaves differs in the buffer and the response alone. -/
theorem staleRegistersAfterBufwr : Obligations.StaleRegistersAfterBufwr := by
  intro s t a b i h hi
  rcases (execBufwr_eq_next_iff a b s t).mp h with ⟨_, rfl⟩ | ⟨_, _, rfl⟩ | ⟨_, _, rfl⟩
  · rw [exec_setResp]
  · rw [exec_setResp]
  · rw [exec_setResp, answer_exec_setBuf hi]

end Sys2Proof.Machine
end

section
/-! SUPPORT. The statuses a command may answer (spec/60_exceptions.md sections 1, 2 and 4), said once over all commands;
and that the commands of the receive path answer none but OK. -/

namespace Sys2Proof.Machine

/-! ### Which status in which situation (R141 to R144) -/

/-- The condition under which command `i` may answer the status in state `s`. -/
def StatusAllowed (i : Instr) (s : State) : Status → Prop
  | .ok => True
  | .errIllegal => False
  | .errState => s.pstate = .uninit ∧ needsNoPacket i = false
  | .errSlotCount => ∃ n, i = .init n ∧ (n.toNat = 0 ∨ 513 ≤ n.toNat)
  | .errSize => ∃ p, i = .load p ∧ p.length ≤ 125
  | .errCap => ∃ p, i = .load p ∧ s.cfg.bufCap < p.length
  | .errRange => s.pstate ≠ .uninit ∧ ∃ u, i = .setuniv u ∧ (u.toNat = 0 ∨ 64000 ≤ u.toNat)
  | .errAddr => s.pstate ≠ .uninit ∧ ∃ a : BitVec 16, (i = .bufrd a ∨ ∃ b, i = .bufwr a b) ∧ s.len.toNat ≤ a.toNat
  | .errLen => s.pstate ≠ .uninit ∧ ∃ p, i = .setcid p ∧ p.length ≠ 16

/-- The result's answer, if it has one, has a status that satisfies `P`. -/
def AnswersWithin (P : Status → Prop) (r : Result) : Prop := ∀ q, answer r = some q → P q.status

/-! One rule for each operation a meaning is written from. -/

section
variable {P : Status → Prop}

theorem AnswersWithin.respond {st : Status} (h : P st) {v : BitVec 32} {d : List Byte} {s : State} :
    AnswersWithin P (respond st v d s) := by
  intro q hq
  obtain rfl := Option.some.inj hq
  exact h

theorem AnswersWithin.ite {c : Prop} [Decidable c] {a b : Result} (ha : c → AnswersWithin P a)
    (hb : ¬ c → AnswersWithin P b) : AnswersWithin P (if c then a else b) := by
  split
  next hc => exact ha hc
  next hc => exact hb hc

theorem AnswersWithin.orUnwritten {α : Type} {o : Option α} {k : α → Result} (h : ∀ x, AnswersWithin P (k x)) :
    AnswersWithin P (orUnwritten o k) := by
  cases o with
  | none => nofun
  | some x => exact h x

theorem AnswersWithin.withRegs {s : State} {k : FieldRegs → Result} (hu : s.pstate = .uninit → P .errState)
    (h : s.pstate ≠ .uninit → ∀ f, AnswersWithin P (k f)) : AnswersWithin P (withRegs s k) := by
  by_cases hp : s.pstate = .uninit
  · rw [withRegs_uninit hp]
    exact .respond (hu hp)
  · obtain ⟨f, hf⟩ := State.exists_fieldRegs hp
    rw [withRegs_some hf]
    exact h hp f

end

/-- The commands by the shape of their meaning: each test with the status it guards. -/
theorem exec_answersWithin (i : Instr) (s : State) : AnswersWithin (StatusAllowed i s) (exec i s) := by
  cases i with
  | getstate => exact .respond trivial
  | init n =>
    refine .ite (fun _ => .orUnwritten fun _ => .respond trivial) fun hn => .respond ⟨n, rfl, ?_⟩
    rw [slotCountLegal_iff] at hn
    omega
  | load p =>
    exact .ite (fun hshort => .respond ⟨p, rfl, by omega⟩) fun _ =>
      .ite (fun hlong => .respond ⟨p, rfl, hlong⟩) fun _ => .orUnwritten fun _ => .respond trivial
  | validate | discard | getfld | getcid | getname | getprio | getseq | getopt | getuniv | getpid =>
    exact .withRegs (fun hu => ⟨hu, rfl⟩) fun _ _ => .respond trivial
  | parse | getslots | incseq | setname | setprio | setseq | setopt | setslots =>
    exact .withRegs (fun hu => ⟨hu, rfl⟩) fun _ _ => .orUnwritten fun _ => .respond trivial
  | bufrd a =>
    exact .withRegs (fun hu => ⟨hu, rfl⟩) fun hp _ =>
      .ite (fun hbeyond => .respond ⟨hp, a, .inl rfl, hbeyond⟩) fun _ => .orUnwritten fun _ => .respond trivial
  | bufwr a b =>
    exact .withRegs (fun hu => ⟨hu, rfl⟩) fun hp _ =>
      .ite (fun hbeyond => .respond ⟨hp, a, .inr ⟨b, rfl⟩, hbeyond⟩) fun _ => .respond trivial
  | setcid p =>
    exact .withRegs (fun hu => ⟨hu, rfl⟩) fun hp _ =>
      .ite (fun hlen => .respond ⟨hp, p, rfl, hlen⟩) fun _ => .orUnwritten fun _ => .respond trivial
  | setuniv u =>
    refine .withRegs (fun hu => ⟨hu, rfl⟩) fun hp _ =>
      .ite (fun _ => .orUnwritten fun _ => .respond trivial) fun hrange => .respond ⟨hp, u, rfl, ?_⟩
    rw [universeLegal_iff] at hrange
    omega
  | classify =>
    refine .withRegs (fun hu => ⟨hu, rfl⟩) fun _ _ => .ite (fun _ => .respond trivial) fun _ => ?_
    split <;> exact .respond trivial

theorem exec_statusAllowed {i : Instr} {s t : State} {r : Response} (h : exec i s = .next t) (hr : t.resp = some r) :
    StatusAllowed i s r.status :=
  exec_answersWithin i s r (by rw [h]; exact hr)

theorem Status.code_toNat_le (st : Status) : st.code.toNat ≤ 8 := by
  cases st <;> decide

/-- Settles O16: the condition of the status answered, status by status. -/
theorem errorsOnlyOnTheirConditions : Obligations.ErrorsOnlyOnTheirConditions := by
  intro i s t r h hr
  have hallowed := exec_statusAllowed h hr
  refine ⟨rfl, rfl, r.status.code_toNat_le, fun hst => ?_, fun hst => ?_, fun hst => ?_, fun hst => ?_, fun hst => ?_,
    fun hst => ?_, fun hst => ?_, fun hst => ?_⟩ <;> rw [hst] at hallowed
  · exact hallowed
  all_goals exact ⟨by rw [hst]; rfl, hallowed⟩

/-! ### The receive path (R140) -/

/-- With a packet in place the commands of the receive path have no error status left. -/
theorem status_ok_of_receivePath {i : Instr} {s : State} {st : Status} (hp : s.pstate ≠ .uninit)
    (hi : i = .parse ∨ i = .validate ∨ (∃ l, i = .discard l) ∨ i = .classify ∨ isFieldReader i = true)
    (h : StatusAllowed i s st) : st = .ok := by
  cases st with
  | ok => rfl
  | errIllegal => exact h.elim
  | errState => exact absurd h.1 hp
  | errSlotCount | errSize | errCap =>
    obtain ⟨_, rfl, _⟩ := h
    simp [isFieldReader] at hi
  | errRange | errLen =>
    obtain ⟨_, _, rfl, _⟩ := h
    simp [isFieldReader] at hi
  | errAddr =>
    obtain ⟨_, _, rfl | ⟨_, rfl⟩, _⟩ := h <;> simp [isFieldReader] at hi

/-- Settles O57: LOAD leaves a packet and a state that meets the invariant, from which the next command completes. -/
theorem receivedDataNeverFails : Obligations.ReceivedDataNeverFails := by
  intro s p i hinv hmin hmax hi
  obtain ⟨-, -, htaken⟩ := loadStoresTheDatagram s p hinv.cfgValid
  obtain ⟨t, f, hload, hresp, hlife, -⟩ := htaken hmin hmax
  have hp : t.pstate ≠ .uninit := by rw [State.pstate, hlife]; nofun
  obtain ⟨u, hu⟩ := (exec_inv hinv hload).exec_completes i
  obtain ⟨q, hq⟩ := exec_resp hu
  exact ⟨t, _, q, hload, hresp, rfl, by rw [hu]; exact hq, status_ok_of_receivePath hp hi (exec_statusAllowed hu hq)⟩

end Sys2Proof.Machine
end

section
/-! SUPPORT. Numbers of the block: the big-endian value of a string of bytes (spec/20_memory.md R40), the discard window
(spec/42_sequence.md R112), and the sequence number over a run of INCSEQ (R116). -/

namespace Sys2Proof.Machine

/-! ### Big-endian integers (R40) -/

theorem append_eq_iff_toNat {n m : Nat} (x : BitVec n) (y : BitVec m) (v : BitVec (n + m)) :
    x ++ y = v ↔ v.toNat = x.toNat * 2 ^ m + y.toNat := by
  have hvalue : (x ++ y).toNat = x.toNat * 2 ^ m + y.toNat := by
    rw [BitVec.toNat_append, ← Nat.shiftLeft_add_eq_or_of_lt y.isLt, Nat.shiftLeft_eq]
  rw [← hvalue, ← BitVec.toNat_inj, eq_comm]

theorem Memory.read16_eq_some_iff_toNat (m : Memory) (a : Nat) (v : BitVec 16) :
    m.read16 a = some v ↔
      ∃ b1 b0, m.read a = some b1 ∧ m.read (a + 1) = some b0 ∧ v.toNat = b1.toNat * 256 + b0.toNat := by
  simp only [Memory.read16]
  cases m.read a <;> cases m.read (a + 1) <;> simp [append_eq_iff_toNat (n := 8) (m := 8)]

theorem Memory.read32_eq_some_iff_toNat (m : Memory) (a : Nat) (v : BitVec 32) :
    m.read32 a = some v ↔
      ∃ h1 h0, m.read16 a = some h1 ∧ m.read16 (a + 2) = some h0 ∧ v.toNat = h1.toNat * 65536 + h0.toNat := by
  simp only [Memory.read32]
  cases m.read16 a <;> cases m.read16 (a + 2) <;> simp [append_eq_iff_toNat (n := 16) (m := 16)]

/-- Settles O28: a 32-bit access is two 16-bit accesses, and a 16-bit access two bytes. -/
theorem bufferIntegersAreBigEndian : Obligations.BufferIntegersAreBigEndian := by
  refine fun m a => ⟨m.read16_eq_some_iff_toNat a, fun v => ?read32,
    fun v => ⟨m.read16_write16_same a v, fun x hx => ?frame16⟩,
    fun v => ⟨m.read32_write32_same a v, fun x hx => ?frame32⟩⟩
  case read32 =>
    rw [m.read32_eq_some_iff_toNat a]
    constructor
    · rintro ⟨h1, h0, hhigh, hlow, hv⟩
      obtain ⟨b3, b2, hb3, hb2, hh1⟩ := (m.read16_eq_some_iff_toNat a h1).mp hhigh
      obtain ⟨b1, b0, hb1, hb0, hh0⟩ := (m.read16_eq_some_iff_toNat (a + 2) h0).mp hlow
      exact ⟨b3, b2, b1, b0, hb3, hb2, hb1, hb0, by rw [hv, hh1, hh0]; ring⟩
    · rintro ⟨b3, b2, b1, b0, hb3, hb2, hb1, hb0, hv⟩
      have hhigh := (append_eq_iff_toNat (n := 8) (m := 8) b3 b2 _).mp rfl
      have hlow := (append_eq_iff_toNat (n := 8) (m := 8) b1 b0 _).mp rfl
      exact ⟨b3 ++ b2, b1 ++ b0, (m.read16_eq_some_iff_toNat a _).mpr ⟨b3, b2, hb3, hb2, hhigh⟩,
        (m.read16_eq_some_iff_toNat (a + 2) _).mpr ⟨b1, b0, hb1, hb0, hlow⟩, by rw [hv, hhigh, hlow]; ring⟩
  case frame16 => rw [Memory.read_write16, if_neg (by omega), if_neg (by omega)]
  case frame32 =>
    rw [Memory.read_write32, if_neg (by omega), if_neg (by omega), if_neg (by omega), if_neg (by omega)]

/-! ### The discard window (R112, R115) -/

/-- Settles O39: the window is an interval of the integers, and the successor lies above it, or below it at the wrap. -/
theorem discardWindowDoesNotWrap : Obligations.DiscardWindowDoesNotWrap := by
  refine fun l => ⟨fun s => ?window, ?successor⟩
  case window =>
    rw [shouldDiscard_iff]
    omega
  case successor =>
    have hl := l.isLt
    rw [Bool.eq_false_iff, ne_eq, shouldDiscard_iff, nextSequence_toNat]
    omega

/-! ### INCSEQ in a row (R116) -/

theorem execAll_cons_of_next {i : Instr} {is : List Instr} {s t : State} (h : exec i s = .next t) :
    execAll (i :: is) s = execAll is t := by
  rw [execAll, h]
  rfl

/-- Settles O44, by induction on the number of commands: each adds one modulo 256 and keeps the invariant. -/
theorem incseqRunsThroughAllValues : Obligations.IncseqRunsThroughAllValues := by
  intro s f hinv hf k
  induction k generalizing s f with
  | zero =>
    have hseq := f.frame.seq.isLt
    exact ⟨s, f, rfl, hf, by omega⟩
  | succ k ih =>
    obtain ⟨t, g, n, hrun, hn, -, -, -, hregs, -, hseq⟩ := incseqStoresTheSuccessor.2 s f hinv hf
    obtain ⟨u, g', hruns, hregs', hseq'⟩ := ih t _ (exec_inv hinv hrun) hregs
    refine ⟨u, g', (execAll_cons_of_next hrun).trans hruns, hregs', ?_⟩
    have hnext : g.seq.toNat = (f.frame.seq.toNat + 1) % 256 := by rw [hseq, hn]
    simp only [hnext] at hseq'
    omega

end Sys2Proof.Machine
end

section
/-! SUPPORT. The built packet (spec/10_state.md R38): what each edit leaves of it, runs of edits, and the round trip through
INIT, SETSLOTS, LOAD and GETSLOTS. -/

namespace Sys2Proof.Machine

/-! ### What an edit leaves of the Framing Layer's registers (R84) -/

section
variable {m m' : Memory} {g g' : FrameRegs} (hg : parseFrame m = some g) (hg' : parseFrame m' = some g')
include hg hg'

/-- FFLEN, FVEC and RSVD are read from bytes 38 to 43, 109 and 110. -/
theorem frame_constants_eq (h : ∀ x, x < 44 ∨ x = 109 ∨ x = 110 → m.read x = m'.read x) :
    g.fflen = g'.fflen ∧ g.fvec = g'.fvec ∧ g.rsvd = g'.rsvd := by
  obtain ⟨hfflen, hfvec, -, -, hrsvd, -⟩ := (parseFrame_eq_some_iff m g).mp hg
  obtain ⟨hfflen', hfvec', -, -, hrsvd', -⟩ := (parseFrame_eq_some_iff m' g').mp hg'
  have h38 := Memory.read16_congr (h 38 (by decide)) (h 39 (by decide))
  have h40 : m.read32 40 = m'.read32 40 := Memory.read32_congr fun i hi => h (40 + i) (by omega)
  have h109 := Memory.read16_congr (h 109 (by decide)) (h 110 (by decide))
  exact ⟨Option.some.inj (hfflen.symm.trans (h38.trans hfflen')), Option.some.inj (hfvec.symm.trans (h40.trans hfvec')),
    Option.some.inj (hrsvd.symm.trans (h109.trans hrsvd'))⟩

/-- UNIV is read from bytes 113 and 114. -/
theorem frame_univ_eq (h : ∀ x, 113 ≤ x → m.read x = m'.read x) : g.univ = g'.univ := by
  obtain ⟨-, -, -, -, -, -, -, huniv⟩ := (parseFrame_eq_some_iff m g).mp hg
  obtain ⟨-, -, -, -, -, -, -, huniv'⟩ := (parseFrame_eq_some_iff m' g').mp hg'
  have h113 := Memory.read16_congr (h 113 (by decide)) (h 114 (by decide))
  exact Option.some.inj (huniv.symm.trans (h113.trans huniv'))

end

/-- All but CID are read from bytes 0 to 21. -/
theorem root_constants_eq {m m' : Memory} {g g' : RootRegs} (hg : parseRoot m = some g) (hg' : parseRoot m' = some g')
    (h : ∀ x, x < 22 → m.read x = m'.read x) :
    g.pre = g'.pre ∧ g.post = g'.post ∧ g.pid = g'.pid ∧ g.rflen = g'.rflen ∧ g.rvec = g'.rvec := by
  obtain ⟨hpre, hpost, hpid, hrflen, hrvec, -⟩ := (parseRoot_eq_some_iff m g).mp hg
  obtain ⟨hpre', hpost', hpid', hrflen', hrvec', -⟩ := (parseRoot_eq_some_iff m' g').mp hg'
  have h0 := Memory.read16_congr (h 0 (by decide)) (h 1 (by decide))
  have h2 := Memory.read16_congr (h 2 (by decide)) (h 3 (by decide))
  have h4 : m.readVec 4 12 = m'.readVec 4 12 := Memory.readVec_congr 12 fun i hi => h (4 + i) (by omega)
  have h16 := Memory.read16_congr (h 16 (by decide)) (h 17 (by decide))
  have h18 : m.read32 18 = m'.read32 18 := Memory.read32_congr fun i hi => h (18 + i) (by omega)
  exact ⟨Option.some.inj (hpre.symm.trans (h0.trans hpre')), Option.some.inj (hpost.symm.trans (h2.trans hpost')),
    Option.some.inj (hpid.symm.trans (h4.trans hpid')), Option.some.inj (hrflen.symm.trans (h16.trans hrflen')),
    Option.some.inj (hrvec.symm.trans (h18.trans hrvec'))⟩

/-! ### What keeps a packet built (R38) -/

section
variable {s t : State} {n : Nat} {f : FieldRegs}

theorem State.Built.fieldRegs (h : s.Built n f) : s.fieldRegs = some f := by
  rw [State.fieldRegs, h.life]

/-- A built packet is its lifecycle state, its length and its buffer. -/
theorem State.Built.of_eq (h : s.Built n f) (hlife : t.life = s.life) (hlen : t.len = s.len) (hbuf : t.buf = s.buf) :
    t.Built n f :=
  { h with life := hlife.trans h.life, len := hlen ▸ h.len, current := hbuf ▸ h.current }

section
variable {m : Memory} (h : s.Built n f) (r : Response)
include h

theorem State.Built.setRegs_life (g : FieldRegs) : (((s.setBuf m).setRegs g).setResp r).life = .initialized g := by
  simp [h.life, Lifecycle.withRegs]

/-- An edit of the Framing Layer that leaves FFLEN, FVEC and RSVD alone and a legal universe in UNIV. -/
theorem State.Built.editFrame {g : FrameRegs} (hg : parseFrame m = some g)
    (hkeep : ∀ x, x < 44 ∨ x = 109 ∨ x = 110 ∨ 115 ≤ x → m.read x = s.buf.read x)
    (huniv : 1 ≤ g.univ.toNat ∧ g.univ.toNat ≤ 63999) :
    (((s.setBuf m).setRegs { f with frame := g }).setResp r).Built n { f with frame := g } := by
  obtain ⟨hroot, hframe, hdmp⟩ := (parseAll_eq_some_iff _ f).mp h.current
  obtain ⟨hfflen, hfvec, hrsvd⟩ := frame_constants_eq hg hframe fun x hx => hkeep x (by omega)
  have hroot' : parseRoot m = some f.root := (parseRoot_congr fun x hx => hkeep x (by omega)).trans hroot
  have hdmp' : parseDmp m = some f.dmp := (parseDmp_congr fun x hx _ => hkeep x (by omega)).trans hdmp
  exact { h with
    life := h.setRegs_life r _
    fflen := hfflen ▸ h.fflen
    fvec := hfvec.trans h.fvec
    rsvd := hrsvd.trans h.rsvd
    univ := huniv
    current := (parseAll_eq_some_iff m _).mpr ⟨hroot', hg, hdmp'⟩
    valid := (validation_eq_none_iff _).mpr
      ⟨⟨h.pid, h.rvec⟩, hfvec.trans h.fvec, h.dvec, h.dtype, h.faddr, h.ainc⟩ }

/-- An edit of the Framing Layer below byte 113. -/
theorem State.Built.editFrame_below {g : FrameRegs} (hg : parseFrame m = some g)
    (hkeep : ∀ x, x < 44 ∨ x = 109 ∨ x = 110 ∨ 113 ≤ x → m.read x = s.buf.read x) :
    (((s.setBuf m).setRegs { f with frame := g }).setResp r).Built n { f with frame := g } := by
  obtain ⟨-, hframe, -⟩ := (parseAll_eq_some_iff _ f).mp h.current
  have huniv := frame_univ_eq hg hframe fun x hx => hkeep x (by omega)
  exact h.editFrame r hg (fun x hx => hkeep x (by omega)) (huniv ▸ h.univ)

/-- An edit of CID. -/
theorem State.Built.editRoot {g : RootRegs} (hg : parseRoot m = some g)
    (hkeep : ∀ x, x < 22 ∨ 38 ≤ x → m.read x = s.buf.read x) :
    (((s.setBuf m).setRegs { f with root := g }).setResp r).Built n { f with root := g } := by
  obtain ⟨hroot, hframe, hdmp⟩ := (parseAll_eq_some_iff _ f).mp h.current
  obtain ⟨hpre, hpost, hpid, hrflen, hrvec⟩ := root_constants_eq hg hroot fun x hx => hkeep x (.inl hx)
  have hframe' : parseFrame m = some f.frame := (parseFrame_congr fun x hx _ => hkeep x (.inr hx)).trans hframe
  have hdmp' : parseDmp m = some f.dmp := (parseDmp_congr fun x hx _ => hkeep x (by omega)).trans hdmp
  exact { h with
    life := h.setRegs_life r _
    pre := hpre.trans h.pre
    post := hpost.trans h.post
    pid := hpid.trans h.pid
    rflen := hrflen ▸ h.rflen
    rvec := hrvec.trans h.rvec
    current := (parseAll_eq_some_iff m _).mpr ⟨hg, hframe', hdmp'⟩
    valid := (validation_eq_none_iff _).mpr
      ⟨⟨hpid.trans h.pid, hrvec.trans h.rvec⟩, h.fvec, h.dvec, h.dtype, h.faddr, h.ainc⟩ }

/-- An edit of the slots: the registers are parsed from bytes below them. -/
theorem State.Built.editSlots {g : DmpRegs} (hg : parseDmp m = some g)
    (hkeep : ∀ x, x < 126 → m.read x = s.buf.read x) :
    (((s.setBuf m).setRegs { f with dmp := g }).setResp r).Built n { f with dmp := g } := by
  obtain ⟨hroot, hframe, hdmp⟩ := (parseAll_eq_some_iff _ f).mp h.current
  have hroot' : parseRoot m = some f.root := (parseRoot_congr fun x hx => hkeep x (by omega)).trans hroot
  have hframe' : parseFrame m = some f.frame := (parseFrame_congr fun x _ hx => hkeep x (by omega)).trans hframe
  have hdmp' : parseDmp m = some f.dmp := (parseDmp_congr fun x _ hx => hkeep x (by omega)).trans hdmp
  obtain rfl : f.dmp = g := Option.some.inj (hdmp'.symm.trans hg)
  exact { h with
    life := h.setRegs_life r _
    current := (parseAll_eq_some_iff m _).mpr ⟨hroot', hframe', hg⟩ }

end

/-! A re-derived layer leaves the packet built when the bytes written before it are as above. -/

section
variable {m : Memory} (h : s.Built n f)
include h

theorem State.Built.rederiveFrame {v : BitVec 32} (hrun : Machine.rederiveFrame f v (s.setBuf m) = .next t)
    (hkeep : ∀ x, x < 44 ∨ x = 109 ∨ x = 110 ∨ 113 ≤ x → m.read x = s.buf.read x) : ∃ g, t.Built n g := by
  obtain ⟨g, hg, rfl⟩ := (rederiveFrame_eq_next_iff f v _ t).mp hrun
  exact ⟨_, h.editFrame_below _ hg hkeep⟩

/-- One of the bytes PRIO, SEQ and OPTS. -/
theorem State.Built.rederiveFrame_byte {v : BitVec 32} {a : Nat} {b : Byte} (ha : a = 108 ∨ a = 111 ∨ a = 112)
    (hrun : Machine.rederiveFrame f v (s.setBuf (s.buf.write a b)) = .next t) : ∃ g, t.Built n g :=
  h.rederiveFrame hrun fun _ _ => Memory.read_write_other s.buf b (by omega)

theorem State.Built.rederiveFrame_univ {u : BitVec 16} (hlegal : universeLegal u = true)
    (hrun : Machine.rederiveFrame f 0 (s.setBuf (s.buf.write16 113 u)) = .next t) : ∃ g, t.Built n g := by
  obtain ⟨g, hg, rfl⟩ := (rederiveFrame_eq_next_iff f 0 _ t).mp hrun
  obtain ⟨-, -, -, -, -, -, -, huniv⟩ := (parseFrame_eq_some_iff _ g).mp hg
  obtain rfl : u = g.univ := Option.some.inj ((Memory.read16_write16_same s.buf 113 u).symm.trans huniv)
  exact ⟨_, h.editFrame _ hg (fun x hx => by rw [Memory.read_write16, if_neg (by omega), if_neg (by omega)])
    ((universeLegal_iff _).mp hlegal)⟩

theorem State.Built.rederiveRoot (hrun : Machine.rederiveRoot f (s.setBuf m) = .next t)
    (hkeep : ∀ x, x < 22 ∨ 38 ≤ x → m.read x = s.buf.read x) : ∃ g, t.Built n g := by
  obtain ⟨g, hg, rfl⟩ := (rederiveRoot_eq_next_iff f _ t).mp hrun
  exact ⟨_, h.editRoot _ hg hkeep⟩

theorem State.Built.rederiveDmp (hrun : Machine.rederiveDmp f (s.setBuf m) = .next t)
    (hkeep : ∀ x, x < 126 → m.read x = s.buf.read x) : ∃ g, t.Built n g := by
  obtain ⟨g, hg, rfl⟩ := (rederiveDmp_eq_next_iff f _ t).mp hrun
  exact ⟨_, h.editSlots _ hg hkeep⟩

theorem State.Built.raise {e : Status} (hrun : Machine.raise e s = .next t) : ∃ g, t.Built n g := by
  obtain rfl := (raise_eq_next_iff e s t).mp hrun
  exact ⟨f, h.of_eq rfl rfl rfl⟩

end

/-- A mutator or INCSEQ keeps a built packet built. -/
theorem exec_edit_built {i : Instr} (hb : s.Built n f) (hi : (editLayer i).isSome = true) (h : exec i s = .next t) :
    ∃ g, t.Built n g := by
  have hf := hb.fieldRegs
  cases i with
  | incseq | setprio | setseq | setopt =>
    exact hb.rederiveFrame_byte (by decide) ((withRegs_some hf _).symm.trans h)
  | setname p =>
    exact hb.rederiveFrame ((withRegs_some hf _).symm.trans h) fun x hx =>
      Memory.read_writeBytes_outside s.buf _ (by rw [paddedName_length]; omega)
  | setuniv u =>
    rw [exec, execSetuniv, withRegs_some hf] at h
    split at h
    next hlegal => exact hb.rederiveFrame_univ hlegal h
    next => exact hb.raise h
  | setcid p =>
    rw [exec, execSetcid, withRegs_some hf] at h
    split at h
    next => exact hb.raise h
    next hlen => exact hb.rederiveRoot h fun x hx => Memory.read_writeBytes_outside s.buf p (by omega)
  | setslots p =>
    exact hb.rederiveDmp ((withRegs_some hf _).symm.trans h) fun x hx =>
      Memory.read_writeBytes_outside s.buf _ (.inl hx)
  | _ => cases hi

theorem exec_built {i : Instr} (hb : s.Built n f) (hinit : ∀ k, i ≠ .init k) (hload : ∀ p, i ≠ .load p)
    (hbufwr : ∀ a b, i ≠ .bufwr a b) (h : exec i s = .next t) : ∃ g, t.Built n g := by
  cases exec_effect h with
  | response r _ _ result => exact ⟨f, result ▸ hb.of_eq rfl rfl rfl⟩
  | track f' _ _ _ _ result => exact ⟨f, result ▸ hb.of_eq rfl rfl rfl⟩
  | reparse f' g _ _ regs result =>
    obtain rfl : f = g := Option.some.inj (hb.current.symm.trans regs)
    rw [State.setRegs_self hb.fieldRegs] at result
    exact ⟨f, result ▸ hb.of_eq rfl rfl rfl⟩
  | build k _ command => exact absurd command (hinit k)
  | take p _ command => exact absurd command (hload p)
  | poke a b command => exact absurd command (hbufwr a b)
  | edit l _ _ _ _ command => exact exec_edit_built hb (by rw [command]; rfl) h

end

/-- Settles O54: a command that edits nothing leaves packet and registers as they are, or parses them again. -/
theorem builtPacketStaysBuilt : Obligations.BuiltPacketStaysBuilt :=
  fun _ _ _ _ _ hb hinit hload hbufwr h => exec_built hb hinit hload hbufwr h

/-! ### Runs of edits (R38) -/

theorem execAll_edits_built {s : State} {n : Nat} {f : FieldRegs} {is : List Instr} (hinv : s.Inv) (hb : s.Built n f)
    (hedits : ∀ i ∈ is, (editLayer i).isSome = true) : ∃ t g, execAll is s = .next t ∧ t.Built n g := by
  induction is generalizing s f with
  | nil => exact ⟨s, f, rfl, hb⟩
  | cons i is ih =>
    obtain ⟨hi, his⟩ := List.forall_mem_cons.mp hedits
    obtain ⟨u, hu⟩ := hinv.exec_completes i
    obtain ⟨g, hg⟩ := exec_edit_built hb hi hu
    obtain ⟨t, g', hrun, hb'⟩ := ih (exec_inv hinv hu) hg his
    exact ⟨t, g', (execAll_cons_of_next hu).trans hrun, hb'⟩

theorem answer_validate_of_valid {s : State} {f : FieldRegs} (hf : s.fieldRegs = some f) (hv : validation f = .none) :
    answer (exec .validate s) = some ⟨.ok, 0, []⟩ := by
  rw [exec_validate_of_fieldRegs hf, hv]
  rfl

/-- Settles O55: INIT builds the packet, each edit keeps it built, and a built packet is valid. -/
theorem builtAndEditedPacketsValidate : Obligations.BuiltAndEditedPacketsValidate := by
  intro s n is hinv hlo hhi hedits
  obtain ⟨u, f, hinit, -, hb, -⟩ := initBuildsThePacket.1 s n hinv.cfgValid hlo hhi
  obtain ⟨t, g, hrun, hb'⟩ := execAll_edits_built (exec_inv hinv hinit) hb hedits
  exact ⟨t, g, (andThen_eq_next_iff _ _ t).mpr ⟨u, hinit, hrun⟩, hb', answer_validate_of_valid hb'.fieldRegs hb'.valid⟩

/-! ### The round trip -/

theorem parseAll_congr {m m' : Memory} (h : ∀ x, x ≤ 124 → m.read x = m'.read x) : parseAll m = parseAll m' := by
  refine Option.ext fun f => ?_
  simp only [parseAll_eq_some_iff_layers]
  exact forall_congr' fun l => layerParsed_congr fun x _ hx => h x hx

/-- The sender: INIT n and SETSLOTS of n bytes leave a built packet with those bytes as its slots. -/
theorem exec_init_setslots {s : State} {n : BitVec 16} {data : List Byte} (hinv : s.Inv) (hlo : 1 ≤ n.toNat)
    (hhi : n.toNat ≤ 512) (hdata : data.length = n.toNat) :
    ∃ t f, andThen (exec (.init n) s) (exec (.setslots data)) = .next t ∧ t.Inv ∧ t.Built n.toNat f ∧
      ∀ i, i < n.toNat → t.buf.read (126 + i) = data[i]? := by
  obtain ⟨u, f, hinit, -, hb, -⟩ := initBuildsThePacket.1 s n hinv.cfgValid hlo hhi
  have hinvu := exec_inv hinv hinit
  obtain ⟨t, -, hset, -, hslots, -⟩ := setslotsCopiesTheClampedCount.2 u f data n.toNat hinvu hb.fieldRegs
    (by rw [hdata, hb.pvc, hb.len]; omega)
  obtain ⟨g, hb'⟩ := exec_edit_built hb rfl hset
  exact ⟨t, g, (andThen_eq_next_iff _ _ t).mpr ⟨u, hinit, hset⟩, exec_inv hinvu hset, hb', hslots⟩

/-- The receiver: what a LOAD of the 126 + n bytes of a valid packet's buffer leaves. -/
theorem exec_load_image {r : State} {m : Memory} {image : List Byte} {n : Nat} {f : FieldRegs} (hinv : r.Inv)
    (hn : n ≤ 512) (himage : m.readBytes 0 (126 + n) = some image) (hparse : parseAll m = some f) :
    ∃ u, exec (.load image) r = .next u ∧ u.resp = some ⟨.ok, BitVec.ofNat 32 (126 + n), []⟩ ∧ u.Inv ∧
      u.life = .parsed f ∧ u.len.toNat = 126 + n ∧ ∀ x, x < 126 + n → u.buf.read x = m.read x := by
  obtain ⟨⟨hcap, -⟩, -⟩ := (Params.valid_iff r.cfg).mp hinv.cfgValid
  obtain ⟨hlength, hbytes⟩ := (Memory.readBytes_eq_some_iff m 0 (126 + n) image).mp himage
  obtain ⟨-, -, htaken⟩ := loadStoresTheDatagram r image hinv.cfgValid
  obtain ⟨u, f', hload, hresp, hlife, hparse', hlen, hread, -⟩ := htaken (by omega) (by omega)
  rw [hlength] at hresp hlen hread
  have hsame (x : Nat) (hx : x < 126 + n) : u.buf.read x = m.read x := by
    rw [hread x hx, ← hbytes x hx, Nat.zero_add]
  obtain rfl : f = f' := Option.some.inj
    (hparse.symm.trans ((parseAll_congr fun x hx => hsame x (by omega)).symm.trans hparse'))
  exact ⟨u, hload, hresp, exec_inv hinv hload, hlife, hlen, hsame⟩

/-- Settles O56: the receiver's buffer is the sender's, and so are its slots and its judgement. -/
theorem roundTripReturnsTheSlots : Obligations.RoundTripReturnsTheSlots := by
  intro s n data hinv hlo hhi hdata
  obtain ⟨t, f, hsend, hinvt, hb, hslots⟩ := exec_init_setslots hinv hlo hhi hdata
  have hp : t.pstate ≠ .uninit := State.pstate_of_fieldRegs hb.fieldRegs
  obtain ⟨image, himage⟩ := Memory.readBytes_isSome (m := t.buf) (a := 0) (126 + n.toNat) fun i hi =>
    (hinvt.read_isSome_iff hp (0 + i)).mpr (by rw [hb.len]; omega)
  refine ⟨t, image, hsend, himage, fun r hinvr => ?_⟩
  obtain ⟨u, hload, hresp, hinvu, hlife, hlen, hsame⟩ := exec_load_image hinvr hhi himage hb.current
  have hpu : u.pstate = .parsed := by rw [State.pstate, hlife]
  have hfu : u.fieldRegs = some f := by rw [State.fieldRegs, hlife]
  obtain ⟨d, hget, hlength, hread⟩ := getslotsReadsTheSlots.2 u hinvu (by rw [hpu]; decide)
  rw [hlen, Nat.add_sub_cancel_left] at hget hlength hread
  obtain rfl : d = data := List.ext_getElem? fun i => by
    by_cases hi : i < n.toNat
    · rw [← hread i hi, hsame _ (by omega), hslots i hi]
    · rw [List.getElem?_eq_none (by omega), List.getElem?_eq_none (by omega)]
  exact ⟨u, hload, hresp, hpu, hlen, by rw [hget]; rfl, answer_validate_of_valid hfu hb.valid⟩

end Sys2Proof.Machine
end
